-- ==== Sys2Proof/Word.lean ====
section
/-! DEFINITION. The word types of the block: 32-bit registers (R21, REG_BITS = 32) and 8-bit buffer bytes (R41). -/

namespace Sys2Proof

/-- A register of the register port (R8 REG_BITS, R21). -/
abbrev Word := BitVec 32

/-- A byte of `IBUF` or `OBUF` (R41). -/
abbrev Byte := BitVec 8

end Sys2Proof
end

