-- ==== Sys2Proof/Syntax.lean ====
section
/-! DEFINITION. The fifteen commands (R92), one constructor per row of the opcode table; a command word carries no operand (R93). -/

namespace Sys2Proof

/-- The complete command set (R92). -/
inductive Instr where
  | gfBuild
  | gfMul
  | gfInv
  | gfPow
  | gfLog
  | gfAlog
  | crcCfg
  | crcEnc
  | crcDec
  | rsCfg
  | rsEnc
  | rsDec
  | bchCfg
  | bchEnc
  | bchDec
  deriving DecidableEq, Repr

/-- The mnemonic of a command (R92, R99). -/
def Instr.mnemonic : Instr → String
  | .gfBuild => "GF.BUILD"
  | .gfMul => "GF.MUL"
  | .gfInv => "GF.INV"
  | .gfPow => "GF.POW"
  | .gfLog => "GF.LOG"
  | .gfAlog => "GF.ALOG"
  | .crcCfg => "CRC.CFG"
  | .crcEnc => "CRC.ENC"
  | .crcDec => "CRC.DEC"
  | .rsCfg => "RS.CFG"
  | .rsEnc => "RS.ENC"
  | .rsDec => "RS.DEC"
  | .bchCfg => "BCH.CFG"
  | .bchEnc => "BCH.ENC"
  | .bchDec => "BCH.DEC"

end Sys2Proof
end

