-- ==== Sys2Proof/Config.lean ====
section
/-! DEFINITION. The parameters of R8 at the values this hardware takes, and the free values: what the spec leaves unspecified. -/

namespace Sys2Proof.Config

/-- `M_MIN` (R8): smallest field exponent `GF.BUILD` accepts. -/
abbrev mMin : Nat := 2

/-- `M_MAX` (R8): largest field exponent `GF.BUILD` accepts. -/
abbrev mMax : Nat := 16

/-- `GF_ALPHA` (R8, R121): the generator element, the polynomial `x`. -/
abbrev gfAlpha : Nat := 2

/-- `GF_CONTEXTS` (R8, R335): fields held at one time; State holds one pair of tables. -/
abbrev gfContexts : Nat := 1

/-- `CRC_WMAX` (R8): largest CRC width. -/
abbrev crcWmax : Nat := 32

/-- `RS_M_MAX` (R8): largest field exponent of the RS unit. -/
abbrev rsMMax : Nat := 8

/-- `RS_FCR` (R8): exponent of the first RS generator root. -/
abbrev rsFcr : Nat := 0

/-- `BCH_FCR` (R8): exponent of the first BCH generator root. -/
abbrev bchFcr : Nat := 1

/-- `BUF_BYTES` (R8): bytes of each buffer. -/
abbrev bufBytes : Nat := 8192

/-- `REG_BITS` (R8): width of every register. -/
abbrev regBits : Nat := 32

/-- Free value: what the n-th draw of an unspecified buffer byte gives (R72, U9, U10; log 1). -/
opaque freeByte : Nat → Byte

/-- Free value: what the n-th draw of an unspecified register gives (R35, U13; log 3). -/
opaque freeWord : Nat → Word

/-- Free value: what a table location that holds no value would give at an index (R38, U11, U12; log 5). -/
opaque freeEntry : Nat → Nat

end Sys2Proof.Config
end

