-- ==== Sys2Proof/Machine/Port.lean ====
section
/-! DEFINITION. The register port: the register map (R21), the regions (R60), the host's four access primitives (R62) and
how an access that reaches the port is sorted into one of them or found undefined (R63, U8). -/

namespace Sys2Proof.Machine

/-- One access as it reaches the port: direction, width in bits, byte offset, data of a write (R61). -/
structure PortAccess where
  isWrite : Bool
  width : Nat
  offset : Nat
  data : Word
  deriving DecidableEq, Repr

/-- The two buffers (R41, R60). -/
inductive Buf where
  | ibuf
  | obuf
  deriving DecidableEq, Repr

/-- The seventeen host-visible registers (R21). -/
inductive Reg where
  | cmd
  | status
  | result
  | opa
  | opb
  | res
  | ilen
  | olen
  | gfM
  | gfPoly
  | crcWidth
  | crcPoly
  | crcInit
  | crcXorout
  | rsR
  | bchT
  | bchP
  deriving DecidableEq, Repr

/-- The host's access primitives (R62). A write to `OBUF` exists as an access and is ignored (R60; log 12). -/
inductive HostStep where
  | regRead (offset : Nat)
  | regWrite (offset : Nat) (v : Word)
  | bufRead (b : Buf) (i : Nat)
  | bufWrite (b : Buf) (i : Nat) (v : Byte)
  deriving DecidableEq, Repr

/-- Why an access is not one of the four primitives (R63, U8). -/
inductive AccessProblem where
  | misalignedRegister
  | registerWidth
  | bufferWidth
  | outsideSpace
  deriving DecidableEq, Repr

/-- The offset of a register (R21). -/
def Reg.offset : Reg → Nat
  | .cmd => 0x00
  | .status => 0x04
  | .result => 0x08
  | .opa => 0x0C
  | .opb => 0x10
  | .res => 0x14
  | .ilen => 0x18
  | .olen => 0x1C
  | .gfM => 0x20
  | .gfPoly => 0x24
  | .crcWidth => 0x28
  | .crcPoly => 0x2C
  | .crcInit => 0x30
  | .crcXorout => 0x34
  | .rsR => 0x38
  | .bchT => 0x3C
  | .bchP => 0x40

/-- The register at an offset; none is a reserved offset (R21, R37). -/
def Reg.ofOffset : Nat → Option Reg
  | 0x00 => some .cmd
  | 0x04 => some .status
  | 0x08 => some .result
  | 0x0C => some .opa
  | 0x10 => some .opb
  | 0x14 => some .res
  | 0x18 => some .ilen
  | 0x1C => some .olen
  | 0x20 => some .gfM
  | 0x24 => some .gfPoly
  | 0x28 => some .crcWidth
  | 0x2C => some .crcPoly
  | 0x30 => some .crcInit
  | 0x34 => some .crcXorout
  | 0x38 => some .rsR
  | 0x3C => some .bchT
  | 0x40 => some .bchP
  | _ => none

/-- First offset of `IBUF` (R60). -/
abbrev ibufBase : Nat := 0x2000

/-- First offset of `OBUF` (R60). -/
abbrev obufBase : Nat := 0x4000

/-- First offset past the address space (R60). -/
abbrev spaceEnd : Nat := 0x6000

/-- What keeps an access from being one of the four primitives, if anything (R63). -/
def PortAccess.problem (a : PortAccess) : Option AccessProblem :=
  if spaceEnd ≤ a.offset then some .outsideSpace
  else if a.offset < ibufBase then
    if a.width ≠ Config.regBits then some .registerWidth
    else if a.offset % 4 ≠ 0 then some .misalignedRegister
    else none
  else if a.width ≠ 8 then some .bufferWidth
  else none

/-- The region and index of a defined access (R60, R62). A byte write carries the low 8 bits of the data (log 11). -/
def PortAccess.hostStep (a : PortAccess) : HostStep :=
  if a.offset < ibufBase then
    if a.isWrite then .regWrite a.offset a.data else .regRead a.offset
  else if a.offset < obufBase then
    if a.isWrite then .bufWrite .ibuf (a.offset - ibufBase) (a.data.setWidth 8)
    else .bufRead .ibuf (a.offset - ibufBase)
  else
    if a.isWrite then .bufWrite .obuf (a.offset - obufBase) (a.data.setWidth 8)
    else .bufRead .obuf (a.offset - obufBase)

/-- A 32-bit write to a register-space offset (R62 `RegWrite`). -/
def PortAccess.regWrite (offset : Nat) (v : Word) : PortAccess :=
  { isWrite := true, width := Config.regBits, offset := offset, data := v }

/-- A 32-bit read of a register-space offset (R62 `RegRead`). -/
def PortAccess.regRead (offset : Nat) : PortAccess :=
  { isWrite := false, width := Config.regBits, offset := offset, data := 0 }

/-- A byte write to `IBUF[i]` (R62 `BufWrite`). -/
def PortAccess.ibufWrite (i : Nat) (b : Byte) : PortAccess :=
  { isWrite := true, width := 8, offset := ibufBase + i, data := b.setWidth 32 }

/-- A byte read of `IBUF[i]` (R62 `BufRead`). -/
def PortAccess.ibufRead (i : Nat) : PortAccess :=
  { isWrite := false, width := 8, offset := ibufBase + i, data := 0 }

/-- A byte read of `OBUF[i]` (R62 `BufRead`). -/
def PortAccess.obufRead (i : Nat) : PortAccess :=
  { isWrite := false, width := 8, offset := obufBase + i, data := 0 }

/-- The write of a command word (R25). -/
def PortAccess.command (w : Word) : PortAccess := .regWrite Reg.cmd.offset w

end Sys2Proof.Machine
end

