-- ==== Sys2Proof/WellFormed.lean ====
section
/-! DEFINITION. Well-formed syntax. A command has no operand, so every command is well formed (R93: range checks are
part of the command's semantics). An access is well formed iff it is one of the four primitives of R62 (R63). -/

namespace Sys2Proof

/-- A command word carries nothing but its opcode (R93), so there is nothing to check. -/
def Instr.wellFormed (_ : Instr) : Bool := true

/-- The access is one of the four primitives (R62, R63). -/
def Machine.PortAccess.wellFormed (a : Machine.PortAccess) : Bool := a.problem.isNone

/-- Every access of a host script is one of the four primitives (R100). -/
def Machine.PortAccess.scriptWellFormed (l : List Machine.PortAccess) : Bool :=
  l.all Machine.PortAccess.wellFormed

end Sys2Proof
end

