-- ==== Sys2Proof/Decode.lean ====
section
/-! DEFINITION. The decoder, total on every 32-bit word, rejecting by name (R90, R95), and the encoder (R92). -/

namespace Sys2Proof

/-- Why a word is no command (R95). -/
inductive DecodeReject where
  /-- a bit of 31:8 is set -/
  | nonZeroHighBits
  /-- `UNIT` in 4 to 15 -/
  | reservedUnit
  /-- the unit has no such function -/
  | unassignedFunction
  deriving DecidableEq, Repr

/-- `ZERO`, bits 31:8 (R90). -/
def fieldZero (w : Word) : Nat := w.toNat / 256

/-- `UNIT`, bits 7:4 (R90). -/
def fieldUnit (w : Word) : Nat := w.toNat / 16 % 16

/-- `FN`, bits 3:0 (R90). -/
def fieldFn (w : Word) : Nat := w.toNat % 16

/-- The functions of the GF unit, `UNIT` = 0 (R92). -/
def decodeGf : Nat → Option Instr
  | 1 => some .gfBuild
  | 2 => some .gfMul
  | 3 => some .gfInv
  | 4 => some .gfPow
  | 5 => some .gfLog
  | 6 => some .gfAlog
  | _ => none

/-- The functions of the CRC unit, `UNIT` = 1 (R92). -/
def decodeCrc : Nat → Option Instr
  | 0 => some .crcCfg
  | 1 => some .crcEnc
  | 2 => some .crcDec
  | _ => none

/-- The functions of the RS unit, `UNIT` = 2 (R92). -/
def decodeRs : Nat → Option Instr
  | 0 => some .rsCfg
  | 1 => some .rsEnc
  | 2 => some .rsDec
  | _ => none

/-- The functions of the BCH unit, `UNIT` = 3 (R92). -/
def decodeBch : Nat → Option Instr
  | 0 => some .bchCfg
  | 1 => some .bchEnc
  | 2 => some .bchDec
  | _ => none

/-- A function of a unit, or the reason there is none. -/
def assigned : Option Instr → Except DecodeReject Instr
  | some i => .ok i
  | none => .error .unassignedFunction

/-- Decoding is total: every 32-bit word is one of the 15 commands or illegal (R95). -/
def decode (w : Word) : Except DecodeReject Instr :=
  if fieldZero w ≠ 0 then .error .nonZeroHighBits
  else match fieldUnit w with
    | 0 => assigned (decodeGf (fieldFn w))
    | 1 => assigned (decodeCrc (fieldFn w))
    | 2 => assigned (decodeRs (fieldFn w))
    | 3 => assigned (decodeBch (fieldFn w))
    | _ => .error .reservedUnit

/-- `UNIT` of a command (R90, R91). -/
def Instr.unit : Instr → Nat
  | .gfBuild | .gfMul | .gfInv | .gfPow | .gfLog | .gfAlog => 0
  | .crcCfg | .crcEnc | .crcDec => 1
  | .rsCfg | .rsEnc | .rsDec => 2
  | .bchCfg | .bchEnc | .bchDec => 3

/-- `FN` of a command (R91, R92). -/
def Instr.fn : Instr → Nat
  | .gfBuild => 1
  | .gfMul => 2
  | .gfInv => 3
  | .gfPow => 4
  | .gfLog => 5
  | .gfAlog => 6
  | .crcCfg | .rsCfg | .bchCfg => 0
  | .crcEnc | .rsEnc | .bchEnc => 1
  | .crcDec | .rsDec | .bchDec => 2

/-- The word of a command: `ZERO` = 0, `UNIT`, `FN` (R90). -/
def encode (i : Instr) : Word := BitVec.ofNat 32 (16 * i.unit + i.fn)

/-- The command a table row's bits decode to: one 32-bit word (R90; log 13); a number that is no
32-bit word is none. -/
def decodeTableWord (_nbits w : Nat) : Option Instr :=
  if w < 2 ^ 32 then
    match decode (BitVec.ofNat 32 w) with
    | .ok i => some i
    | .error _ => none
  else none

end Sys2Proof
end

