-- ==== Sys2Proof/Machine/State.lean ====
section
/-! DEFINITION. The state of the block as plain data (R20 to R44), its faults and refusals, and the state after reset. -/

namespace Sys2Proof.Machine

/-- The completion codes, the values of `STATUS.CODE` (R27, R291). -/
inductive Code where
  | ok
  | errConfig
  | errInvalidPoly
  | errEmpty
  | errDiv0
  | errNotConfigured
  | errLength
  | errOperand
  | errIllegalCmd
  deriving DecidableEq, Repr

/-- `RESULT.TAG` (R29); the value 3 is never produced and has no constructor. -/
inductive Tag where
  | none
  | corrected
  | uncorrectable
  deriving DecidableEq, Repr

/-- The `RESULT` register by its fields (R29). -/
structure Result where
  tag : Tag
  matched : Bool
  noerr : Bool
  deriving DecidableEq, Repr

/-- A table of the GF unit: entry `i` of the list is location `i`; `none` is a location that holds no value (R38). -/
abbrev Table := List (Option Nat)

/-- The two tables `LOG` and `ALOG` (R38). -/
structure Tables where
  log : Table
  alog : Table
  deriving DecidableEq, Repr

/-- A buffer: the cells (index, byte) that hold a value; an index that is not listed is unspecified (R44, R72, R73). -/
abbrev Memory := List Host.Cell

/-- Why the model stops with no next state. -/
inductive Fault where
  /-- Raised by `CRC.ENC`, `CRC.DEC`, `RS.ENC`, `RS.DEC`, `BCH.ENC`, `BCH.DEC` whose checks up to the length have passed and
  whose input range holds an `IBUF` byte nothing has written: the command has no result (R73, U10; log 2). Safe. -/
  | unwrittenInput
  /-- Raised by the RS and BCH commands in a state where their VALID flag is 1 and the tables, or `BCH_P`, hold no value:
  a read of a value that is not there (U11; log 5). No state that keeps the invariant of Safety.lean is such. Safe. -/
  | absentTable
  deriving DecidableEq, Repr

/-- What the model gives no meaning. -/
inductive Refusal where
  /-- Raised by `exec` for a command whose meaning is not written yet; no arm of this model is such. Safe. -/
  | notModelled (mnemonic : String)
  /-- Raised by the port for an access outside the four primitives of R62 (R63, U8; log 8). Safe. -/
  | undefinedAccess (why : AccessProblem)
  deriving DecidableEq, Repr

/-- The state of the block and, in the last three fields, of the model's host side. -/
structure State where
  /-- `STATUS.CODE` (R26, R27) -/
  code : Code
  /-- `RESULT` (R29) -/
  result : Result
  /-- `OPA` (R22) -/
  opa : Word
  /-- `OPB` (R22) -/
  opb : Word
  /-- `RES` (R22) -/
  res : Word
  /-- `ILEN` (R23) -/
  ilen : Word
  /-- `OLEN` (R23) -/
  olen : Word
  /-- `GF_M` (R32) -/
  gfM : Word
  /-- `GF_POLY` (R32) -/
  gfPoly : Word
  /-- `CRC_WIDTH` (R33) -/
  crcWidth : Word
  /-- `CRC_POLY` (R33) -/
  crcPoly : Word
  /-- `CRC_INIT` (R33) -/
  crcInit : Word
  /-- `CRC_XOROUT` (R33) -/
  crcXorout : Word
  /-- `STATUS.CRC_VALID` (R26, R28) -/
  crcValid : Bool
  /-- `RS_R` (R34) -/
  rsR : Word
  /-- `BCH_T` (R35) -/
  bchT : Word
  /-- `BCH_P` (R35); none: unspecified since a failed `BCH.CFG` (R297, U13; log 3) -/
  bchP : Option Word
  /-- `LOG` and `ALOG` (R38); present iff `STATUS.GF_VALID` = 1 (R26, R28, R38; log 4) -/
  tables : Option Tables
  /-- `RS_GEN` (R39), highest power first; present iff `STATUS.RS_VALID` = 1 (R26, R28, R39; log 4) -/
  rsGen : Option (List Nat)
  /-- `BCH_GEN` (R40); present iff `STATUS.BCH_VALID` = 1 (R26, R28, R40; log 4) -/
  bchGen : Option Nat
  /-- `IBUF` (R41) -/
  ibuf : Memory
  /-- `OBUF` (R41) -/
  obuf : Memory
  /-- the accesses the host has still to make, in the order it makes them (R24, R100; log 6) -/
  pending : List PortAccess
  /-- the data the host's latest read returned (R62; log 7) -/
  readData : Word
  /-- the index of the next free value (log 1) -/
  draws : Nat
  deriving DecidableEq, Repr

/-- What a command does: a next state, a fault or a refusal. -/
abbrev Effect := Host.Outcome State Fault Refusal

/-- `RESULT` = 0 (R29). -/
def Result.zero : Result := { tag := .none, matched := false, noerr := false }

/-- The state after reset (R44, R330): registers 0, flags 0, tables and buffers unspecified; no access pending (log 6). -/
def State.reset : State where
  code := .ok
  result := Result.zero
  opa := 0
  opb := 0
  res := 0
  ilen := 0
  olen := 0
  gfM := 0
  gfPoly := 0
  crcWidth := 0
  crcPoly := 0
  crcInit := 0
  crcXorout := 0
  crcValid := false
  rsR := 0
  bchT := 0
  bchP := some 0
  tables := none
  rsGen := none
  bchGen := none
  ibuf := []
  obuf := []
  pending := []
  readData := 0
  draws := 0

end Sys2Proof.Machine
end

