-- ==== Sys2Proof/Machine/Flags.lean ====
section
/-! DEFINITION. `STATUS` and `RESULT` as words, the four VALID flags and what clears them (R26 to R31, R36). -/

namespace Sys2Proof.Machine

/-- The number of a completion code (R291). -/
def Code.number : Code → Nat
  | .ok => 0
  | .errConfig => 1
  | .errInvalidPoly => 2
  | .errEmpty => 3
  | .errDiv0 => 4
  | .errNotConfigured => 5
  | .errLength => 6
  | .errOperand => 7
  | .errIllegalCmd => 8

/-- The number of a tag (R29). -/
def Tag.number : Tag → Nat
  | .none => 0
  | .corrected => 1
  | .uncorrectable => 2

/-- `STATUS.GF_VALID`: the tables hold a field (R26; log 4). -/
def State.gfValid (s : State) : Bool := s.tables.isSome

/-- `STATUS.RS_VALID`: `RS_GEN` holds a generator (R26; log 4). -/
def State.rsValid (s : State) : Bool := s.rsGen.isSome

/-- `STATUS.BCH_VALID`: `BCH_GEN` holds a generator (R26; log 4). -/
def State.bchValid (s : State) : Bool := s.bchGen.isSome

/-- `STATUS` as the host reads it (R26). -/
def State.statusWord (s : State) : Word :=
  BitVec.ofNat 32 (s.code.number + s.gfValid.toNat * 2 ^ 8 + s.crcValid.toNat * 2 ^ 9
    + s.rsValid.toNat * 2 ^ 10 + s.bchValid.toNat * 2 ^ 11)

/-- `RESULT` as the host reads it (R29). -/
def Result.word (r : Result) : Word :=
  BitVec.ofNat 32 (r.tag.number + r.matched.toNat * 2 ^ 2 + r.noerr.toNat * 2 ^ 3)

/-- `RESULT` after `CRC.DEC` (R30, R164). -/
def Result.ofMatch (b : Bool) : Result := { tag := .none, matched := b, noerr := false }

/-- `RESULT` after a decode by its zero-syndrome exit (R31, R199). -/
def Result.clean : Result := { tag := .corrected, matched := false, noerr := true }

/-- `RESULT` after a decode that repaired errors (R31). -/
def Result.repaired : Result := { tag := .corrected, matched := false, noerr := false }

/-- `RESULT` after a decode that gave up (R31). -/
def Result.gaveUp : Result := { tag := .uncorrectable, matched := false, noerr := false }

/-- `GF_VALID`, `RS_VALID` and `BCH_VALID` cleared: tables and generators hold no value (R28, R36, R38 to R40, R122). -/
def State.clearField (s : State) : State := { s with tables := none, rsGen := none, bchGen := none }

/-- `CRC_VALID` cleared (R36, R161). -/
def State.clearCrc (s : State) : State := { s with crcValid := false }

/-- `RS_VALID` cleared: `RS_GEN` holds no value (R36, R39, R193). -/
def State.clearRs (s : State) : State := { s with rsGen := none }

/-- `BCH_VALID` cleared: `BCH_GEN` holds no value (R36, R40, R243). -/
def State.clearBch (s : State) : State := { s with bchGen := none }

/-- `BCH_P` left unspecified by a failed `BCH.CFG` (R35, R297). -/
def State.forgetBchP (s : State) : State := { s with bchP := none }

end Sys2Proof.Machine
end

