-- ==== Sys2Proof/Machine/Bits.lean ====
section
/-! DEFINITION. Bit streams (R11, R67), sums in characteristic 2, the division register shared by the CRC and BCH units,
and carry-less products (R242). -/

namespace Sys2Proof.Machine

/-- The bits of a byte, most significant first (R11). -/
def byteBits (b : Byte) : List Bool :=
  [b.getLsbD 7, b.getLsbD 6, b.getLsbD 5, b.getLsbD 4, b.getLsbD 3, b.getLsbD 2, b.getLsbD 1, b.getLsbD 0]

/-- The bit stream of a byte sequence (R11). -/
def bitStream (D : List Byte) : List Bool := D.flatMap byteBits

/-- `bit(D, i) = D[i div 8][7 - (i mod 8)]` (R11). -/
def bitAt (D : List Byte) (i : Nat) : Bool := (D.getD (i / 8) 0).getLsbD (7 - i % 8)

/-- Flip bit `7 - (i mod 8)` of byte `i div 8` (R249). -/
def flipBit (D : List Byte) (i : Nat) : List Byte :=
  D.modify (i / 8) (fun b => b ^^^ BitVec.twoPow 8 (7 - i % 8))

/-- The bytes of a number of `8 * count` bits, most significant byte first (R246). -/
def bytesMsbFirst (count v : Nat) : List Byte :=
  (List.range count).map fun j => BitVec.ofNat 8 ((v >>> (8 * (count - 1 - j))) &&& 0xFF)

/-- The XOR of a list: the sum of field elements or of GF(2) polynomials (R120). -/
def xorSum (l : List Nat) : Nat := l.foldr (fun a b => a ^^^ b) 0

/-- One bit of a division by `x^n + poly` in an n-bit register: the incoming bit meets the bit leaving the top (R162, R246). -/
def divisionStep (n poly reg : Nat) (b : Bool) : Nat :=
  let shifted := (reg <<< 1) % 2 ^ n
  if (reg.testBit (n - 1) != b) = true then shifted ^^^ poly else shifted

/-- The division register after a bit stream (R162, R246). -/
def divide (n poly init : Nat) (bits : List Bool) : Nat := bits.foldl (divisionStep n poly) init

/-- The carry-less (GF(2)[x]) product of two integers (R242). -/
def clmul (a b : Nat) : Nat :=
  xorSum ((List.range (b.log2 + 1)).map fun i => if b.testBit i then a <<< i else 0)

/-- `ceil(a / 8)` (R10). -/
def bytesFor (bits : Nat) : Nat := (bits + 7) / 8

end Sys2Proof.Machine
end

