-- ==== Sys2Proof/Machine/Field.lean ====
section
/-! DEFINITION. The field GF(2^m) in the tables and its functions (R120 to R129), and polynomials over it. -/

namespace Sys2Proof.Machine

/-- The field the GF unit holds: the exponent `GF_M` and the two tables (R38, R120). -/
structure Field where
  m : Nat
  tables : Tables
  deriving DecidableEq, Repr

/-- `2^m`, the number of field elements (R120). -/
def Field.size (F : Field) : Nat := 2 ^ F.m

/-- `Q = 2^m - 1`, the order of the multiplicative group (`40_gf.md`, opening). -/
def Field.order (F : Field) : Nat := 2 ^ F.m - 1

/-- A table location; one that holds no value gives a free value (R38, U11, U12; log 5). -/
def Table.read (t : Table) (i : Nat) : Nat := (t.getD i none).getD (Config.freeEntry i)

/-- `LOG[x]`. -/
def Field.logOf (F : Field) (x : Nat) : Nat := Table.read F.tables.log x

/-- `ALOG[e]`. -/
def Field.alogOf (F : Field) (e : Nat) : Nat := Table.read F.tables.alog e

/-- `xtime(x)`: multiplication by `GF_ALPHA` = 2, reducing modulo `P` (R121). -/
def xtime (m P x : Nat) : Nat :=
  let y := x <<< 1
  if y.testBit m then y ^^^ P else y

/-- The loop of `GF.BUILD` (R122): `k` passes left, at index `i`, with `x` the current power of alpha. -/
def buildLoop (m P : Nat) : Nat → Nat → Nat → Tables → Option (Nat × Tables)
  | 0, _, x, T => some (x, T)
  | k + 1, i, x, T =>
    if x = 0 then none
    else if 0 < i ∧ x = 1 then none
    else buildLoop m P k (i + 1) (xtime m P x) { log := T.log.set x (some i), alog := T.alog.set i (some x) }

/-- Tables of `2^m` locations none of which holds a value. -/
def Tables.blank (m : Nat) : Tables :=
  { log := List.replicate (2 ^ m) none, alog := List.replicate (2 ^ m) none }

/-- The construction of `GF.BUILD` (R122): the tables, or the code it raises. -/
def buildTables (m P : Nat) : Except Code Tables :=
  if m < Config.mMin ∨ Config.mMax < m then .error .errConfig
  else if P >>> m ≠ 1 then .error .errInvalidPoly
  else match buildLoop m P (2 ^ m - 1) 0 1 (Tables.blank m) with
    | none => .error .errInvalidPoly
    | some (x, T) =>
      if x ≠ 1 then .error .errInvalidPoly
      else .ok { log := T.log, alog := T.alog.set (2 ^ m - 1) (some 1) }

/-- `gf_mul(a, b)` (R125). -/
def Field.mul (F : Field) (a b : Nat) : Nat :=
  if a = 0 ∨ b = 0 then 0 else F.alogOf ((F.logOf a + F.logOf b) % F.order)

/-- `gf_inv(a)` (R126). -/
def Field.inv (F : Field) (a : Nat) : Except Code Nat :=
  if a = 0 then .error .errDiv0 else .ok (F.alogOf ((F.order - F.logOf a) % F.order))

/-- `gf_pow(a, n)` (R127): the product is taken over the integers, then reduced. -/
def Field.pow (F : Field) (a n : Nat) : Nat :=
  if n = 0 then 1 else if a = 0 then 0 else F.alogOf ((F.logOf a * n) % F.order)

/-- `gf_div(a, b)` (R128). -/
def Field.div (F : Field) (a b : Nat) : Except Code Nat :=
  match F.inv b with
  | .error c => .error c
  | .ok bi => .ok (F.mul a bi)

/-- `alpha(e)` (R129). -/
def Field.alpha (F : Field) (e : Nat) : Nat := F.alogOf (e % F.order)

/-- `poly_eval(P, d, x)` (R12): `P[i]` is the coefficient of `x^i`. -/
def Field.polyEval (F : Field) (P : List Nat) (d x : Nat) : Nat :=
  xorSum ((List.range (d + 1)).map fun i => F.mul (P.getD i 0) (F.pow x i))

/-- `g * (x xor a)` for coefficients from the highest power down (R192, R242). -/
def Field.mulRoot (F : Field) (g : List Nat) (a : Nat) : List Nat :=
  List.zipWith (fun u v => u ^^^ v) (g ++ [0]) (0 :: g.map fun c => F.mul c a)

/-- The monic polynomial with the given roots, coefficients from the highest power down (R192, R242). -/
def Field.polyOfRoots (F : Field) (roots : List Nat) : List Nat := roots.foldl F.mulRoot [1]

/-- `deg(C)`: the largest `i` with `C[i] != 0`, at least 0 (R200). -/
def polyDegree (C : List Nat) : Nat :=
  ((List.range C.length).filter fun i => C.getD i 0 ≠ 0).getLastD 0

end Sys2Proof.Machine
end

