-- ==== Sys2Proof/Machine/Locator.lean ====
section
/-! DEFINITION. The error-locator search and the root search the RS and BCH decoders share (R200, R202). -/

namespace Sys2Proof.Machine

/-- The working values of the locator search: `C`, `B`, `L`, `sh`, `bd` (R200). -/
structure BmState where
  c : List Nat
  b : List Nat
  len : Nat
  sh : Nat
  bd : Nat
  deriving DecidableEq, Repr

/-- Before the first syndrome: `C = B = [1, 0, ..., 0]`, `L = 0`, `sh = 1`, `bd = 1` (R200). -/
def bmInit (Ns : Nat) : BmState :=
  { c := 1 :: List.replicate Ns 0, b := 1 :: List.replicate Ns 0, len := 0, sh := 1, bd := 1 }

/-- The discrepancy at index `j` (R200). -/
def bmDiscrepancy (F : Field) (S : List Nat) (st : BmState) (j : Nat) : Nat :=
  S.getD j 0 ^^^ xorSum ((List.range' 1 st.len).map fun i => F.mul (st.c.getD i 0) (S.getD (j - i) 0))

/-- `C - q * x^sh * B` on `Ns + 1` coefficients (R200). -/
def bmUpdate (F : Field) (Ns q : Nat) (st : BmState) : List Nat :=
  (List.range (Ns + 1)).map fun k =>
    if st.sh ≤ k then st.c.getD k 0 ^^^ F.mul q (st.b.getD (k - st.sh) 0) else st.c.getD k 0

/-- One pass of the loop, at index `j` (R200). -/
def bmStep (F : Field) (S : List Nat) (Ns : Nat) (st : BmState) (j : Nat) : Except Code BmState :=
  let d := bmDiscrepancy F S st j
  if d = 0 then .ok { st with sh := st.sh + 1 }
  else match F.div d st.bd with
    | .error c => .error c
    | .ok q =>
      if 2 * st.len ≤ j then
        .ok { c := bmUpdate F Ns q st, b := st.c, len := j + 1 - st.len, sh := 1, bd := d }
      else .ok { st with c := bmUpdate F Ns q st, sh := st.sh + 1 }

/-- The passes at the given indices, in order. -/
def bmLoop (F : Field) (S : List Nat) (Ns : Nat) : List Nat → BmState → Except Code BmState
  | [], st => .ok st
  | j :: js, st =>
    match bmStep F S Ns st j with
    | .error c => .error c
    | .ok st' => bmLoop F S Ns js st'

/-- `bm(S, Ns)` (R200): the connection polynomial `C[0..Ns]` and the register length `L`. -/
def bm (F : Field) (S : List Nat) (Ns : Nat) : Except Code (List Nat × Nat) :=
  match bmLoop F S Ns (List.range Ns) (bmInit Ns) with
  | .error c => .error c
  | .ok st => .ok (st.c, st.len)

/-- The locator `X_i = alpha(n-1-i)` of position `i` in a word of `n` positions (R196, R248). -/
def Field.locator (F : Field) (n i : Nat) : Nat := F.alpha (n - 1 - i)

/-- The positions, among those given and in their order, at whose inverse locator the polynomial is 0 (R202, R249). -/
def rootPositions (F : Field) (lam : List Nat) (d n : Nat) : List Nat → Except Code (List Nat)
  | [] => .ok []
  | i :: is =>
    match F.inv (F.locator n i), rootPositions F lam d n is with
    | .error c, _ => .error c
    | .ok _, .error c => .error c
    | .ok xi, .ok rest => .ok (if F.polyEval lam d xi = 0 then i :: rest else rest)

/-- What the locator and root searches found (R198 and R249, steps 3 and 4). -/
inductive Located where
  | failed
  | found (lam : List Nat) (d : Nat) (positions : List Nat)
  deriving DecidableEq, Repr

/-- Steps 3 and 4 up to the positions (R200 to R202): the locator of the syndromes `S[0..Ns-1]`, refused when its degree is
above `t` or is not `L`, then the error positions among the `n` received ones, refused when their number is not the degree. -/
def locateErrors (F : Field) (S : List Nat) (Ns t n : Nat) : Except Code Located :=
  match bm F S Ns with
  | .error c => .error c
  | .ok (lam, len) =>
    let d := polyDegree lam
    if t < d ∨ d ≠ len then .ok .failed
    else match rootPositions F lam d n (List.range n) with
      | .error c => .error c
      | .ok pos => if pos.length ≠ d then .ok .failed else .ok (.found lam d pos)

/-- A decode result: the source's `CorrectionResult`, with the zero-syndrome exit told apart (R30, R31). -/
inductive Decoded where
  | clean (payload : List Byte)
  | corrected (payload : List Byte)
  | uncorrectable
  deriving DecidableEq, Repr

end Sys2Proof.Machine
end

