-- ==== Sys2Proof/Machine/Ops.lean ====
section
/-! DEFINITION. The named operations over buffers and registers, and the completion of a command: raising a code is the
block's only exception entry (R290, R297), and there is no return from one (R299, R300). -/

namespace Sys2Proof.Machine

/-- The canonical form of a buffer: indices strictly rising. An index that is not listed holds no value, so no cell is superfluous. -/
abbrev Memory.wf (m : Memory) : Prop := (m.map Prod.fst).Pairwise (· < ·)

/-- The byte at an index, if it holds one. -/
def Memory.read : Memory → Nat → Option Byte
  | [], _ => none
  | (j, b) :: rest, i => if i = j then some b else Memory.read rest i

/-- The buffer after a byte write (R12 `MemWrite`, R62 `BufWrite`), in canonical form. -/
def Memory.write : Memory → Nat → Byte → Memory
  | [], i, v => [(i, v)]
  | (j, b) :: rest, i, v =>
    if i < j then (i, v) :: (j, b) :: rest
    else if i = j then (i, v) :: rest
    else (j, b) :: Memory.write rest i v

/-- `MemRead(buf, i, n)` (R12), if every byte of the range holds a value. -/
def Memory.readRange (m : Memory) : Nat → Nat → Option (List Byte)
  | _, 0 => some []
  | i, n + 1 =>
    match m.read i, m.readRange (i + 1) n with
    | some b, some bs => some (b :: bs)
    | _, _ => none

/-- A buffer that holds a byte sequence from an index on and nothing else. -/
def Memory.cellsFrom : Nat → List Byte → Memory
  | _, [] => []
  | i, b :: bs => (i, b) :: Memory.cellsFrom (i + 1) bs

/-- A buffer that holds a byte sequence from index 0 on and nothing else (R66, R72). -/
def Memory.ofBytes (out : List Byte) : Memory := Memory.cellsFrom 0 out

/-- A command raises a code: the one exception entry (R297). The caller has already cleared the flags a construction command
clears at its start. -/
def State.raise (c : Code) (s : State) : State := { s with code := c, result := Result.zero }

/-- A command completes with `OK` and the given `RESULT` (R12 `complete`, R29). -/
def State.completeWith (r : Result) (s : State) : State := { s with code := .ok, result := r }

/-- A command completes with `OK` and `RESULT` = 0 (R12 `complete`, R29). -/
def State.complete (s : State) : State := s.completeWith Result.zero

/-- `RES <- zext_32(v)` (R22). -/
def State.setRes (v : Nat) (s : State) : State := { s with res := BitVec.ofNat 32 v }

/-- The output of a command: `OBUF[0..len-1]` and `OLEN`; every other byte of `OBUF` becomes unspecified (R72; log 10). -/
def State.setOutput (out : List Byte) (s : State) : State :=
  { s with obuf := Memory.ofBytes out, olen := BitVec.ofNat 32 out.length }

/-- A decode result reported (R198, R249): `OBUF`, `OLEN` and `RESULT`; after `UNCORRECTABLE` all of `OBUF` is unspecified. -/
def State.reportDecode (o : Decoded) (s : State) : State :=
  match o with
  | .clean payload => (s.setOutput payload).completeWith Result.clean
  | .corrected payload => (s.setOutput payload).completeWith Result.repaired
  | .uncorrectable => (s.setOutput []).completeWith Result.gaveUp

/-- The value of a register as the host reads it; none is unspecified (R21, R25, R35). -/
def State.readReg (s : State) : Reg → Option Word
  | .cmd => some 0
  | .status => some s.statusWord
  | .result => some s.result.word
  | .opa => some s.opa
  | .opb => some s.opb
  | .res => some s.res
  | .ilen => some s.ilen
  | .olen => some s.olen
  | .gfM => some s.gfM
  | .gfPoly => some s.gfPoly
  | .crcWidth => some s.crcWidth
  | .crcPoly => some s.crcPoly
  | .crcInit => some s.crcInit
  | .crcXorout => some s.crcXorout
  | .rsR => some s.rsR
  | .bchT => some s.bchT
  | .bchP => s.bchP

/-- A host write to a register other than `CMD`, with the flags it clears (R22, R23, R36, R37). A write to `CMD` is no store:
it executes a command (R25). -/
def State.writeReg (s : State) (v : Word) : Reg → State
  | .opa => { s with opa := v }
  | .opb => { s with opb := v }
  | .ilen => { s with ilen := v }
  | .gfM => { s with gfM := v }.clearField
  | .gfPoly => { s with gfPoly := v }.clearField
  | .crcWidth => { s with crcWidth := v }.clearCrc
  | .crcPoly => { s with crcPoly := v }.clearCrc
  | .crcInit => { s with crcInit := v }.clearCrc
  | .crcXorout => { s with crcXorout := v }.clearCrc
  | .rsR => { s with rsR := v }.clearRs
  | .bchT => { s with bchT := v }.clearBch
  | .cmd | .status | .result | .res | .olen | .bchP => s

/-- The buffer of a region (R60). -/
def State.buffer (s : State) : Buf → Memory
  | .ibuf => s.ibuf
  | .obuf => s.obuf

/-- A host read returns a word; an unspecified one is drawn (R62, U13; log 3). -/
def State.returnWord (s : State) : Option Word → State
  | some v => { s with readData := v }
  | none => { s with readData := Config.freeWord s.draws, draws := s.draws + 1 }

/-- A host read returns a byte; an unspecified one is drawn (R62, R72, U9, U10; log 1). -/
def State.returnByte (s : State) : Option Byte → State
  | some b => { s with readData := b.setWidth 32 }
  | none => { s with readData := (Config.freeByte s.draws).setWidth 32, draws := s.draws + 1 }

/-- `RegRead(off)` (R62); a reserved offset reads as 0 (R37). -/
def State.hostRegRead (s : State) (offset : Nat) : State :=
  match Reg.ofOffset offset with
  | some r => s.returnWord (s.readReg r)
  | none => s.returnWord (some 0)

/-- `RegWrite(off, v)` to an offset other than that of `CMD` (R62); a reserved offset ignores it (R37). -/
def State.hostRegWrite (s : State) (offset : Nat) (v : Word) : State :=
  match Reg.ofOffset offset with
  | some r => s.writeReg v r
  | none => s

/-- `BufRead(buf, i)` (R62). -/
def State.hostBufRead (s : State) (b : Buf) (i : Nat) : State := s.returnByte ((s.buffer b).read i)

/-- `BufWrite(IBUF, i, byte)` (R62); a write to `OBUF` is ignored (R60). -/
def State.hostBufWrite (s : State) (b : Buf) (i : Nat) (v : Byte) : State :=
  match b with
  | .ibuf => { s with ibuf := s.ibuf.write i v }
  | .obuf => s

end Sys2Proof.Machine
end

