-- ==== Sys2Proof/Machine/Operands.lean ====
section
/-! DEFINITION. The operands of the commands and the checks before them, in the order of R294: the VALID flag of the unit a
command needs, the input length, the input bytes. -/

namespace Sys2Proof.Machine

/-- The field in the tables, if there is one (R38, R120). -/
def State.field (s : State) : Option Field := s.tables.map fun T => { m := s.gfM.toNat, tables := T }

/-- The command needs the GF unit (R28, R294). -/
def withField (s : State) (k : Field → Effect) : Effect :=
  match s.field with
  | none => .next (s.raise .errNotConfigured)
  | some F => k F

/-- The command needs the RS unit: its generator and the field (R28, R94, R294). -/
def withRs (s : State) (k : Field → List Nat → Effect) : Effect :=
  match s.rsGen, s.field with
  | none, _ => .next (s.raise .errNotConfigured)
  | some _, none => .fault .absentTable
  | some g, some F => k F g

/-- The command needs the BCH unit: its generator, `BCH_P` and the field (R28, R94, R294). -/
def withBch (s : State) (k : Field → Nat → Nat → Effect) : Effect :=
  match s.bchGen, s.bchP, s.field with
  | none, _, _ => .next (s.raise .errNotConfigured)
  | some g, some p, some F => k F g p.toNat
  | some _, _, _ => .fault .absentTable

/-- The input `MemRead(IBUF, 0, ILEN)` of an `ENC` or `DEC` command (R23); with an unwritten byte in it there is no result
(R73; log 2). -/
def withInput (s : State) (k : List Byte → Effect) : Effect :=
  match s.ibuf.readRange 0 s.ilen.toNat with
  | none => .fault .unwrittenInput
  | some D => k D

/-- Every byte is a field element (R191). -/
def allSymbols (F : Field) (D : List Byte) : Bool := D.all fun b => decide (b.toNat < F.size)

end Sys2Proof.Machine
end

