-- ==== Sys2Proof/Machine/Bch.lean ====
section
/-! DEFINITION. The BCH unit (R240 to R249). -/

namespace Sys2Proof.Machine

/-- The walk `z <- 2z mod Q` until an exponent repeats, at most `k` steps (R241, R242, R340). -/
def cosetWalk (Q : Nat) : Nat → Nat → List Nat → List Nat
  | 0, _, acc => acc
  | k + 1, z, acc => if acc.contains z then acc else cosetWalk Q k (2 * z % Q) (acc ++ [z])

/-- The cyclotomic coset of an exponent (R241). -/
def coset (F : Field) (i : Nat) : List Nat := cosetWalk F.order F.order i []

/-- The integer whose bits, most significant first, are the given coefficients (R242). -/
def bitsNumber (l : List Nat) : Nat := l.foldl (fun acc c => 2 * acc + c) 0

/-- The minimal polynomial of `alpha^i` from its coset, as an integer (R241, R242). -/
def minimalPoly (F : Field) (cs : List Nat) : Nat := bitsNumber (F.polyOfRoots (cs.map F.alpha))

/-- One exponent of the generator's loop: skipped when it is a conjugate of an earlier root (R242). -/
def bchGenStep (F : Field) (st : List Nat × Nat) (i : Nat) : List Nat × Nat :=
  if st.1.contains i then st
  else (st.1 ++ coset F i, clmul st.2 (minimalPoly F (coset F i)))

/-- `bch_gen(t)` (R242). -/
def bchGenerator (F : Field) (t : Nat) : Nat :=
  ((List.range' Config.bchFcr (2 * t)).foldl (bchGenStep F) ([], 1)).2

/-- The degree of a GF(2) polynomial written as an integer (R243). -/
def intDegree (g : Nat) : Nat := g.log2

/-- `BCH.CFG` (R243); a failure leaves `BCH_P` unspecified (R35, R297). -/
def execBchCfg (s : State) : Effect :=
  match s.field with
  | none => .next (s.clearBch.forgetBchP.raise .errNotConfigured)
  | some F =>
    if s.bchT.toNat < 1 ∨ F.order - 1 < 2 * s.bchT.toNat then .next (s.clearBch.forgetBchP.raise .errConfig)
    else
      let g := bchGenerator F s.bchT.toNat
      if F.order < intDegree g + 8 then .next (s.clearBch.forgetBchP.raise .errConfig)
      else .next { s.clearBch with bchGen := some g, bchP := some (BitVec.ofNat 32 (intDegree g)) }.complete

/-- The parity register after the payload bits: the remainder of `D(x) * x^p` by `g` (R246). -/
def bchRemainder (g p : Nat) (D : List Byte) : Nat := divide p (g % 2 ^ p) 0 (bitStream D)

/-- The codeword bytes: payload, then the parity left-aligned in `ceil(p/8)` bytes with pad bits 0 (R245 to R247). -/
def bchCodeword (g p : Nat) (D : List Byte) : List Byte :=
  D ++ bytesMsbFirst (bytesFor p) (bchRemainder g p D <<< (8 * bytesFor p - p))

/-- `BCH.ENC` (R246). -/
def execBchEnc (s : State) : Effect :=
  withBch s fun F g p =>
    if s.ilen.toNat = 0 then .next (s.raise .errEmpty)
    else if F.order < 8 * s.ilen.toNat + p then .next (s.raise .errLength)
    else withInput s fun D => .next (s.setOutput (bchCodeword g p D)).complete

/-- The code bits of a received word: its first `N` stream bits (R244, R245). -/
def codeBits (D : List Byte) (N : Nat) : List Bool := (bitStream D).take N

/-- `S[j] = c(alpha^(j+1))` over the code bits (R248). -/
def bchSyndrome (F : Field) (bits : List Bool) (j : Nat) : Nat :=
  xorSum (bits.zipIdx.map fun bi => if bi.1 then F.alpha ((j + 1) * (bits.length - 1 - bi.2)) else 0)

/-- `bch_syndromes(D, N)` (R248). -/
def bchSyndromes (F : Field) (t : Nat) (bits : List Bool) : List Nat :=
  (List.range (2 * t)).map (bchSyndrome F bits)

/-- The decode of a received word with `k` payload bytes (R249); pad bits are not read (R247). -/
def bchDecode (F : Field) (t p k : Nat) (D : List Byte) : Except Code Decoded :=
  let N := 8 * k + p
  let S := bchSyndromes F t (codeBits D N)
  if S.all (fun v => decide (v = 0)) then .ok (.clean (D.take k))
  else match locateErrors F S (2 * t) t N with
    | .error e => .error e
    | .ok .failed => .ok .uncorrectable
    | .ok (.found _ _ pos) => .ok (.corrected ((pos.foldl flipBit D).take k))

/-- `BCH.DEC` (R249). A division by zero inside the decoder would raise `ERR_DIV0` (R126; R249 says it cannot; log 9). -/
def execBchDec (s : State) : Effect :=
  withBch s fun F _ p =>
    if s.ilen.toNat = 0 then .next (s.raise .errEmpty)
    else if s.ilen.toNat ≤ bytesFor p then .next (s.raise .errLength)
    else if F.order < 8 * (s.ilen.toNat - bytesFor p) + p then .next (s.raise .errLength)
    else withInput s fun D =>
      match bchDecode F s.bchT.toNat p (s.ilen.toNat - bytesFor p) D with
      | .error c => .next (s.raise c)
      | .ok o => .next (s.reportDecode o)

end Sys2Proof.Machine
end

