-- ==== Sys2Proof/Machine/Crc.lean ====
section
/-! DEFINITION. The CRC unit (R160 to R164). -/

namespace Sys2Proof.Machine

/-- `crc_rem(D)` under a configuration (R162). -/
def crcRem (n poly init xorout : Nat) (D : List Byte) : Nat := divide n poly init (bitStream D) ^^^ xorout

/-- `crc_rem(D)` under the configuration registers (R162). -/
def State.crcRem (s : State) (D : List Byte) : Nat :=
  Sys2Proof.Machine.crcRem s.crcWidth.toNat s.crcPoly.toNat s.crcInit.toNat s.crcXorout.toNat D

/-- The configuration registers pass the four checks of `CRC.CFG` (R33, R161). -/
def State.crcConfigLegal (s : State) : Bool :=
  decide (1 ≤ s.crcWidth.toNat) && decide (s.crcWidth.toNat ≤ Config.crcWmax)
    && decide (s.crcPoly.toNat < 2 ^ s.crcWidth.toNat)
    && decide (s.crcInit.toNat < 2 ^ s.crcWidth.toNat)
    && decide (s.crcXorout.toNat < 2 ^ s.crcWidth.toNat)

/-- `CRC.CFG` (R161). -/
def execCrcCfg (s : State) : Effect :=
  if s.crcConfigLegal then .next { s.clearCrc with crcValid := true }.complete
  else .next (s.clearCrc.raise .errConfig)

/-- The checks of `CRC.ENC` and `CRC.DEC` and their input (R163, R164). -/
def withCrcInput (s : State) (k : List Byte → Effect) : Effect :=
  if s.crcValid = false then .next (s.raise .errNotConfigured)
  else if s.ilen.toNat = 0 then .next (s.raise .errEmpty)
  else if Config.bufBytes < s.ilen.toNat then .next (s.raise .errLength)
  else withInput s k

/-- `CRC.ENC` (R163). -/
def execCrcEnc (s : State) : Effect :=
  withCrcInput s fun D => .next (s.setRes (s.crcRem D)).complete

/-- `CRC.DEC` (R164): all 32 bits of `OPA` are compared. -/
def execCrcDec (s : State) : Effect :=
  withCrcInput s fun D =>
    .next ((s.setRes (s.crcRem D)).completeWith (Result.ofMatch (decide (BitVec.ofNat 32 (s.crcRem D) = s.opa))))

end Sys2Proof.Machine
end

