-- ==== Sys2Proof/Machine/Gf.lean ====
section
/-! DEFINITION. The commands of the GF unit (R122, R130 to R134). -/

namespace Sys2Proof.Machine

/-- `GF.BUILD` (R122). -/
def execGfBuild (s : State) : Effect :=
  match buildTables s.gfM.toNat s.gfPoly.toNat with
  | .error c => .next (s.clearField.raise c)
  | .ok T => .next { s.clearField with tables := some T }.complete

/-- `GF.MUL` (R130). -/
def execGfMul (s : State) : Effect :=
  withField s fun F =>
    if F.size ≤ s.opa.toNat ∨ F.size ≤ s.opb.toNat then .next (s.raise .errOperand)
    else .next (s.setRes (F.mul s.opa.toNat s.opb.toNat)).complete

/-- `GF.INV` (R131). -/
def execGfInv (s : State) : Effect :=
  withField s fun F =>
    if F.size ≤ s.opa.toNat then .next (s.raise .errOperand)
    else match F.inv s.opa.toNat with
      | .error c => .next (s.raise c)
      | .ok v => .next (s.setRes v).complete

/-- `GF.POW` (R132): `OPB` is the exponent, any unsigned 32-bit integer. -/
def execGfPow (s : State) : Effect :=
  withField s fun F =>
    if F.size ≤ s.opa.toNat then .next (s.raise .errOperand)
    else .next (s.setRes (F.pow s.opa.toNat s.opb.toNat)).complete

/-- `GF.LOG` (R133). -/
def execGfLog (s : State) : Effect :=
  withField s fun F =>
    if F.size ≤ s.opa.toNat then .next (s.raise .errOperand)
    else if s.opa.toNat = 0 then .next (s.raise .errDiv0)
    else .next (s.setRes (F.logOf s.opa.toNat)).complete

/-- `GF.ALOG` (R134): the index is not reduced. -/
def execGfAlog (s : State) : Effect :=
  withField s fun F =>
    if F.size ≤ s.opa.toNat then .next (s.raise .errOperand)
    else .next (s.setRes (F.alogOf s.opa.toNat)).complete

end Sys2Proof.Machine
end

