-- ==== Sys2Proof/Machine/Rs.lean ====
section
/-! DEFINITION. The RS unit (R190 to R204). -/

namespace Sys2Proof.Machine

/-- `rs_gen(r)` (R192): coefficients from the highest power down. -/
def rsGenerator (F : Field) (r : Nat) : List Nat :=
  F.polyOfRoots ((List.range r).map fun j => F.alpha (Config.rsFcr + j))

/-- `RS.CFG` (R193). -/
def execRsCfg (s : State) : Effect :=
  withField s.clearRs fun F =>
    if Config.rsMMax < F.m then .next (s.clearRs.raise .errConfig)
    else if s.rsR.toNat < 1 ∨ F.order - 1 < s.rsR.toNat then .next (s.clearRs.raise .errConfig)
    else .next { s.clearRs with rsGen := some (rsGenerator F s.rsR.toNat) }.complete

/-- One symbol of the parity division (R195). -/
def rsParityStep (F : Field) (g : List Nat) (par : List Nat) (u : Nat) : List Nat :=
  let fb := u ^^^ par.headD 0
  List.zipWith (fun a b => a ^^^ b) (par.tail ++ [0]) (g.tail.map fun c => F.mul fb c)

/-- The parity symbols of a payload (R194, R195). -/
def rsParity (F : Field) (g : List Nat) (r : Nat) (u : List Nat) : List Nat :=
  u.foldl (rsParityStep F g) (List.replicate r 0)

/-- The symbols of a byte sequence: a byte's value is the element (R67). -/
def symbols (D : List Byte) : List Nat := D.map BitVec.toNat

/-- The byte of a symbol (R67, R191). -/
def symbolByte (v : Nat) : Byte := BitVec.ofNat 8 v

/-- The codeword of a payload: payload bytes, then parity (R66, R195). -/
def rsCodeword (F : Field) (g : List Nat) (r : Nat) (D : List Byte) : List Byte :=
  D ++ (rsParity F g r (symbols D)).map symbolByte

/-- `RS.ENC` (R195). -/
def execRsEnc (s : State) : Effect :=
  withRs s fun F g =>
    if s.ilen.toNat = 0 then .next (s.raise .errEmpty)
    else if F.order < s.ilen.toNat + s.rsR.toNat then .next (s.raise .errLength)
    else withInput s fun D =>
      if allSymbols F D then .next (s.setOutput (rsCodeword F g s.rsR.toNat D)).complete
      else .next (s.raise .errOperand)

/-- One syndrome by Horner's rule: the word's polynomial at `a` (R197). -/
def rsHorner (F : Field) (a : Nat) (c : List Nat) : Nat := c.foldl (fun acc ci => F.mul acc a ^^^ ci) 0

/-- `rs_syndromes(c)` (R197). -/
def rsSyndromes (F : Field) (r : Nat) (c : List Nat) : List Nat :=
  (List.range r).map fun j => rsHorner F (F.alpha (Config.rsFcr + j)) c

/-- The evaluator coefficient `Om[s]` (R203). -/
def rsEvaluator (F : Field) (S lam : List Nat) (d s : Nat) : Nat :=
  xorSum ((List.range (s + 1)).map fun a => if s - a ≤ d then F.mul (S.getD a 0) (lam.getD (s - a) 0) else 0)

/-- The formal derivative of the locator, `Dl[0..d-1]` (R203). -/
def locatorDerivative (lam : List Nat) (d : Nat) : List Nat :=
  (List.range d).map fun i => if i % 2 = 0 then lam.getD (i + 1) 0 else 0

/-- `rs_magnitude(S, Lam, d, X)` (R203). -/
def rsMagnitude (F : Field) (r : Nat) (S lam : List Nat) (d X : Nat) : Except Code Nat :=
  match F.inv X with
  | .error c => .error c
  | .ok xi =>
    let num := F.polyEval ((List.range r).map (rsEvaluator F S lam d)) (r - 1) xi
    let den := F.polyEval (locatorDerivative lam d) (d - 1) xi
    match F.div num den with
    | .error c => .error c
    | .ok q => .ok (F.mul (F.pow X ((1 + F.order - Config.rsFcr % F.order) % F.order)) q)

/-- Steps 4 and 5: the word with each error position corrected by its magnitude (R203, R204). -/
def rsCorrect (F : Field) (r n : Nat) (S lam : List Nat) (d : Nat) : List Nat → List Nat → Except Code (List Nat)
  | [], e => .ok e
  | i :: is, e =>
    match rsMagnitude F r S lam d (F.locator n i) with
    | .error c => .error c
    | .ok y => rsCorrect F r n S lam d is (e.modify i fun v => v ^^^ y)

/-- The decode of a received word of `n` symbols, steps 1 to 5 (R197 to R204). -/
def rsDecode (F : Field) (r : Nat) (c : List Nat) : Except Code Decoded :=
  let n := c.length
  let S := rsSyndromes F r c
  if S.all (fun v => decide (v = 0)) then .ok (.clean ((c.take (n - r)).map symbolByte))
  else match locateErrors F S r (r / 2) n with
    | .error e => .error e
    | .ok .failed => .ok .uncorrectable
    | .ok (.found lam d pos) =>
      match rsCorrect F r n S lam d pos c with
      | .error e => .error e
      | .ok e => .ok (.corrected ((e.take (n - r)).map symbolByte))

/-- `RS.DEC` (R198). A division by zero inside the decoder would raise `ERR_DIV0` (R126; R207 says it cannot; log 9). -/
def execRsDec (s : State) : Effect :=
  withRs s fun F _ =>
    if s.ilen.toNat = 0 then .next (s.raise .errEmpty)
    else if s.ilen.toNat ≤ s.rsR.toNat ∨ F.order < s.ilen.toNat then .next (s.raise .errLength)
    else withInput s fun D =>
      if allSymbols F D then
        match rsDecode F s.rsR.toNat (symbols D) with
        | .error c => .next (s.raise c)
        | .ok o => .next (s.reportDecode o)
      else .next (s.raise .errOperand)

end Sys2Proof.Machine
end

