-- ==== Sys2Proof/Machine/Dispatch.lean ====
section
/-! DEFINITION. One arm per command (R92), each one call of its meaning. -/

namespace Sys2Proof.Machine

def exec (i : Instr) (s : State) : Host.Outcome State Fault Refusal :=
  match i with
  | .gfBuild => Sys2Proof.Machine.execGfBuild s
  | .gfMul => Sys2Proof.Machine.execGfMul s
  | .gfInv => Sys2Proof.Machine.execGfInv s
  | .gfPow => Sys2Proof.Machine.execGfPow s
  | .gfLog => Sys2Proof.Machine.execGfLog s
  | .gfAlog => Sys2Proof.Machine.execGfAlog s
  | .crcCfg => Sys2Proof.Machine.execCrcCfg s
  | .crcEnc => Sys2Proof.Machine.execCrcEnc s
  | .crcDec => Sys2Proof.Machine.execCrcDec s
  | .rsCfg => Sys2Proof.Machine.execRsCfg s
  | .rsEnc => Sys2Proof.Machine.execRsEnc s
  | .rsDec => Sys2Proof.Machine.execRsDec s
  | .bchCfg => Sys2Proof.Machine.execBchCfg s
  | .bchEnc => Sys2Proof.Machine.execBchEnc s
  | .bchDec => Sys2Proof.Machine.execBchDec s

end Sys2Proof.Machine
end

