-- ==== Sys2Proof/Machine/Command.lean ====
section
/-! DEFINITION. What one host access does: a register or buffer access (R62), or the execution of the command word written
to `CMD` (R25). -/

namespace Sys2Proof.Machine

/-- A write of a command word to `CMD` (R25); an illegal word completes with `ERR_ILLEGAL_CMD` (R95). -/
def runCommand (w : Word) (s : State) : Effect :=
  match decode w with
  | .ok i => exec i s
  | .error _ => .next (s.raise .errIllegalCmd)

/-- One of the four host access primitives (R62, R64). -/
def runHostStep (a : HostStep) (s : State) : Effect :=
  match a with
  | .regRead off => .next (s.hostRegRead off)
  | .regWrite off v => if off = Reg.cmd.offset then runCommand v s else .next (s.hostRegWrite off v)
  | .bufRead b i => .next (s.hostBufRead b i)
  | .bufWrite b i v => .next (s.hostBufWrite b i v)

/-- One access at the port: a primitive, or refused by name (R63). -/
def runAccess (a : PortAccess) (s : State) : Effect :=
  match a.problem with
  | some why => .refused (.undefinedAccess why)
  | none => runHostStep a.hostStep s

/-- The host makes its next access; with none left nothing happens: the block never acts on its own (R20). -/
def runNext (s : State) : Effect :=
  match s.pending with
  | [] => .next s
  | a :: rest => runAccess a { s with pending := rest }

end Sys2Proof.Machine
end

