-- ==== Sys2Proof/Machine/Step.lean ====
section
/-! DEFINITION. The step: the host's next access, and the command it executes if it is a write to `CMD` (R20, R70). -/

namespace Sys2Proof.Machine

/-- One step of the host and the block together (R70). -/
def step (s : State) : Host.Outcome State Fault Refusal := runNext s

/-- The host's next access writes the command word `w` to `CMD` (R24, R25; log 6). A command word has 32 bits (log 13). -/
def State.withFetchWord (s : State) (_nbits w : Nat) : State :=
  { s with pending := PortAccess.command (BitVec.ofNat 32 w) :: s.pending }

end Sys2Proof.Machine
end

