-- ==== Sys2Proof/Machine/Script.lean ====
section
/-! DEFINITION. Host scripts: the lines of R100, the access each one is, and the expansions of the pseudo-lines of R101. -/

namespace Sys2Proof.Machine

/-- A line of a host script (R100). -/
inductive ScriptLine where
  | wr (r : Reg) (v : Word)
  | rd (r : Reg)
  | wb (i : Nat) (b : Byte)
  | rb (i : Nat)
  | cmd (c : Instr)
  deriving DecidableEq, Repr

/-- The access a line is (R100, the column "encoding"). -/
def ScriptLine.access : ScriptLine → PortAccess
  | .wr r v => .regWrite r.offset v
  | .rd r => .regRead r.offset
  | .wb i b => .ibufWrite i b
  | .rb i => .obufRead i
  | .cmd c => .command (encode c)

/-- `WB i, b0` and so on from an index (R101). -/
def writeBytesFrom : Nat → List Byte → List ScriptLine
  | _, [] => []
  | i, b :: bs => .wb i b :: writeBytesFrom (i + 1) bs

/-- `LOAD b0 b1 ...` (R101). -/
def scriptLoad (bs : List Byte) : List ScriptLine :=
  writeBytesFrom 0 bs ++ [.wr .ilen (BitVec.ofNat 32 bs.length)]

/-- `RB i` giving `v`, then `WB i, v`, from an index (R101). -/
def copyBytesFrom : Nat → List Byte → List ScriptLine
  | _, [] => []
  | i, v :: vs => .rb i :: .wb i v :: copyBytesFrom (i + 1) vs

/-- `COPYBACK` (R101) where the host reads `OLEN` and then the bytes `out` from `OBUF`. -/
def scriptCopyback (out : List Byte) : List ScriptLine :=
  .rd .olen :: copyBytesFrom 0 out ++ [.wr .ilen (BitVec.ofNat 32 out.length)]

/-- `FLIP i, mask` (R101) where the host knows the byte `v` it wrote to `IBUF[i]`. -/
def scriptFlip (i : Nat) (v mask : Byte) : List ScriptLine := [.wb i (v ^^^ mask)]

/-- `EXPECT reg` (R101): the block cannot tell it from `RD`. -/
def scriptExpect (r : Reg) : List ScriptLine := [.rd r]

/-- A state in which the host has the lines of a script still to run (R100). -/
def State.withScript (s : State) (l : List ScriptLine) : State := { s with pending := l.map ScriptLine.access }

end Sys2Proof.Machine
end

