-- ==== Sys2Proof/Safety.lean ====
section
/-! DEFINITION. The terms claims are stated in: the invariant of the machine, what a safe run is, when an input is complete,
and the algebra of the codes written without the tables. -/

namespace Sys2Proof.Machine

/-- The next state of an effect, if it has one. -/
def nextState : Effect → Option State
  | .next s => some s
  | .fault _ => none
  | .refused _ => none

/-- The outputs of the last codec command: `OBUF` holds `OLEN` bytes from index 0 and nothing else, and they fit it (R23, R65, R72). -/
def State.outputHeld (s : State) : Prop :=
  ∃ out : List Byte, s.obuf = Memory.ofBytes out ∧ s.olen = BitVec.ofNat 32 out.length ∧ out.length ≤ Config.bufBytes

/-- `RESULT` is one of the words R29 to R31 allow. -/
def Result.legal (r : Result) : Prop :=
  r = Result.zero ∨ r = Result.ofMatch true ∨ r = Result.clean ∨ r = Result.repaired ∨ r = Result.gaveUp

/-- The invariant: derived tables match the configuration registers (R28), the buffers keep their form and size (R65, R72),
and `RESULT` describes the latest command (R29, R31). -/
structure State.Inv (s : State) : Prop where
  /-- the tables hold the field of `GF_M` and `GF_POLY` (R26, R28) -/
  tablesBuilt : ∀ T, s.tables = some T → buildTables s.gfM.toNat s.gfPoly.toNat = .ok T
  /-- a valid CRC configuration is legal (R26, R33) -/
  crcLegal : s.crcValid = true → s.crcConfigLegal = true
  /-- `RS_GEN` is the generator of the current field and `RS_R` (R26, R34) -/
  rsBuilt : ∀ g, s.rsGen = some g → ∃ F, s.field = some F ∧ F.m ≤ Config.rsMMax ∧ 1 ≤ s.rsR.toNat ∧
    s.rsR.toNat ≤ F.order - 1 ∧ g = rsGenerator F s.rsR.toNat
  /-- `BCH_GEN` and `BCH_P` are those of the current field and `BCH_T` (R26, R35) -/
  bchBuilt : ∀ g, s.bchGen = some g → ∃ F, s.field = some F ∧ 1 ≤ s.bchT.toNat ∧ 2 * s.bchT.toNat ≤ F.order - 1 ∧
    g = bchGenerator F s.bchT.toNat ∧ intDegree g + 8 ≤ F.order ∧ s.bchP = some (BitVec.ofNat 32 (intDegree g))
  /-- `IBUF` keeps its canonical form -/
  ibufWf : s.ibuf.wf
  /-- `IBUF` has no byte past its end (R41) -/
  ibufInside : ∀ c ∈ s.ibuf, c.1 < Config.bufBytes
  /-- `OBUF` and `OLEN` are the latest output (R23, R72) -/
  output : s.outputHeld
  /-- `RESULT` is legal (R29) -/
  resultLegal : s.result.legal
  /-- a raised code leaves `RESULT` = 0 (R29) -/
  raisedResult : s.code ≠ .ok → s.result = Result.zero
  /-- after `UNCORRECTABLE` there is no output (R72) -/
  gaveUpOutput : s.result.tag = .uncorrectable → s.olen = 0

/-- Every byte of the input range holds a value, as far as the range lies in the buffer (R73, R337). -/
def State.inputWritten (s : State) : Prop :=
  s.ilen.toNat ≤ Config.bufBytes → ∀ j < s.ilen.toNat, (s.ibuf.read j).isSome = true

/-- A step is safe: it does not end in a fault. -/
def State.safeStep (s : State) : Prop := ∀ f, step s ≠ .fault f

/-- The six commands that read `IBUF` (R94). -/
def readsInput : Instr → Bool
  | .crcEnc | .crcDec | .rsEnc | .rsDec | .bchEnc | .bchDec => true
  | .gfBuild | .gfMul | .gfInv | .gfPow | .gfLog | .gfAlog | .crcCfg | .rsCfg | .bchCfg => false

/-- The four commands that write `OBUF` and `OLEN` (R23, R41). -/
def writesOutput : Instr → Bool
  | .rsEnc | .rsDec | .bchEnc | .bchDec => true
  | .gfBuild | .gfMul | .gfInv | .gfPow | .gfLog | .gfAlog | .crcCfg | .crcEnc | .crcDec | .rsCfg | .bchCfg => false

/-- The seven commands that write `RES` (R22). -/
def writesRes : Instr → Bool
  | .gfMul | .gfInv | .gfPow | .gfLog | .gfAlog | .crcEnc | .crcDec => true
  | .gfBuild | .crcCfg | .rsCfg | .rsEnc | .rsDec | .bchCfg | .bchEnc | .bchDec => false

/-- `x^i` modulo `P`, by repeated `xtime` from 1 (R121, R123). -/
def alphaPower (m P i : Nat) : Nat := (xtime m P)^[i] 1

/-- The carry-less product of two elements reduced modulo `P`, without the tables (R135). -/
def polyMulMod (m P a b : Nat) : Nat :=
  xorSum ((List.range m).map fun i => if b.testBit i then (xtime m P)^[i] a else 0)

/-- All `r` syndromes of a word are zero: the word is in `Code(n)` (R206). -/
def rsCodeMember (F : Field) (r : Nat) (c : List Nat) : Prop := ∀ v ∈ rsSyndromes F r c, v = 0

/-- The number of positions at which two words of one length differ (R205, R206, R250, R251). -/
def distance {α : Type} [DecidableEq α] (a b : List α) : Nat :=
  ((List.range a.length).filter fun i => decide (a[i]? ≠ b[i]?)).length

/-- A byte word is in `Code(n)`: its bytes are symbols and its `r` syndromes are zero (R206). -/
def rsCode (F : Field) (r : Nat) (w : List Byte) : Prop := (∀ b ∈ w, b.toNat < F.size) ∧ rsCodeMember F r (symbols w)

/-- A word of bits is in `BCode(N)`: read with bit 0 as its highest power, it is a multiple of `g` (R244). -/
def bchCode (g : Nat) (w : List Bool) : Prop := ∃ q : Nat, bitsNumber (w.map Bool.toNat) = clmul q g

/-- The number whose binary digits are a byte sequence's bit stream, first bit highest: the polynomial of R169 as an integer. -/
def streamNumber (D : List Byte) : Nat := bitsNumber ((bitStream D).map Bool.toNat)

/-- The GF(2) polynomial `g` divides `a`, both written as integers (R166). -/
def polyDivides (g a : Nat) : Prop := ∃ q : Nat, a = clmul q g

end Sys2Proof.Machine
end

