-- ==== Sys2Proof/Certificates/Slice0/Obligations.lean ====
section
/-! DEFINITION. The statements for the provers, each from the numbered rules of spec/. -/

open Sys2Proof Sys2Proof.Machine

/-! ## Command words -/

/-- R92: the fifteen command words, written out from the table, are the complete command set. -/
def Obligations.CommandWordsDecodeAsTabulated : Prop :=
  decode 0x00000001 = .ok .gfBuild ∧ decode 0x00000002 = .ok .gfMul ∧ decode 0x00000003 = .ok .gfInv ∧
  decode 0x00000004 = .ok .gfPow ∧ decode 0x00000005 = .ok .gfLog ∧ decode 0x00000006 = .ok .gfAlog ∧
  decode 0x00000010 = .ok .crcCfg ∧ decode 0x00000011 = .ok .crcEnc ∧ decode 0x00000012 = .ok .crcDec ∧
  decode 0x00000020 = .ok .rsCfg ∧ decode 0x00000021 = .ok .rsEnc ∧ decode 0x00000022 = .ok .rsDec ∧
  decode 0x00000030 = .ok .bchCfg ∧ decode 0x00000031 = .ok .bchEnc ∧ decode 0x00000032 = .ok .bchDec ∧
  ∀ (w : Word) (i : Instr), decode w = .ok i →
    w = 0x01 ∨ w = 0x02 ∨ w = 0x03 ∨ w = 0x04 ∨ w = 0x05 ∨ w = 0x06 ∨ w = 0x10 ∨ w = 0x11 ∨ w = 0x12 ∨
    w = 0x20 ∨ w = 0x21 ∨ w = 0x22 ∨ w = 0x30 ∨ w = 0x31 ∨ w = 0x32

/-- R90, R92: the decoder and the encoder agree in both directions: no word but its own decodes to a command. -/
def Obligations.DecodeAndEncodeAgree : Prop :=
  (∀ i : Instr, decode (encode i) = .ok i) ∧ (∀ (w : Word) (i : Instr), decode w = .ok i → w = encode i)

/-- R95: which words are illegal, and what writing one to `CMD` does. -/
def Obligations.IllegalWordsAndTheirCompletion : Prop :=
  (∀ w : Word, (∃ e, decode w = .error e) ↔
    (w.toNat / 256 ≠ 0 ∨ 4 ≤ w.toNat / 16 % 16 ∨
      (w.toNat / 16 % 16 = 0 ∧ (w.toNat % 16 = 0 ∨ 7 ≤ w.toNat % 16)) ∨
      (1 ≤ w.toNat / 16 % 16 ∧ w.toNat / 16 % 16 ≤ 3 ∧ 3 ≤ w.toNat % 16))) ∧
  (∀ (s : State) (w : Word) (rest : List PortAccess) (e : DecodeReject),
    s.pending = PortAccess.command w :: rest → decode w = .error e →
    step s = .next { s with pending := rest, code := .errIllegalCmd, result := Result.zero })

/-! ## The step -/

/-- R25: a write of a command word to `CMD` executes the command it encodes; `withFetchWord` places such a write. -/
def Obligations.StepRunsTheDecodedCommand : Prop :=
  ∀ (s : State) (w : Word) (i : Instr), decode w = .ok i →
    (∀ rest, s.pending = PortAccess.command w :: rest → step s = exec i { s with pending := rest }) ∧
    (∀ n, step (s.withFetchWord n w.toNat) = exec i s)

/-- R20, R60, R62: with no access pending nothing happens, each other access primitive is one step, and a byte write to
`OBUF`, whatever its data, is a step that changes nothing (R60 over R62: log 12). The list of accesses is the model's: log 6. -/
def Obligations.StepMakesTheNextHostAccess : Prop :=
  ∀ (s : State) (rest : List PortAccess),
    (s.pending = [] → step s = .next s) ∧
    (∀ off v, off < 0x2000 → off % 4 = 0 → off ≠ 0 → s.pending = PortAccess.regWrite off v :: rest →
      step s = .next (State.hostRegWrite { s with pending := rest } off v)) ∧
    (∀ off, off < 0x2000 → off % 4 = 0 → s.pending = PortAccess.regRead off :: rest →
      step s = .next (State.hostRegRead { s with pending := rest } off)) ∧
    (∀ i b, i < 8192 → s.pending = PortAccess.ibufWrite i b :: rest →
      step s = .next { s with pending := rest, ibuf := s.ibuf.write i b }) ∧
    (∀ i, i < 8192 → s.pending = PortAccess.ibufRead i :: rest →
      step s = .next (State.returnByte { s with pending := rest } (s.ibuf.read i))) ∧
    (∀ i v, i < 8192 → s.pending = { isWrite := true, width := 8, offset := 0x4000 + i, data := v } :: rest →
      step s = .next { s with pending := rest }) ∧
    (∀ i, i < 8192 → s.pending = PortAccess.obufRead i :: rest →
      step s = .next (State.returnByte { s with pending := rest } (s.obuf.read i)))

/-- R60, R62, R63, U8: exactly the accesses that are none of the four primitives are refused, except a byte write to `OBUF`,
which is not: R60 says it is ignored and R62 does not name it. That exception (log 12) and the refusal of an access that
reaches the port, by name (log 8), are the model's reading of the spec. -/
def Obligations.UndefinedAccessesAreRefused : Prop :=
  ∀ (s : State) (a : PortAccess) (rest : List PortAccess), s.pending = a :: rest →
    ((∃ why, step s = .refused (.undefinedAccess why)) ↔
      (0x6000 ≤ a.offset ∨ (a.offset < 0x2000 ∧ (a.width ≠ 32 ∨ a.offset % 4 ≠ 0)) ∨
        (0x2000 ≤ a.offset ∧ a.width ≠ 8)))

/-! ## Host accesses -/

/-- R36: the flags a configuration write clears, whatever the value; nothing else changes but the register written. -/
def Obligations.ConfigurationWritesClearFlags : Prop :=
  ∀ (s : State) (v : Word),
    (∀ r, (r = Reg.gfM ∨ r = Reg.gfPoly) →
      (s.hostRegWrite r.offset v).gfValid = false ∧ (s.hostRegWrite r.offset v).crcValid = s.crcValid ∧
      (s.hostRegWrite r.offset v).rsValid = false ∧ (s.hostRegWrite r.offset v).bchValid = false) ∧
    (∀ r, (r = Reg.crcWidth ∨ r = Reg.crcPoly ∨ r = Reg.crcInit ∨ r = Reg.crcXorout) →
      (s.hostRegWrite r.offset v).gfValid = s.gfValid ∧ (s.hostRegWrite r.offset v).crcValid = false ∧
      (s.hostRegWrite r.offset v).rsValid = s.rsValid ∧ (s.hostRegWrite r.offset v).bchValid = s.bchValid) ∧
    ((s.hostRegWrite Reg.rsR.offset v).gfValid = s.gfValid ∧ (s.hostRegWrite Reg.rsR.offset v).crcValid = s.crcValid ∧
      (s.hostRegWrite Reg.rsR.offset v).rsValid = false ∧ (s.hostRegWrite Reg.rsR.offset v).bchValid = s.bchValid) ∧
    ((s.hostRegWrite Reg.bchT.offset v).gfValid = s.gfValid ∧ (s.hostRegWrite Reg.bchT.offset v).crcValid = s.crcValid ∧
      (s.hostRegWrite Reg.bchT.offset v).rsValid = s.rsValid ∧ (s.hostRegWrite Reg.bchT.offset v).bchValid = false) ∧
    (∀ r, (r = Reg.opa ∨ r = Reg.opb ∨ r = Reg.ilen) →
      (s.hostRegWrite r.offset v).statusWord = s.statusWord) ∧
    (∀ r, (r = Reg.gfM ∨ r = Reg.gfPoly ∨ r = Reg.crcWidth ∨ r = Reg.crcPoly ∨ r = Reg.crcInit ∨ r = Reg.crcXorout ∨
        r = Reg.rsR ∨ r = Reg.bchT ∨ r = Reg.opa ∨ r = Reg.opb ∨ r = Reg.ilen) →
      (s.hostRegWrite r.offset v).readReg r = some v ∧
      (∀ q, q ≠ r → q ≠ .status → (s.hostRegWrite r.offset v).readReg q = s.readReg q) ∧
      (s.hostRegWrite r.offset v).code = s.code ∧
      (∀ j, (s.hostRegWrite r.offset v).ibuf.read j = s.ibuf.read j) ∧
      (∀ j, (s.hostRegWrite r.offset v).obuf.read j = s.obuf.read j))

/-- R37: read-only registers and reserved offsets ignore a write, and a reserved offset reads as 0. -/
def Obligations.ReadOnlyAndReservedIgnoreWrites : Prop :=
  ∀ (s : State) (v : Word),
    (∀ r, (r = Reg.status ∨ r = Reg.result ∨ r = Reg.res ∨ r = Reg.olen ∨ r = Reg.bchP) →
      s.hostRegWrite r.offset v = s) ∧
    (∀ off, 0x44 ≤ off → s.hostRegWrite off v = s ∧ s.hostRegRead off = { s with readData := 0 }) ∧
    (∀ off a rest, off < 0x2000 → off % 4 ≠ 0 → a = PortAccess.regRead off ∨ a = PortAccess.regWrite off v →
      s.pending = a :: rest → step s = .refused (.undefinedAccess .misalignedRegister))

/-- R64 with R72 and U13: a host read changes nothing but the data it returns; a register or byte that holds a value returns
it; one that holds none returns the next free value (log 1, log 3: the model's choice among those the spec allows). -/
def Obligations.HostReadsReturnWhatIsHeld : Prop :=
  ∀ (s : State),
    (∀ r v, s.readReg r = some v → s.hostRegRead r.offset = { s with readData := v }) ∧
    (∀ r, s.readReg r = none → r = .bchP ∧
      s.hostRegRead r.offset = { s with readData := Config.freeWord s.draws, draws := s.draws + 1 }) ∧
    (∀ b i v, (s.buffer b).read i = some v → s.hostBufRead b i = { s with readData := v.setWidth 32 }) ∧
    (∀ b i, (s.buffer b).read i = none →
      s.hostBufRead b i = { s with readData := (Config.freeByte s.draws).setWidth 32, draws := s.draws + 1 })

/-- R41, R60: a byte written to `IBUF` reads back, every other byte of both buffers is unchanged, and a write to `OBUF` is ignored. -/
def Obligations.BufferWritesReachOneByte : Prop :=
  ∀ (s : State) (i : Nat) (v : Byte),
    (∀ j, (s.hostBufWrite .ibuf i v).ibuf.read j = if j = i then some v else s.ibuf.read j) ∧
    (∀ j, (s.hostBufWrite .ibuf i v).obuf.read j = s.obuf.read j) ∧
    (∀ r, (s.hostBufWrite .ibuf i v).readReg r = s.readReg r) ∧
    s.hostBufWrite .obuf i v = s

/-- R25, R26, R27, R29, R291: the fields of `STATUS` and `RESULT` as the host reads them, with the nine code numbers and the
three tag numbers; `CMD` reads as 0. -/
def Obligations.StatusAndResultReadAsTheirFields : Prop :=
  ∀ (s : State), s.readReg .cmd = some 0 ∧
    (∃ w, s.readReg .status = some w ∧ w.extractLsb' 4 4 = 0 ∧
      (w.extractLsb' 0 4).toNat =
        (match s.code with
        | .ok => 0 | .errConfig => 1 | .errInvalidPoly => 2 | .errEmpty => 3 | .errDiv0 => 4 | .errNotConfigured => 5
        | .errLength => 6 | .errOperand => 7 | .errIllegalCmd => 8) ∧
      w.getLsbD 8 = s.gfValid ∧ w.getLsbD 9 = s.crcValid ∧ w.getLsbD 10 = s.rsValid ∧ w.getLsbD 11 = s.bchValid ∧
      w.extractLsb' 12 20 = 0 ∧ (w.extractLsb' 0 4).toNat ≤ 8) ∧
    (∃ v, s.readReg .result = some v ∧
      (v.extractLsb' 0 2).toNat = (if s.result.tag = .none then 0 else if s.result.tag = .corrected then 1 else 2) ∧
      v.getLsbD 2 = s.result.matched ∧ v.getLsbD 3 = s.result.noerr ∧ v.extractLsb' 4 28 = 0)

/-! ## Reset -/

/-- R44: what reset leaves. -/
def Obligations.ResetLeavesTheStatedValues : Prop :=
  (∀ r, State.reset.readReg r = some 0) ∧ State.reset.statusWord = 0 ∧ State.reset.code = .ok ∧
  State.reset.gfValid = false ∧ State.reset.crcValid = false ∧ State.reset.rsValid = false ∧
  State.reset.bchValid = false ∧ State.reset.result = Result.zero ∧
  (∀ i, State.reset.ibuf.read i = none) ∧ (∀ i, State.reset.obuf.read i = none)

/-- R332: every command is defined in the reset state. -/
def Obligations.EveryCommandIsDefinedAtReset : Prop :=
  (∀ i : Instr, ∃ t, exec i State.reset = .next t ∧ t.result = Result.zero ∧
    t.code = if i = .gfBuild ∨ i = .crcCfg then .errConfig else .errNotConfigured) ∧
  (∀ b i, (State.reset.buffer b).read i = none)

/-! ## The GF unit -/

/-- R122, R293: what `GF.BUILD` leaves, by the outcome of the construction; `ERR_CONFIG` for `GF_M` out of range, and then
`ERR_INVALID_POLY` in each of the four places of the pseudocode: the degree test and the three cycle tests. -/
def Obligations.GfBuildOutcome : Prop :=
  ∀ (s : State),
    (∀ T, buildTables s.gfM.toNat s.gfPoly.toNat = .ok T →
      exec .gfBuild s = .next { s with code := .ok, result := Result.zero, tables := some T, rsGen := none, bchGen := none }) ∧
    (∀ c, buildTables s.gfM.toNat s.gfPoly.toNat = .error c →
      exec .gfBuild s = .next { s with code := c, result := Result.zero, tables := none, rsGen := none, bchGen := none }) ∧
    (s.gfM.toNat < 2 ∨ 16 < s.gfM.toNat →
      exec .gfBuild s = .next { s with
        code := .errConfig, result := Result.zero, tables := none, rsGen := none, bchGen := none }) ∧
    (2 ≤ s.gfM.toNat → s.gfM.toNat ≤ 16 →
      (s.gfPoly.toNat >>> s.gfM.toNat ≠ 1 ∨
        (∃ i < 2 ^ s.gfM.toNat - 1, alphaPower s.gfM.toNat s.gfPoly.toNat i = 0) ∨
        (∃ i < 2 ^ s.gfM.toNat - 1, 0 < i ∧ alphaPower s.gfM.toNat s.gfPoly.toNat i = 1) ∨
        alphaPower s.gfM.toNat s.gfPoly.toNat (2 ^ s.gfM.toNat - 1) ≠ 1) →
      exec .gfBuild s = .next { s with
        code := .errInvalidPoly, result := Result.zero, tables := none, rsGen := none, bchGen := none })

/-- R123: `GF.BUILD` accepts exactly the primitive polynomials: the powers of `x` are pairwise distinct, non-zero, and close
their cycle at `Q`. -/
def Obligations.GfBuildAcceptsExactlyPrimitive : Prop :=
  ∀ (s : State),
    (∃ t, exec .gfBuild s = .next t ∧ t.code = .ok) ↔
      (2 ≤ s.gfM.toNat ∧ s.gfM.toNat ≤ 16 ∧ s.gfPoly.toNat >>> s.gfM.toNat = 1 ∧
        (∀ i < 2 ^ s.gfM.toNat - 1, alphaPower s.gfM.toNat s.gfPoly.toNat i ≠ 0) ∧
        (∀ i < 2 ^ s.gfM.toNat - 1, ∀ j < 2 ^ s.gfM.toNat - 1,
          alphaPower s.gfM.toNat s.gfPoly.toNat i = alphaPower s.gfM.toNat s.gfPoly.toNat j → i = j) ∧
        alphaPower s.gfM.toNat s.gfPoly.toNat (2 ^ s.gfM.toNat - 1) = 1)

/-- R124: the table invariants (a) to (f) of every field that is valid, and `LOG[0]` without a value. -/
def Obligations.TablesAreInverseBijections : Prop :=
  ∀ (s : State) (T : Tables), s.Inv → s.tables = some T →
    (∀ e ≤ 2 ^ s.gfM.toNat - 1, ∃ v, T.alog[e]? = some (some v) ∧ 1 ≤ v ∧ v < 2 ^ s.gfM.toNat) ∧
    (T.alog[0]? = some (some 1) ∧ T.alog[1]? = some (some 2) ∧ T.alog[2 ^ s.gfM.toNat - 1]? = some (some 1)) ∧
    (∀ v, 1 ≤ v → v ≤ 2 ^ s.gfM.toNat - 1 → ∃! e, e < 2 ^ s.gfM.toNat - 1 ∧ T.alog[e]? = some (some v)) ∧
    (∀ x, 1 ≤ x → x ≤ 2 ^ s.gfM.toNat - 1 →
      ∃ e, T.log[x]? = some (some e) ∧ e < 2 ^ s.gfM.toNat - 1 ∧ T.alog[e]? = some (some x)) ∧
    (∀ e < 2 ^ s.gfM.toNat - 1, ∃ v, T.alog[e]? = some (some v) ∧ T.log[v]? = some (some e)) ∧
    (∀ e < 2 ^ s.gfM.toNat - 1, ∃ v, T.alog[e]? = some (some v) ∧
      T.alog[e + 1]? = some (some (xtime s.gfM.toNat s.gfPoly.toNat v))) ∧
    T.log[0]? = some none

/-- R125, R130: `GF.MUL`. -/
def Obligations.GfMulResult : Prop :=
  ∀ (s : State),
    (s.gfValid = false → exec .gfMul s = .next { s with code := .errNotConfigured, result := Result.zero }) ∧
    (∀ F, s.field = some F →
      (2 ^ F.m ≤ s.opa.toNat ∨ 2 ^ F.m ≤ s.opb.toNat →
        exec .gfMul s = .next { s with code := .errOperand, result := Result.zero }) ∧
      (s.opa.toNat < 2 ^ F.m → s.opb.toNat < 2 ^ F.m →
        exec .gfMul s = .next { s with
          code := .ok
          result := Result.zero
          res := BitVec.ofNat 32 (if s.opa.toNat = 0 ∨ s.opb.toNat = 0 then 0
            else F.alogOf ((F.logOf s.opa.toNat + F.logOf s.opb.toNat) % (2 ^ F.m - 1))) }))

/-- R126, R131: `GF.INV`. -/
def Obligations.GfInvResult : Prop :=
  ∀ (s : State),
    (s.gfValid = false → exec .gfInv s = .next { s with code := .errNotConfigured, result := Result.zero }) ∧
    (∀ F, s.field = some F →
      (2 ^ F.m ≤ s.opa.toNat → exec .gfInv s = .next { s with code := .errOperand, result := Result.zero }) ∧
      (s.opa.toNat = 0 → exec .gfInv s = .next { s with code := .errDiv0, result := Result.zero }) ∧
      (s.opa.toNat < 2 ^ F.m → s.opa.toNat ≠ 0 →
        exec .gfInv s = .next { s with
          code := .ok
          result := Result.zero
          res := BitVec.ofNat 32 (F.alogOf ((2 ^ F.m - 1 - F.logOf s.opa.toNat) % (2 ^ F.m - 1))) }))

/-- R127, R132: `GF.POW`, the exponent not reduced and the product not truncated. -/
def Obligations.GfPowResult : Prop :=
  ∀ (s : State),
    (s.gfValid = false → exec .gfPow s = .next { s with code := .errNotConfigured, result := Result.zero }) ∧
    (∀ F, s.field = some F →
      (2 ^ F.m ≤ s.opa.toNat → exec .gfPow s = .next { s with code := .errOperand, result := Result.zero }) ∧
      (s.opa.toNat < 2 ^ F.m →
        exec .gfPow s = .next { s with
          code := .ok
          result := Result.zero
          res := BitVec.ofNat 32 (if s.opb.toNat = 0 then 1 else if s.opa.toNat = 0 then 0
            else F.alogOf ((F.logOf s.opa.toNat * s.opb.toNat) % (2 ^ F.m - 1))) }))

/-- R133: `GF.LOG`. -/
def Obligations.GfLogResult : Prop :=
  ∀ (s : State),
    (s.gfValid = false → exec .gfLog s = .next { s with code := .errNotConfigured, result := Result.zero }) ∧
    (∀ F, s.field = some F →
      (2 ^ F.m ≤ s.opa.toNat → exec .gfLog s = .next { s with code := .errOperand, result := Result.zero }) ∧
      (s.opa.toNat = 0 → exec .gfLog s = .next { s with code := .errDiv0, result := Result.zero }) ∧
      (∀ e, s.opa.toNat < 2 ^ F.m → s.opa.toNat ≠ 0 → F.tables.log[s.opa.toNat]? = some (some e) →
        exec .gfLog s = .next { s with code := .ok, result := Result.zero, res := BitVec.ofNat 32 e }))

/-- R134: `GF.ALOG`, the index not reduced. -/
def Obligations.GfAlogResult : Prop :=
  ∀ (s : State),
    (s.gfValid = false → exec .gfAlog s = .next { s with code := .errNotConfigured, result := Result.zero }) ∧
    (∀ F, s.field = some F →
      (2 ^ F.m ≤ s.opa.toNat → exec .gfAlog s = .next { s with code := .errOperand, result := Result.zero }) ∧
      (∀ v, s.opa.toNat < 2 ^ F.m → F.tables.alog[s.opa.toNat]? = some (some v) →
        exec .gfAlog s = .next { s with code := .ok, result := Result.zero, res := BitVec.ofNat 32 v }))

/-- Part of R135: on a valid field, `gf_mul` is the carry-less product reduced modulo `P`, which uses no table. -/
def Obligations.GfMulIsThePolynomialProduct : Prop :=
  ∀ (s : State) (F : Field), s.Inv → s.field = some F →
    ∀ a < 2 ^ s.gfM.toNat, ∀ b < 2 ^ s.gfM.toNat, F.mul a b = polyMulMod s.gfM.toNat s.gfPoly.toNat a b

/-- Part of R135: the field laws of a valid field. -/
def Obligations.FieldLawsHold : Prop :=
  ∀ (s : State) (F : Field), s.Inv → s.field = some F →
    ∀ a < F.size, ∀ b < F.size, ∀ c < F.size,
      F.mul a b < F.size ∧ F.mul a b = F.mul b a ∧ F.mul (F.mul a b) c = F.mul a (F.mul b c) ∧
      F.mul a 1 = a ∧ F.mul a 0 = 0 ∧ F.mul a (b ^^^ c) = F.mul a b ^^^ F.mul a c ∧
      (F.mul a b = 0 ↔ a = 0 ∨ b = 0) ∧
      (a ≠ 0 → ∃ ai, F.inv a = .ok ai ∧ ai < F.size ∧ F.mul a ai = 1) ∧
      (∀ n, F.pow a (n + 1) = F.mul (F.pow a n) a) ∧ (a ≠ 0 → F.pow a F.order = 1)

/-! ## The CRC unit -/

/-- R11: the bit stream of a byte sequence. -/
def Obligations.BitStreamIsMostSignificantFirst : Prop :=
  ∀ (D : List Byte), (bitStream D).length = 8 * D.length ∧
    ∀ i < 8 * D.length, (bitStream D)[i]? = some ((D.getD (i / 8) 0).getLsbD (7 - i % 8))

/-- R161: `CRC.CFG`. -/
def Obligations.CrcCfgOutcome : Prop :=
  ∀ (s : State),
    ((1 ≤ s.crcWidth.toNat ∧ s.crcWidth.toNat ≤ 32 ∧ s.crcPoly.toNat < 2 ^ s.crcWidth.toNat ∧
        s.crcInit.toNat < 2 ^ s.crcWidth.toNat ∧ s.crcXorout.toNat < 2 ^ s.crcWidth.toNat) →
      exec .crcCfg s = .next { s with code := .ok, result := Result.zero, crcValid := true }) ∧
    (¬(1 ≤ s.crcWidth.toNat ∧ s.crcWidth.toNat ≤ 32 ∧ s.crcPoly.toNat < 2 ^ s.crcWidth.toNat ∧
        s.crcInit.toNat < 2 ^ s.crcWidth.toNat ∧ s.crcXorout.toNat < 2 ^ s.crcWidth.toNat) →
      exec .crcCfg s = .next { s with code := .errConfig, result := Result.zero, crcValid := false })

/-- R162, R163: `CRC.ENC`, with the shift register written out. -/
def Obligations.CrcEncResult : Prop :=
  ∀ (s : State),
    (s.crcValid = false → exec .crcEnc s = .next { s with code := .errNotConfigured, result := Result.zero }) ∧
    (s.crcValid = true →
      (s.ilen.toNat = 0 → exec .crcEnc s = .next { s with code := .errEmpty, result := Result.zero }) ∧
      (8192 < s.ilen.toNat → exec .crcEnc s = .next { s with code := .errLength, result := Result.zero }) ∧
      (∀ D, 1 ≤ s.ilen.toNat → s.ilen.toNat ≤ 8192 → s.ibuf.readRange 0 s.ilen.toNat = some D →
        exec .crcEnc s = .next { s with
          code := .ok
          result := Result.zero
          res := BitVec.ofNat 32 ((bitStream D).foldl
            (fun reg b =>
              if reg.testBit (s.crcWidth.toNat - 1) = b then (reg <<< 1) % 2 ^ s.crcWidth.toNat
              else (reg <<< 1) % 2 ^ s.crcWidth.toNat ^^^ s.crcPoly.toNat)
            s.crcInit.toNat ^^^ s.crcXorout.toNat) }))

/-- R164: `CRC.DEC`, all 32 bits of `OPA` compared. -/
def Obligations.CrcDecResult : Prop :=
  ∀ (s : State),
    (s.crcValid = false → exec .crcDec s = .next { s with code := .errNotConfigured, result := Result.zero }) ∧
    (s.crcValid = true →
      (s.ilen.toNat = 0 → exec .crcDec s = .next { s with code := .errEmpty, result := Result.zero }) ∧
      (8192 < s.ilen.toNat → exec .crcDec s = .next { s with code := .errLength, result := Result.zero }) ∧
      (∀ D, 1 ≤ s.ilen.toNat → s.ilen.toNat ≤ 8192 → s.ibuf.readRange 0 s.ilen.toNat = some D →
        exec .crcDec s = .next { s with
          code := .ok
          result := { tag := .none, matched := decide (BitVec.ofNat 32 (s.crcRem D) = s.opa), noerr := false }
          res := BitVec.ofNat 32 (s.crcRem D) }))

/-- R168: encode then decode of the same input matches. -/
def Obligations.CrcRoundTripMatches : Prop :=
  ∀ (s t : State), exec .crcEnc s = .next t → t.code = .ok →
    ∃ u, exec .crcDec { t with opa := t.res } = .next u ∧ u.code = .ok ∧ u.result.matched = true

/-- R166: `MATCH` under an error pattern. The remainder is affine in the payload; with `Ep` added to the payload and `Er` to
the expected remainder, `MATCH` = 1 iff `G(x)` divides `Ep(x) * x^n + Er(x)`, whatever `init` and `xorout` are; and the rule's
consequences for an error in the remainder alone, for `poly[0]` = 1 and for `poly` = 0 (those for no error and for a single
bit are `CrcRoundTripMatches` and `CrcDetectsEverySingleBitFlip`). -/
def Obligations.CrcErrorPatternsAdd : Prop :=
  (∀ (s : State) (D E : List Byte), D.length = E.length → s.Inv → s.crcValid = true →
    s.crcRem (List.zipWith (fun a b => a ^^^ b) D E) =
      s.crcRem D ^^^ crcRem s.crcWidth.toNat s.crcPoly.toNat 0 0 E) ∧
  (∀ (s t : State) (D : List Byte), s.Inv → exec .crcEnc s = .next t → t.code = .ok →
    s.ibuf.readRange 0 s.ilen.toNat = some D →
    (∀ (E : List Byte) (Er : Word), E.length = D.length → Er.toNat < 2 ^ s.crcWidth.toNat →
      ∃ u, exec .crcDec { t with
          ibuf := Memory.ofBytes (List.zipWith (fun a b => a ^^^ b) D E), opa := t.res ^^^ Er } = .next u ∧ u.code = .ok ∧
        (u.result.matched = true ↔
          polyDivides (2 ^ s.crcWidth.toNat ^^^ s.crcPoly.toNat) (streamNumber E <<< s.crcWidth.toNat ^^^ Er.toNat)) ∧
        (streamNumber E = 0 → Er ≠ 0 → u.result.matched = false)) ∧
    (∀ E : List Byte, E.length = D.length →
      ∃ u, exec .crcDec { t with
          ibuf := Memory.ofBytes (List.zipWith (fun a b => a ^^^ b) D E), opa := t.res } = .next u ∧ u.code = .ok ∧
        (s.crcPoly.toNat % 2 = 1 →
          (u.result.matched = true ↔ polyDivides (2 ^ s.crcWidth.toNat ^^^ s.crcPoly.toNat) (streamNumber E))) ∧
        (s.crcPoly.toNat = 0 → u.result.matched = true)))

/-- R167, and R166 for an error in the remainder alone: with a non-zero polynomial every single flipped bit of the payload is
detected; with any polynomial every wrong expected remainder is, so a single flipped bit of it is too. -/
def Obligations.CrcDetectsEverySingleBitFlip : Prop :=
  ∀ (s t : State) (D : List Byte), s.Inv → exec .crcEnc s = .next t → t.code = .ok →
    s.ibuf.readRange 0 s.ilen.toNat = some D →
    (s.crcPoly.toNat ≠ 0 → ∀ i < 8 * D.length,
      ∃ u, exec .crcDec { t with opa := t.res, ibuf := Memory.ofBytes (flipBit D i) } = .next u ∧ u.code = .ok ∧
        u.result.matched = false) ∧
    (∀ v ≠ t.res,
      ∃ u, exec .crcDec { t with opa := v } = .next u ∧ u.code = .ok ∧ u.result.matched = false)

/-! ## The RS unit -/

/-- R193: `RS.CFG`. -/
def Obligations.RsCfgOutcome : Prop :=
  ∀ (s : State),
    (s.gfValid = false → exec .rsCfg s = .next { s with code := .errNotConfigured, result := Result.zero, rsGen := none }) ∧
    (∀ F, s.field = some F →
      (8 < F.m ∨ s.rsR.toNat < 1 ∨ 2 ^ F.m - 1 - 1 < s.rsR.toNat →
        exec .rsCfg s = .next { s with code := .errConfig, result := Result.zero, rsGen := none }) ∧
      (F.m ≤ 8 → 1 ≤ s.rsR.toNat → s.rsR.toNat ≤ 2 ^ F.m - 1 - 1 →
        exec .rsCfg s = .next { s with
          code := .ok, result := Result.zero, rsGen := some (rsGenerator F s.rsR.toNat) }))

/-- Part of R192: the generator of a valid RS unit has `r + 1` coefficients, the first 1, each a field element. -/
def Obligations.RsGeneratorIsMonicOfDegreeR : Prop :=
  ∀ (s : State) (F : Field) (g : List Nat), s.Inv → s.field = some F → s.rsGen = some g →
    g.length = s.rsR.toNat + 1 ∧ g.head? = some 1 ∧ ∀ c ∈ g, c < F.size

/-- R195: `RS.ENC`. -/
def Obligations.RsEncResult : Prop :=
  ∀ (s : State),
    (s.rsValid = false → exec .rsEnc s = .next { s with code := .errNotConfigured, result := Result.zero }) ∧
    (∀ F g, s.field = some F → s.rsGen = some g →
      (s.ilen.toNat = 0 → exec .rsEnc s = .next { s with code := .errEmpty, result := Result.zero }) ∧
      (s.ilen.toNat ≠ 0 → 2 ^ F.m - 1 < s.ilen.toNat + s.rsR.toNat →
        exec .rsEnc s = .next { s with code := .errLength, result := Result.zero }) ∧
      (∀ D, s.ilen.toNat ≠ 0 → s.ilen.toNat + s.rsR.toNat ≤ 2 ^ F.m - 1 → s.ibuf.readRange 0 s.ilen.toNat = some D →
        ((∃ b ∈ D, 2 ^ F.m ≤ b.toNat) → exec .rsEnc s = .next { s with code := .errOperand, result := Result.zero }) ∧
        ((∀ b ∈ D, b.toNat < 2 ^ F.m) →
          exec .rsEnc s = .next { s with
            code := .ok
            result := Result.zero
            obuf := Memory.ofBytes (D ++ (rsParity F g s.rsR.toNat (D.map BitVec.toNat)).map (BitVec.ofNat 8))
            olen := BitVec.ofNat 32
              (D.length + (rsParity F g s.rsR.toNat (D.map BitVec.toNat)).length) })))

/-- R194, R197: on a valid unit the parity has `r` symbols and every codeword has all `r` syndromes zero. -/
def Obligations.RsCodewordsHaveZeroSyndromes : Prop :=
  ∀ (s : State) (F : Field) (g : List Nat) (D : List Byte), s.Inv → s.field = some F → s.rsGen = some g →
    (∀ b ∈ D, b.toNat < F.size) →
    (rsParity F g s.rsR.toNat (symbols D)).length = s.rsR.toNat ∧
    (∀ v ∈ rsParity F g s.rsR.toNat (symbols D), v < F.size) ∧
    rsCodeMember F s.rsR.toNat (symbols (rsCodeword F g s.rsR.toNat D))

/-- R209 by linearity: the XOR of two words of `Code(n)` is in `Code(n)`, so zero syndromes with wrong data are reachable. -/
def Obligations.RsCodeIsClosedUnderXor : Prop :=
  ∀ (s : State) (F : Field) (c e : List Nat), s.Inv → s.field = some F → c.length = e.length →
    (∀ v ∈ c, v < F.size) → (∀ v ∈ e, v < F.size) →
    rsCodeMember F s.rsR.toNat c → rsCodeMember F s.rsR.toNat e →
    rsCodeMember F s.rsR.toNat (List.zipWith (fun a b => a ^^^ b) c e)

/-- R198, its checks in their order, and R199, its zero-syndrome exit. -/
def Obligations.RsDecReturnsCleanWordsUnchanged : Prop :=
  ∀ (s : State),
    (s.rsValid = false → exec .rsDec s = .next { s with code := .errNotConfigured, result := Result.zero }) ∧
    (∀ F g, s.field = some F → s.rsGen = some g →
      (s.ilen.toNat = 0 → exec .rsDec s = .next { s with code := .errEmpty, result := Result.zero }) ∧
      (s.ilen.toNat ≠ 0 → s.ilen.toNat ≤ s.rsR.toNat ∨ 2 ^ F.m - 1 < s.ilen.toNat →
        exec .rsDec s = .next { s with code := .errLength, result := Result.zero }) ∧
      (∀ D, s.rsR.toNat < s.ilen.toNat → s.ilen.toNat ≤ 2 ^ F.m - 1 → s.ibuf.readRange 0 s.ilen.toNat = some D →
        ((∃ b ∈ D, 2 ^ F.m ≤ b.toNat) → exec .rsDec s = .next { s with code := .errOperand, result := Result.zero }) ∧
        ((∀ b ∈ D, b.toNat < 2 ^ F.m) → (∀ v ∈ rsSyndromes F s.rsR.toNat (D.map BitVec.toNat), v = 0) →
          exec .rsDec s = .next { s with
            code := .ok
            result := { tag := .corrected, matched := false, noerr := true }
            obuf := Memory.ofBytes (D.take (s.ilen.toNat - s.rsR.toNat))
            olen := BitVec.ofNat 32 (s.ilen.toNat - s.rsR.toNat) })))

/-- R201, R202, R203, R204: the two ways on from a non-zero syndrome: `RS.DEC` gives up, or corrects the located positions
by their magnitudes and returns the payload portion. -/
def Obligations.RsDecCorrectsOrGivesUp : Prop :=
  ∀ (s : State) (F : Field) (g : List Nat) (D : List Byte) (S lam : List Nat) (len : Nat),
    s.field = some F → s.rsGen = some g →
    s.rsR.toNat < s.ilen.toNat → s.ilen.toNat ≤ 2 ^ F.m - 1 → s.ibuf.readRange 0 s.ilen.toNat = some D →
    (∀ b ∈ D, b.toNat < 2 ^ F.m) → S = rsSyndromes F s.rsR.toNat (D.map BitVec.toNat) → ¬(∀ v ∈ S, v = 0) →
    bm F S s.rsR.toNat = .ok (lam, len) →
    ((s.rsR.toNat / 2 < polyDegree lam ∨ polyDegree lam ≠ len ∨
        (∃ pos, rootPositions F lam (polyDegree lam) s.ilen.toNat (List.range s.ilen.toNat) = .ok pos ∧
          pos.length ≠ polyDegree lam)) →
      exec .rsDec s = .next { s with
        code := .ok
        result := { tag := .uncorrectable, matched := false, noerr := false }
        obuf := Memory.ofBytes []
        olen := 0 }) ∧
    (∀ pos e, polyDegree lam ≤ s.rsR.toNat / 2 → polyDegree lam = len →
      rootPositions F lam (polyDegree lam) s.ilen.toNat (List.range s.ilen.toNat) = .ok pos →
      pos.length = polyDegree lam →
      rsCorrect F s.rsR.toNat s.ilen.toNat S lam (polyDegree lam) pos (D.map BitVec.toNat) = .ok e →
      exec .rsDec s = .next { s with
        code := .ok
        result := { tag := .corrected, matched := false, noerr := false }
        obuf := Memory.ofBytes ((e.take (s.ilen.toNat - s.rsR.toNat)).map (BitVec.ofNat 8))
        olen := BitVec.ofNat 32 (s.ilen.toNat - s.rsR.toNat) })

/-- R206: `RS.DEC` is a bounded-distance decoder. `Code(n)` is the set of the encoder's outputs, its words differ from each
other in at least `r + 1` positions, and the answer is the code word within the capacity if there is one. -/
def Obligations.RsDecIsABoundedDistanceDecoder : Prop :=
  ∀ (s : State) (F : Field) (g : List Nat) (D : List Byte), s.Inv → s.field = some F → s.rsGen = some g →
    s.rsR.toNat < s.ilen.toNat → s.ilen.toNat ≤ 2 ^ F.m - 1 → s.ibuf.readRange 0 s.ilen.toNat = some D →
    (∀ b ∈ D, b.toNat < 2 ^ F.m) →
    (∀ W : List Byte, W.length = D.length →
      (rsCode F s.rsR.toNat W ↔ ∃ u : List Byte, u.length + s.rsR.toNat = D.length ∧ (∀ b ∈ u, b.toNat < 2 ^ F.m) ∧
        W = rsCodeword F g s.rsR.toNat u)) ∧
    (∀ W V : List Byte, W.length = D.length → V.length = D.length → rsCode F s.rsR.toNat W → rsCode F s.rsR.toNat V →
      W ≠ V → s.rsR.toNat + 1 ≤ distance W V) ∧
    ∃ t, exec .rsDec s = .next t ∧ t.code = .ok ∧
      (t.result.tag = .corrected ↔
        ∃ W : List Byte, W.length = D.length ∧ rsCode F s.rsR.toNat W ∧ distance D W ≤ s.rsR.toNat / 2) ∧
      (∀ W : List Byte, W.length = D.length → rsCode F s.rsR.toNat W → distance D W ≤ s.rsR.toNat / 2 →
        t.olen = BitVec.ofNat 32 (s.ilen.toNat - s.rsR.toNat) ∧
        t.obuf = Memory.ofBytes (W.take (s.ilen.toNat - s.rsR.toNat))) ∧
      (t.result.noerr = true ↔ rsCode F s.rsR.toNat D) ∧
      (t.result.tag ≠ .corrected → t.result.tag = .uncorrectable)

/-- R205: up to `r / 2` symbol errors in an encoder's output are corrected (the received bytes are symbols: R198 stops at one
that is not). -/
def Obligations.RsDecCorrectsUpToCapacity : Prop :=
  ∀ (s t : State) (D W E : List Byte), s.Inv → exec .rsEnc s = .next t → t.code = .ok →
    s.ibuf.readRange 0 s.ilen.toNat = some D → t.obuf.readRange 0 t.olen.toNat = some W →
    E.length = W.length → (∀ b ∈ E, b.toNat < 2 ^ s.gfM.toNat) → distance E W ≤ s.rsR.toNat / 2 →
    ∃ u, exec .rsDec { t with ibuf := Memory.ofBytes E, ilen := t.olen } = .next u ∧ u.code = .ok ∧
      u.result.tag = .corrected ∧ u.obuf = Memory.ofBytes D ∧ u.olen = s.ilen

/-- R208: the round trip of the RS unit. -/
def Obligations.RsRoundTripReturnsThePayload : Prop :=
  ∀ (s t : State) (D : List Byte), s.Inv → exec .rsEnc s = .next t → t.code = .ok →
    s.ibuf.readRange 0 s.ilen.toNat = some D →
    exec .rsDec { t with ibuf := t.obuf, ilen := t.olen } = .next { t with
      ibuf := t.obuf
      ilen := t.olen
      code := .ok
      result := { tag := .corrected, matched := false, noerr := true }
      obuf := Memory.ofBytes D
      olen := s.ilen }

/-- R207: `ERR_DIV0` arises only from `GF.INV` and `GF.LOG`; the RS commands never raise it, nor do the BCH commands (R249). -/
def Obligations.DivisionByZeroOnlyFromGfInvAndGfLog : Prop :=
  ∀ (s t : State) (i : Instr), s.Inv → exec i s = .next t → t.code = .errDiv0 →
    (i = .gfInv ∨ i = .gfLog) ∧ s.opa.toNat = 0

/-! ## The BCH unit -/

/-- R243: `BCH.CFG`; after a failure `BCH_P` holds no value (R35, R297). -/
def Obligations.BchCfgOutcome : Prop :=
  ∀ (s : State),
    (s.gfValid = false → exec .bchCfg s = .next { s with
      code := .errNotConfigured, result := Result.zero, bchGen := none, bchP := none }) ∧
    (∀ F, s.field = some F →
      (s.bchT.toNat < 1 ∨ 2 ^ F.m - 1 - 1 < 2 * s.bchT.toNat ∨
          2 ^ F.m - 1 < (bchGenerator F s.bchT.toNat).log2 + 8 →
        exec .bchCfg s = .next { s with code := .errConfig, result := Result.zero, bchGen := none, bchP := none }) ∧
      (1 ≤ s.bchT.toNat → 2 * s.bchT.toNat ≤ 2 ^ F.m - 1 - 1 →
          (bchGenerator F s.bchT.toNat).log2 + 8 ≤ 2 ^ F.m - 1 →
        exec .bchCfg s = .next { s with
          code := .ok
          result := Result.zero
          bchGen := some (bchGenerator F s.bchT.toNat)
          bchP := some (BitVec.ofNat 32 (bchGenerator F s.bchT.toNat).log2) }))

/-- R246: `BCH.ENC`, with the parity register written out. -/
def Obligations.BchEncResult : Prop :=
  ∀ (s : State),
    (s.bchValid = false → exec .bchEnc s = .next { s with code := .errNotConfigured, result := Result.zero }) ∧
    (∀ F g p, s.field = some F → s.bchGen = some g → s.bchP = some p →
      (s.ilen.toNat = 0 → exec .bchEnc s = .next { s with code := .errEmpty, result := Result.zero }) ∧
      (s.ilen.toNat ≠ 0 → 2 ^ F.m - 1 < 8 * s.ilen.toNat + p.toNat →
        exec .bchEnc s = .next { s with code := .errLength, result := Result.zero }) ∧
      (∀ D rem, s.ilen.toNat ≠ 0 → 8 * s.ilen.toNat + p.toNat ≤ 2 ^ F.m - 1 →
        s.ibuf.readRange 0 s.ilen.toNat = some D →
        rem = (bitStream D).foldl
          (fun r b => if r.testBit (p.toNat - 1) = b then (r <<< 1) % 2 ^ p.toNat
            else (r <<< 1) % 2 ^ p.toNat ^^^ g % 2 ^ p.toNat) 0 →
        exec .bchEnc s = .next { s with
          code := .ok
          result := Result.zero
          obuf := Memory.ofBytes (D ++ (List.range ((p.toNat + 7) / 8)).map fun j =>
            BitVec.ofNat 8 (((rem <<< (8 * ((p.toNat + 7) / 8) - p.toNat)) >>> (8 * ((p.toNat + 7) / 8 - 1 - j))) &&& 0xFF))
          olen := BitVec.ofNat 32 (s.ilen.toNat + (p.toNat + 7) / 8) }))

/-- R249: the checks of `BCH.DEC` and its zero-syndrome exit. -/
def Obligations.BchDecReturnsCleanWordsUnchanged : Prop :=
  ∀ (s : State),
    (s.bchValid = false → exec .bchDec s = .next { s with code := .errNotConfigured, result := Result.zero }) ∧
    (∀ F g p, s.field = some F → s.bchGen = some g → s.bchP = some p →
      (s.ilen.toNat = 0 → exec .bchDec s = .next { s with code := .errEmpty, result := Result.zero }) ∧
      (s.ilen.toNat ≠ 0 → s.ilen.toNat ≤ (p.toNat + 7) / 8 ∨
          2 ^ F.m - 1 < 8 * (s.ilen.toNat - (p.toNat + 7) / 8) + p.toNat →
        exec .bchDec s = .next { s with code := .errLength, result := Result.zero }) ∧
      (∀ D, (p.toNat + 7) / 8 < s.ilen.toNat → 8 * (s.ilen.toNat - (p.toNat + 7) / 8) + p.toNat ≤ 2 ^ F.m - 1 →
        s.ibuf.readRange 0 s.ilen.toNat = some D →
        (∀ v ∈ bchSyndromes F s.bchT.toNat ((bitStream D).take (8 * (s.ilen.toNat - (p.toNat + 7) / 8) + p.toNat)), v = 0) →
        exec .bchDec s = .next { s with
          code := .ok
          result := { tag := .corrected, matched := false, noerr := true }
          obuf := Memory.ofBytes (D.take (s.ilen.toNat - (p.toNat + 7) / 8))
          olen := BitVec.ofNat 32 (s.ilen.toNat - (p.toNat + 7) / 8) }))

/-- R249: the two ways on from a non-zero syndrome: `BCH.DEC` gives up, or flips the located bits. -/
def Obligations.BchDecLocatesOrGivesUp : Prop :=
  ∀ (s : State) (F : Field) (g : Nat) (p : Word) (D : List Byte) (S lam : List Nat) (k N len : Nat),
    s.field = some F → s.bchGen = some g → s.bchP = some p →
    k = s.ilen.toNat - (p.toNat + 7) / 8 → N = 8 * k + p.toNat → 1 ≤ k → N ≤ 2 ^ F.m - 1 →
    s.ibuf.readRange 0 s.ilen.toNat = some D → S = bchSyndromes F s.bchT.toNat ((bitStream D).take N) →
    ¬(∀ v ∈ S, v = 0) → bm F S (2 * s.bchT.toNat) = .ok (lam, len) →
    ((s.bchT.toNat < polyDegree lam ∨ polyDegree lam ≠ len ∨
        (∃ pos, rootPositions F lam (polyDegree lam) N (List.range N) = .ok pos ∧ pos.length ≠ polyDegree lam)) →
      exec .bchDec s = .next { s with
        code := .ok
        result := { tag := .uncorrectable, matched := false, noerr := false }
        obuf := Memory.ofBytes []
        olen := 0 }) ∧
    (∀ pos, polyDegree lam ≤ s.bchT.toNat → polyDegree lam = len →
      rootPositions F lam (polyDegree lam) N (List.range N) = .ok pos → pos.length = polyDegree lam →
      exec .bchDec s = .next { s with
        code := .ok
        result := { tag := .corrected, matched := false, noerr := false }
        obuf := Memory.ofBytes ((pos.foldl flipBit D).take k)
        olen := BitVec.ofNat 32 k })

/-- R247: `BCH.ENC` writes the pad bits as 0, and two words that differ in pad bits only decode alike. -/
def Obligations.BchPadBitsAreZeroAndIgnored : Prop :=
  (∀ (s : State) (F : Field) (g : Nat) (p : Word) (D : List Byte), s.Inv → s.field = some F → s.bchGen = some g →
    s.bchP = some p → ∀ i, 8 * D.length + p.toNat ≤ i → bitAt (bchCodeword g p.toNat D) i = false) ∧
  (∀ (F : Field) (t p k : Nat) (D E : List Byte), D.length = k + bytesFor p → E.length = k + bytesFor p →
    codeBits D (8 * k + p) = codeBits E (8 * k + p) → bchDecode F t p k D = bchDecode F t p k E)

/-- R251: `BCH.DEC` is a bounded-distance decoder on the code bits. -/
def Obligations.BchDecIsABoundedDistanceDecoder : Prop :=
  ∀ (s : State) (F : Field) (g : Nat) (p : Word) (D : List Byte) (k N : Nat), s.Inv → s.field = some F →
    s.bchGen = some g → s.bchP = some p → s.ilen.toNat = k + (p.toNat + 7) / 8 → N = 8 * k + p.toNat → 1 ≤ k →
    N ≤ 2 ^ F.m - 1 → s.ibuf.readRange 0 s.ilen.toNat = some D →
    (∀ w v : List Bool, w.length = N → v.length = N → bchCode g w → bchCode g v → w ≠ v →
      2 * s.bchT.toNat + 1 ≤ distance w v) ∧
    ∃ t, exec .bchDec s = .next t ∧ t.code = .ok ∧
      (t.result.tag = .corrected ↔
        ∃ w : List Bool, w.length = N ∧ bchCode g w ∧ distance ((bitStream D).take N) w ≤ s.bchT.toNat) ∧
      (∀ w : List Bool, w.length = N → bchCode g w → distance ((bitStream D).take N) w ≤ s.bchT.toNat →
        t.olen = BitVec.ofNat 32 k ∧
        ∃ out : List Byte, out.length = k ∧ bitStream out = w.take (8 * k) ∧ t.obuf = Memory.ofBytes out) ∧
      (t.result.noerr = true ↔ bchCode g ((bitStream D).take N)) ∧
      (t.result.tag ≠ .corrected → t.result.tag = .uncorrectable)

/-- R250: up to `t` flipped code bits of an encoder's output are corrected, whatever the pad bits are. -/
def Obligations.BchDecCorrectsUpToCapacity : Prop :=
  ∀ (s t : State) (p : Word) (D W E : List Byte) (N : Nat), s.Inv → s.bchP = some p → exec .bchEnc s = .next t →
    t.code = .ok → s.ibuf.readRange 0 s.ilen.toNat = some D → t.obuf.readRange 0 t.olen.toNat = some W →
    E.length = W.length → N = 8 * s.ilen.toNat + p.toNat →
    distance ((bitStream E).take N) ((bitStream W).take N) ≤ s.bchT.toNat →
    ∃ u, exec .bchDec { t with ibuf := Memory.ofBytes E, ilen := t.olen } = .next u ∧ u.code = .ok ∧
      u.result.tag = .corrected ∧ u.obuf = Memory.ofBytes D ∧ u.olen = s.ilen

/-- R253: the round trip of the BCH unit. -/
def Obligations.BchRoundTripReturnsThePayload : Prop :=
  ∀ (s t : State) (D : List Byte), s.Inv → exec .bchEnc s = .next t → t.code = .ok →
    s.ibuf.readRange 0 s.ilen.toNat = some D →
    exec .bchDec { t with ibuf := t.obuf, ilen := t.olen } = .next { t with
      ibuf := t.obuf
      ilen := t.olen
      code := .ok
      result := { tag := .corrected, matched := false, noerr := true }
      obuf := Memory.ofBytes D
      olen := s.ilen }

/-! ## Rules about every command -/

/-- R22, R23, R71, R136: `IBUF`, `OPA`, `OPB`, `ILEN` and the configuration registers are written by no command, `RES` and
`OLEN` only by those listed, `BCH_P` only by `BCH.CFG`, and the field tables only by `GF.BUILD`. -/
def Obligations.CommandsWriteOnlyTheirRegisters : Prop :=
  ∀ (i : Instr) (s t : State), exec i s = .next t →
    (∀ j, t.ibuf.read j = s.ibuf.read j) ∧
    t.opa = s.opa ∧ t.opb = s.opb ∧ t.ilen = s.ilen ∧ t.gfM = s.gfM ∧ t.gfPoly = s.gfPoly ∧
    t.crcWidth = s.crcWidth ∧ t.crcPoly = s.crcPoly ∧ t.crcInit = s.crcInit ∧ t.crcXorout = s.crcXorout ∧
    t.rsR = s.rsR ∧ t.bchT = s.bchT ∧
    (writesRes i = false → t.res = s.res) ∧ (writesOutput i = false → t.olen = s.olen) ∧
    (i ≠ .bchCfg → t.bchP = s.bchP) ∧ (i ≠ .gfBuild → t.tables = s.tables)

/-- R28: the VALID flags follow the construction commands, and no host write sets one. -/
def Obligations.ValidFlagsFollowConstruction : Prop :=
  (∀ (i : Instr) (s t : State), exec i s = .next t →
    (i = .gfBuild → (t.gfValid = true ↔ t.code = .ok) ∧ t.crcValid = s.crcValid ∧ t.rsValid = false ∧ t.bchValid = false) ∧
    (i = .crcCfg → (t.crcValid = true ↔ t.code = .ok) ∧ t.gfValid = s.gfValid ∧ t.rsValid = s.rsValid ∧ t.bchValid = s.bchValid) ∧
    (i = .rsCfg → (t.rsValid = true ↔ t.code = .ok) ∧ t.gfValid = s.gfValid ∧ t.crcValid = s.crcValid ∧ t.bchValid = s.bchValid) ∧
    (i = .bchCfg → (t.bchValid = true ↔ t.code = .ok) ∧ t.gfValid = s.gfValid ∧ t.crcValid = s.crcValid ∧ t.rsValid = s.rsValid) ∧
    (i ≠ .gfBuild → i ≠ .crcCfg → i ≠ .rsCfg → i ≠ .bchCfg →
      t.gfValid = s.gfValid ∧ t.crcValid = s.crcValid ∧ t.rsValid = s.rsValid ∧ t.bchValid = s.bchValid)) ∧
  (∀ (s : State) (off : Nat) (v : Word),
    ((s.hostRegWrite off v).gfValid = true → s.gfValid = true) ∧
    ((s.hostRegWrite off v).crcValid = true → s.crcValid = true) ∧
    ((s.hostRegWrite off v).rsValid = true → s.rsValid = true) ∧
    ((s.hostRegWrite off v).bchValid = true → s.bchValid = true))

/-- R297: the state after a command that raises; for an illegal word only `STATUS.CODE` and `RESULT` change. -/
def Obligations.RaisedCommandsChangeNothingElse : Prop :=
  (∀ (s : State) (w : Word) (e : DecodeReject), decode w = .error e →
    runCommand w s = .next { s with code := .errIllegalCmd, result := Result.zero }) ∧
  ∀ (i : Instr) (s t : State), exec i s = .next t → t.code ≠ .ok →
    t.result = Result.zero ∧ t.res = s.res ∧ t.olen = s.olen ∧ (∀ j, t.obuf.read j = s.obuf.read j) ∧
    (∀ j, t.ibuf.read j = s.ibuf.read j) ∧ t.opa = s.opa ∧ t.opb = s.opb ∧ t.ilen = s.ilen ∧
    t.gfM = s.gfM ∧ t.gfPoly = s.gfPoly ∧ t.crcWidth = s.crcWidth ∧ t.crcPoly = s.crcPoly ∧
    t.crcInit = s.crcInit ∧ t.crcXorout = s.crcXorout ∧ t.rsR = s.rsR ∧ t.bchT = s.bchT ∧
    (i = .gfBuild → t.gfValid = false ∧ t.rsValid = false ∧ t.bchValid = false) ∧
    (i ≠ .gfBuild → t.tables = s.tables) ∧
    (i = .crcCfg → t.crcValid = false) ∧ (i ≠ .crcCfg → t.crcValid = s.crcValid) ∧
    (i = .rsCfg → t.rsValid = false) ∧ (i ≠ .gfBuild → i ≠ .rsCfg → t.rsGen = s.rsGen) ∧
    (i = .bchCfg → t.bchValid = false ∧ t.bchP = none) ∧
    (i ≠ .gfBuild → i ≠ .bchCfg → t.bchGen = s.bchGen) ∧ (i ≠ .bchCfg → t.bchP = s.bchP)

/-- R29 to R31: what `RESULT` can be after each command. -/
def Obligations.ResultDescribesTheLatestCommand : Prop :=
  ∀ (i : Instr) (s t : State), exec i s = .next t →
    (t.code ≠ .ok → t.result = Result.zero) ∧
    (i ≠ .crcDec → i ≠ .rsDec → i ≠ .bchDec → t.result = Result.zero) ∧
    (i = .crcDec → t.result.tag = .none ∧ t.result.noerr = false) ∧
    (i = .rsDec ∨ i = .bchDec → t.result.matched = false ∧ (t.result.noerr = true → t.result.tag = .corrected) ∧
      (t.code = .ok → t.result.tag ≠ .none))

/-- R293 without its RS and BCH decode rows (R207 and R249 say what those rows leave out): which command raises which code. -/
def Obligations.CommandsRaiseOnlyTheirCodes : Prop :=
  ∀ (i : Instr) (s t : State), exec i s = .next t →
    t.code ≠ .errIllegalCmd ∧
    (t.code = .errConfig → i = .gfBuild ∨ i = .crcCfg ∨ i = .rsCfg ∨ i = .bchCfg) ∧
    (t.code = .errInvalidPoly → i = .gfBuild) ∧
    (t.code = .errEmpty → readsInput i = true) ∧
    (t.code = .errLength → readsInput i = true) ∧
    (t.code = .errNotConfigured → i ≠ .gfBuild ∧ i ≠ .crcCfg) ∧
    (t.code = .errOperand → i = .gfMul ∨ i = .gfInv ∨ i = .gfPow ∨ i = .gfLog ∨ i = .gfAlog ∨ i = .rsEnc ∨ i = .rsDec) ∧
    (t.code = .errDiv0 → i = .gfInv ∨ i = .gfLog ∨ i = .rsDec ∨ i = .bchDec)

/-- R72: the output buffer after a codec command, and after every other outcome. -/
def Obligations.OutputBufferAfterCommands : Prop :=
  ∀ (i : Instr) (s t : State), s.Inv → exec i s = .next t →
    (writesOutput i = true → t.code = .ok → ∀ j, (t.obuf.read j).isSome = true ↔ j < t.olen.toNat) ∧
    (t.result.tag = .uncorrectable → t.olen = 0 ∧ ∀ j, t.obuf.read j = none) ∧
    (writesOutput i = false ∨ t.code ≠ .ok → t.olen = s.olen ∧ ∀ j, t.obuf.read j = s.obuf.read j)

/-- R339, R340: from every state that keeps the invariant, with its input written, every command completes. -/
def Obligations.EveryCommandCompletes : Prop :=
  ∀ (i : Instr) (s : State), s.Inv → (readsInput i = true → s.inputWritten) → ∃ t, exec i s = .next t

/-- R73: a command stops exactly because an input byte was never written, and then it does stop (log 2: the fault is the
model's choice among those the spec allows). -/
def Obligations.UnwrittenInputStopsTheCommand : Prop :=
  (∀ (i : Instr) (s : State) (f : Fault), s.Inv → exec i s = .fault f →
    f = .unwrittenInput ∧ readsInput i = true ∧ ∃ j < s.ilen.toNat, s.ibuf.read j = none) ∧
  (∀ (s : State) (j : Nat), j < s.ilen.toNat → s.ibuf.read j = none →
    (s.crcValid = true → s.ilen.toNat ≤ 8192 →
      exec .crcEnc s = .fault .unwrittenInput ∧ exec .crcDec s = .fault .unwrittenInput) ∧
    (∀ F g, s.field = some F → s.rsGen = some g →
      (s.ilen.toNat + s.rsR.toNat ≤ 2 ^ F.m - 1 → exec .rsEnc s = .fault .unwrittenInput) ∧
      (s.rsR.toNat < s.ilen.toNat → s.ilen.toNat ≤ 2 ^ F.m - 1 → exec .rsDec s = .fault .unwrittenInput)) ∧
    (∀ F g p, s.field = some F → s.bchGen = some g → s.bchP = some p →
      (8 * s.ilen.toNat + p.toNat ≤ 2 ^ F.m - 1 → exec .bchEnc s = .fault .unwrittenInput) ∧
      ((p.toNat + 7) / 8 < s.ilen.toNat → 8 * (s.ilen.toNat - (p.toNat + 7) / 8) + p.toNat ≤ 2 ^ F.m - 1 →
        exec .bchDec s = .fault .unwrittenInput)))

/-! ## The invariant -/

/-- R28, R65, R72: the invariant holds after reset. -/
def Obligations.InvariantHoldsAtReset : Prop := State.reset.Inv

/-- R28, R65, R72: every step keeps the invariant. -/
def Obligations.EveryStepKeepsTheInvariant : Prop :=
  ∀ (s t : State), s.Inv → step s = .next t → t.Inv

/-- R94: every step keeps that `RS_VALID` and `BCH_VALID` imply `GF_VALID`, from every state in which they do. -/
def Obligations.ValidCodecsHaveTheirField : Prop :=
  ∀ (s t : State), (s.rsValid = true → s.gfValid = true) → (s.bchValid = true → s.gfValid = true) → step s = .next t →
    (t.rsValid = true → t.gfValid = true) ∧ (t.bchValid = true → t.gfValid = true)
end

