-- ==== Sys2Proof/Laws/Memory.lean ====
section
/-! SUPPORT. Laws of the buffers: read after write, the canonical form kept by every operation, ranges and sequences. -/

namespace Sys2Proof.Machine

/-- Read after write, for every index. -/
theorem Memory.read_write (m : Memory) (i j : Nat) (v : Byte) :
    (m.write i v).read j = if j = i then some v else m.read j := by
  induction m with
  | nil => simp [Memory.write, Memory.read]
  | cons c rest ih =>
    obtain ⟨k, b⟩ := c
    by_cases h1 : i < k
    · simp [Memory.write, Memory.read, h1]
    · by_cases h2 : i = k
      · subst h2
        simp only [Memory.write, Memory.read, lt_irrefl, if_false, if_true]
        split <;> rfl
      · simp only [Memory.write, Memory.read, h1, h2, if_false, ih]
        by_cases h3 : j = k
        · subst h3
          simp [Ne.symm h2]
        · simp [h3]

/-- The keys of a written buffer: the old ones and the one written. -/
theorem Memory.mem_write {m : Memory} {i : Nat} {v : Byte} {c : Host.Cell} (h : c ∈ m.write i v) :
    c.1 = i ∨ c ∈ m := by
  induction m with
  | nil => simp_all [Memory.write]
  | cons d rest ih =>
    obtain ⟨k, b⟩ := d
    simp only [Memory.write] at h
    split at h
    · rcases List.mem_cons.1 h with h | h
      · exact .inl (by rw [h])
      · exact .inr h
    · split at h
      · rcases List.mem_cons.1 h with h | h
        · exact .inl (by rw [h])
        · exact .inr (List.mem_cons_of_mem _ h)
      · rcases List.mem_cons.1 h with h | h
        · exact .inr (by rw [h]; exact List.mem_cons_self)
        · exact (ih h).imp id (List.mem_cons_of_mem _)

/-- A write keeps the canonical form. -/
theorem Memory.write_wf {m : Memory} (i : Nat) (v : Byte) (h : m.wf) : (m.write i v).wf := by
  induction m with
  | nil => simp [Memory.write, Memory.wf]
  | cons c rest ih =>
    obtain ⟨k, b⟩ := c
    simp only [Memory.wf, List.map_cons, List.pairwise_cons] at h
    obtain ⟨h1, h2⟩ := h
    simp only [Memory.write]
    split
    · next hik =>
      simp only [Memory.wf, List.map_cons, List.pairwise_cons]
      refine ⟨fun x hx => ?_, h1, h2⟩
      rcases List.mem_cons.1 hx with hx | hx
      · omega
      · exact lt_trans hik (h1 x hx)
    · split
      · next _ hik =>
        subst hik
        simp only [Memory.wf, List.map_cons, List.pairwise_cons]
        exact ⟨h1, h2⟩
      · next hlt hne =>
        simp only [Memory.wf, List.map_cons, List.pairwise_cons]
        refine ⟨fun x hx => ?_, ih h2⟩
        obtain ⟨c, hc, rfl⟩ := List.mem_map.1 hx
        rcases Memory.mem_write hc with h | h
        · omega
        · exact h1 _ (List.mem_map.2 ⟨c, h, rfl⟩)

/-- The keys of a sequence stored from an index on start there. -/
theorem Memory.cellsFrom_key_ge (i : Nat) (bs : List Byte) :
    ∀ x ∈ (Memory.cellsFrom i bs).map Prod.fst, i ≤ x := by
  induction bs generalizing i with
  | nil => simp [Memory.cellsFrom]
  | cons b bs ih =>
    intro x hx
    simp only [Memory.cellsFrom, List.map_cons, List.mem_cons] at hx
    rcases hx with rfl | hx
    · exact le_refl _
    · exact le_trans (Nat.le_succ _) (ih _ _ hx)

/-- A stored sequence has the canonical form. -/
theorem Memory.cellsFrom_wf (i : Nat) (bs : List Byte) : Memory.wf (Memory.cellsFrom i bs) := by
  induction bs generalizing i with
  | nil => simp [Memory.cellsFrom, Memory.wf]
  | cons b bs ih =>
    simp only [Memory.cellsFrom, Memory.wf, List.map_cons, List.pairwise_cons]
    exact ⟨fun x hx => Nat.lt_of_succ_le (Memory.cellsFrom_key_ge _ _ x hx), ih _⟩

theorem Memory.ofBytes_wf (bs : List Byte) : Memory.wf (Memory.ofBytes bs) := Memory.cellsFrom_wf 0 bs

/-- A stored sequence reaches as far as it is long. -/
theorem Memory.cellsFrom_key_lt (i : Nat) (bs : List Byte) : ∀ c ∈ Memory.cellsFrom i bs, c.1 < i + bs.length := by
  induction bs generalizing i with
  | nil => intro c hc; cases hc
  | cons b bs ih =>
    intro c hc
    rcases List.mem_cons.1 hc with rfl | hc
    · simp
    · have := ih (i + 1) c hc
      simp only [List.length_cons]
      omega

/-- What a sequence stored from index `i` on holds. -/
theorem Memory.read_cellsFrom (i j : Nat) (bs : List Byte) :
    Memory.read (Memory.cellsFrom i bs) j = if j < i then none else bs[j - i]? := by
  induction bs generalizing i with
  | nil => simp [Memory.cellsFrom, Memory.read]
  | cons b bs ih =>
    simp only [Memory.cellsFrom, Memory.read, ih]
    by_cases h : j = i
    · subst h; simp
    · by_cases h2 : j < i
      · rw [if_neg h, if_pos (by omega), if_pos h2]
      · have h3 : j - i = (j - (i + 1)) + 1 := by omega
        rw [if_neg h, if_neg (by omega), if_neg h2, h3, List.getElem?_cons_succ]

/-- A stored sequence reads back, and nothing else is held. -/
theorem Memory.read_ofBytes (j : Nat) (bs : List Byte) : Memory.read (Memory.ofBytes bs) j = bs[j]? := by
  simp [Memory.ofBytes, Memory.read_cellsFrom]

/-- A range read succeeds exactly when every byte of it is held, and gives those bytes. -/
theorem Memory.readRange_eq_some {m : Memory} {i n : Nat} {D : List Byte} :
    m.readRange i n = some D ↔ D.length = n ∧ ∀ j < n, m.read (i + j) = D[j]? := by
  induction n generalizing i D with
  | zero =>
    simp only [Memory.readRange, Option.some.injEq, Nat.not_lt_zero, false_imp_iff, implies_true, and_true,
      List.length_eq_zero_iff]
    exact eq_comm
  | succ n ih =>
    simp only [Memory.readRange]
    constructor
    · intro h
      split at h
      · next b bs hb hbs =>
        obtain rfl : b :: bs = D := by simpa using h
        obtain ⟨hl, hr⟩ := ih.1 hbs
        refine ⟨by simp [hl], fun j hj => ?_⟩
        cases j with
        | zero => simpa using hb
        | succ j =>
          have := hr j (by omega)
          rw [List.getElem?_cons_succ, ← this]
          congr 1; omega
      · exact absurd h (by simp)
    · rintro ⟨hl, hr⟩
      cases D with
      | nil => simp at hl
      | cons b bs =>
        have hb : m.read i = some b := by simpa using hr 0 (by omega)
        have hbs : m.readRange (i + 1) n = some bs := by
          refine ih.2 ⟨by simpa using hl, fun j hj => ?_⟩
          have := hr (j + 1) (by omega)
          rw [List.getElem?_cons_succ] at this
          rw [← this]; congr 1; omega
        simp [hb, hbs]

/-- A range read has no value exactly when some byte of the range holds none. -/
theorem Memory.readRange_eq_none {m : Memory} {i n : Nat} :
    m.readRange i n = none ↔ ∃ j < n, m.read (i + j) = none := by
  induction n generalizing i with
  | zero => simp [Memory.readRange]
  | succ n ih =>
    simp only [Memory.readRange]
    cases hb : m.read i with
    | none => exact ⟨fun _ => ⟨0, by omega, by simpa using hb⟩, fun _ => rfl⟩
    | some b =>
      cases hbs : m.readRange (i + 1) n with
      | none =>
        refine ⟨fun _ => ?_, fun _ => rfl⟩
        obtain ⟨j, hj, h⟩ := ih.1 hbs
        exact ⟨j + 1, by omega, by rw [← h]; congr 1; omega⟩
      | some bs =>
        refine ⟨fun h => absurd h (by simp), ?_⟩
        rintro ⟨j, hj, h⟩
        exfalso
        cases j with
        | zero => simp [hb] at h
        | succ j =>
          have : m.readRange (i + 1) n = none :=
            ih.2 ⟨j, by omega, by rw [← h]; congr 1; omega⟩
          simp [hbs] at this

/-- A stored sequence is the range it fills. -/
theorem Memory.readRange_ofBytes (bs : List Byte) : Memory.readRange (Memory.ofBytes bs) 0 bs.length = some bs :=
  Memory.readRange_eq_some.2 ⟨rfl, fun j _ => by simp [Memory.read_ofBytes]⟩

/-- A byte held is a cell listed. -/
theorem Memory.mem_of_read {m : Memory} {i : Nat} {b : Byte} (h : m.read i = some b) : (i, b) ∈ m := by
  induction m with
  | nil => simp [Memory.read] at h
  | cons c rest ih =>
    obtain ⟨k, v⟩ := c
    simp only [Memory.read] at h
    split at h
    · next hk => subst hk; simp_all
    · exact List.mem_cons_of_mem _ (ih h)

/-- Two buffers in canonical form that read alike are equal. -/
theorem Memory.ext_of_wf {m n : Memory} (hm : m.wf) (hn : n.wf) (h : ∀ i, m.read i = n.read i) : m = n := by
  have key : ∀ {k : Memory} {c : Host.Cell}, k.wf → c ∈ k → k.read c.1 = some c.2 := by
    intro k c hk hc
    induction k with
    | nil => simp at hc
    | cons d rest ih =>
      obtain ⟨x, y⟩ := d
      simp only [Memory.wf, List.map_cons, List.pairwise_cons] at hk
      rcases List.mem_cons.1 hc with rfl | hc
      · simp [Memory.read]
      · have := hk.1 c.1 (List.mem_map.2 ⟨c, hc, rfl⟩)
        rw [Memory.read, if_neg (by omega)]
        exact ih hk.2 hc
  have nodup : ∀ {k : Memory}, k.wf → k.Pairwise (fun a b => a.1 < b.1) := fun hk => List.pairwise_map.1 hk
  refine List.Perm.eq_of_pairwise (fun a b _ _ h1 h2 => absurd h1 (by omega)) (nodup hm) (nodup hn) ?_
  refine (List.perm_ext_iff_of_nodup ?_ ?_).2 fun c => ⟨fun hc => ?_, fun hc => ?_⟩
  · exact (nodup hm).imp fun hab => by rintro rfl; omega
  · exact (nodup hn).imp fun hab => by rintro rfl; omega
  · exact Memory.mem_of_read ((h c.1).symm.trans (key hm hc))
  · exact Memory.mem_of_read ((h c.1).trans (key hn hc))

end Sys2Proof.Machine
end

