-- ==== Sys2Proof/Laws/State.lean ====
section
/-! SUPPORT. What each named update of State leaves in each field: one lemma per field per update, true by rfl. -/

namespace Sys2Proof.Machine

@[simp] theorem State.raise_code (s : State) (c : Code) : (s.raise c).code = c := rfl
@[simp] theorem State.raise_result (s : State) (c : Code) : (s.raise c).result = Result.zero := rfl
@[simp] theorem State.raise_opa (s : State) (c : Code) : (s.raise c).opa = s.opa := rfl
@[simp] theorem State.raise_opb (s : State) (c : Code) : (s.raise c).opb = s.opb := rfl
@[simp] theorem State.raise_res (s : State) (c : Code) : (s.raise c).res = s.res := rfl
@[simp] theorem State.raise_ilen (s : State) (c : Code) : (s.raise c).ilen = s.ilen := rfl
@[simp] theorem State.raise_olen (s : State) (c : Code) : (s.raise c).olen = s.olen := rfl
@[simp] theorem State.raise_gfM (s : State) (c : Code) : (s.raise c).gfM = s.gfM := rfl
@[simp] theorem State.raise_gfPoly (s : State) (c : Code) : (s.raise c).gfPoly = s.gfPoly := rfl
@[simp] theorem State.raise_crcWidth (s : State) (c : Code) : (s.raise c).crcWidth = s.crcWidth := rfl
@[simp] theorem State.raise_crcPoly (s : State) (c : Code) : (s.raise c).crcPoly = s.crcPoly := rfl
@[simp] theorem State.raise_crcInit (s : State) (c : Code) : (s.raise c).crcInit = s.crcInit := rfl
@[simp] theorem State.raise_crcXorout (s : State) (c : Code) : (s.raise c).crcXorout = s.crcXorout := rfl
@[simp] theorem State.raise_crcValid (s : State) (c : Code) : (s.raise c).crcValid = s.crcValid := rfl
@[simp] theorem State.raise_rsR (s : State) (c : Code) : (s.raise c).rsR = s.rsR := rfl
@[simp] theorem State.raise_bchT (s : State) (c : Code) : (s.raise c).bchT = s.bchT := rfl
@[simp] theorem State.raise_bchP (s : State) (c : Code) : (s.raise c).bchP = s.bchP := rfl
@[simp] theorem State.raise_tables (s : State) (c : Code) : (s.raise c).tables = s.tables := rfl
@[simp] theorem State.raise_rsGen (s : State) (c : Code) : (s.raise c).rsGen = s.rsGen := rfl
@[simp] theorem State.raise_bchGen (s : State) (c : Code) : (s.raise c).bchGen = s.bchGen := rfl
@[simp] theorem State.raise_ibuf (s : State) (c : Code) : (s.raise c).ibuf = s.ibuf := rfl
@[simp] theorem State.raise_obuf (s : State) (c : Code) : (s.raise c).obuf = s.obuf := rfl
@[simp] theorem State.raise_pending (s : State) (c : Code) : (s.raise c).pending = s.pending := rfl
@[simp] theorem State.raise_readData (s : State) (c : Code) : (s.raise c).readData = s.readData := rfl
@[simp] theorem State.raise_draws (s : State) (c : Code) : (s.raise c).draws = s.draws := rfl

@[simp] theorem State.completeWith_code (s : State) (r : Result) : (s.completeWith r).code = Code.ok := rfl
@[simp] theorem State.completeWith_result (s : State) (r : Result) : (s.completeWith r).result = r := rfl
@[simp] theorem State.completeWith_opa (s : State) (r : Result) : (s.completeWith r).opa = s.opa := rfl
@[simp] theorem State.completeWith_opb (s : State) (r : Result) : (s.completeWith r).opb = s.opb := rfl
@[simp] theorem State.completeWith_res (s : State) (r : Result) : (s.completeWith r).res = s.res := rfl
@[simp] theorem State.completeWith_ilen (s : State) (r : Result) : (s.completeWith r).ilen = s.ilen := rfl
@[simp] theorem State.completeWith_olen (s : State) (r : Result) : (s.completeWith r).olen = s.olen := rfl
@[simp] theorem State.completeWith_gfM (s : State) (r : Result) : (s.completeWith r).gfM = s.gfM := rfl
@[simp] theorem State.completeWith_gfPoly (s : State) (r : Result) : (s.completeWith r).gfPoly = s.gfPoly := rfl
@[simp] theorem State.completeWith_crcWidth (s : State) (r : Result) : (s.completeWith r).crcWidth = s.crcWidth := rfl
@[simp] theorem State.completeWith_crcPoly (s : State) (r : Result) : (s.completeWith r).crcPoly = s.crcPoly := rfl
@[simp] theorem State.completeWith_crcInit (s : State) (r : Result) : (s.completeWith r).crcInit = s.crcInit := rfl
@[simp] theorem State.completeWith_crcXorout (s : State) (r : Result) : (s.completeWith r).crcXorout = s.crcXorout := rfl
@[simp] theorem State.completeWith_crcValid (s : State) (r : Result) : (s.completeWith r).crcValid = s.crcValid := rfl
@[simp] theorem State.completeWith_rsR (s : State) (r : Result) : (s.completeWith r).rsR = s.rsR := rfl
@[simp] theorem State.completeWith_bchT (s : State) (r : Result) : (s.completeWith r).bchT = s.bchT := rfl
@[simp] theorem State.completeWith_bchP (s : State) (r : Result) : (s.completeWith r).bchP = s.bchP := rfl
@[simp] theorem State.completeWith_tables (s : State) (r : Result) : (s.completeWith r).tables = s.tables := rfl
@[simp] theorem State.completeWith_rsGen (s : State) (r : Result) : (s.completeWith r).rsGen = s.rsGen := rfl
@[simp] theorem State.completeWith_bchGen (s : State) (r : Result) : (s.completeWith r).bchGen = s.bchGen := rfl
@[simp] theorem State.completeWith_ibuf (s : State) (r : Result) : (s.completeWith r).ibuf = s.ibuf := rfl
@[simp] theorem State.completeWith_obuf (s : State) (r : Result) : (s.completeWith r).obuf = s.obuf := rfl
@[simp] theorem State.completeWith_pending (s : State) (r : Result) : (s.completeWith r).pending = s.pending := rfl
@[simp] theorem State.completeWith_readData (s : State) (r : Result) : (s.completeWith r).readData = s.readData := rfl
@[simp] theorem State.completeWith_draws (s : State) (r : Result) : (s.completeWith r).draws = s.draws := rfl

@[simp] theorem State.complete_code (s : State) : (s.complete).code = Code.ok := rfl
@[simp] theorem State.complete_result (s : State) : (s.complete).result = Result.zero := rfl
@[simp] theorem State.complete_opa (s : State) : (s.complete).opa = s.opa := rfl
@[simp] theorem State.complete_opb (s : State) : (s.complete).opb = s.opb := rfl
@[simp] theorem State.complete_res (s : State) : (s.complete).res = s.res := rfl
@[simp] theorem State.complete_ilen (s : State) : (s.complete).ilen = s.ilen := rfl
@[simp] theorem State.complete_olen (s : State) : (s.complete).olen = s.olen := rfl
@[simp] theorem State.complete_gfM (s : State) : (s.complete).gfM = s.gfM := rfl
@[simp] theorem State.complete_gfPoly (s : State) : (s.complete).gfPoly = s.gfPoly := rfl
@[simp] theorem State.complete_crcWidth (s : State) : (s.complete).crcWidth = s.crcWidth := rfl
@[simp] theorem State.complete_crcPoly (s : State) : (s.complete).crcPoly = s.crcPoly := rfl
@[simp] theorem State.complete_crcInit (s : State) : (s.complete).crcInit = s.crcInit := rfl
@[simp] theorem State.complete_crcXorout (s : State) : (s.complete).crcXorout = s.crcXorout := rfl
@[simp] theorem State.complete_crcValid (s : State) : (s.complete).crcValid = s.crcValid := rfl
@[simp] theorem State.complete_rsR (s : State) : (s.complete).rsR = s.rsR := rfl
@[simp] theorem State.complete_bchT (s : State) : (s.complete).bchT = s.bchT := rfl
@[simp] theorem State.complete_bchP (s : State) : (s.complete).bchP = s.bchP := rfl
@[simp] theorem State.complete_tables (s : State) : (s.complete).tables = s.tables := rfl
@[simp] theorem State.complete_rsGen (s : State) : (s.complete).rsGen = s.rsGen := rfl
@[simp] theorem State.complete_bchGen (s : State) : (s.complete).bchGen = s.bchGen := rfl
@[simp] theorem State.complete_ibuf (s : State) : (s.complete).ibuf = s.ibuf := rfl
@[simp] theorem State.complete_obuf (s : State) : (s.complete).obuf = s.obuf := rfl
@[simp] theorem State.complete_pending (s : State) : (s.complete).pending = s.pending := rfl
@[simp] theorem State.complete_readData (s : State) : (s.complete).readData = s.readData := rfl
@[simp] theorem State.complete_draws (s : State) : (s.complete).draws = s.draws := rfl

@[simp] theorem State.setRes_code (s : State) (v : Nat) : (s.setRes v).code = s.code := rfl
@[simp] theorem State.setRes_result (s : State) (v : Nat) : (s.setRes v).result = s.result := rfl
@[simp] theorem State.setRes_opa (s : State) (v : Nat) : (s.setRes v).opa = s.opa := rfl
@[simp] theorem State.setRes_opb (s : State) (v : Nat) : (s.setRes v).opb = s.opb := rfl
@[simp] theorem State.setRes_res (s : State) (v : Nat) : (s.setRes v).res = BitVec.ofNat 32 v := rfl
@[simp] theorem State.setRes_ilen (s : State) (v : Nat) : (s.setRes v).ilen = s.ilen := rfl
@[simp] theorem State.setRes_olen (s : State) (v : Nat) : (s.setRes v).olen = s.olen := rfl
@[simp] theorem State.setRes_gfM (s : State) (v : Nat) : (s.setRes v).gfM = s.gfM := rfl
@[simp] theorem State.setRes_gfPoly (s : State) (v : Nat) : (s.setRes v).gfPoly = s.gfPoly := rfl
@[simp] theorem State.setRes_crcWidth (s : State) (v : Nat) : (s.setRes v).crcWidth = s.crcWidth := rfl
@[simp] theorem State.setRes_crcPoly (s : State) (v : Nat) : (s.setRes v).crcPoly = s.crcPoly := rfl
@[simp] theorem State.setRes_crcInit (s : State) (v : Nat) : (s.setRes v).crcInit = s.crcInit := rfl
@[simp] theorem State.setRes_crcXorout (s : State) (v : Nat) : (s.setRes v).crcXorout = s.crcXorout := rfl
@[simp] theorem State.setRes_crcValid (s : State) (v : Nat) : (s.setRes v).crcValid = s.crcValid := rfl
@[simp] theorem State.setRes_rsR (s : State) (v : Nat) : (s.setRes v).rsR = s.rsR := rfl
@[simp] theorem State.setRes_bchT (s : State) (v : Nat) : (s.setRes v).bchT = s.bchT := rfl
@[simp] theorem State.setRes_bchP (s : State) (v : Nat) : (s.setRes v).bchP = s.bchP := rfl
@[simp] theorem State.setRes_tables (s : State) (v : Nat) : (s.setRes v).tables = s.tables := rfl
@[simp] theorem State.setRes_rsGen (s : State) (v : Nat) : (s.setRes v).rsGen = s.rsGen := rfl
@[simp] theorem State.setRes_bchGen (s : State) (v : Nat) : (s.setRes v).bchGen = s.bchGen := rfl
@[simp] theorem State.setRes_ibuf (s : State) (v : Nat) : (s.setRes v).ibuf = s.ibuf := rfl
@[simp] theorem State.setRes_obuf (s : State) (v : Nat) : (s.setRes v).obuf = s.obuf := rfl
@[simp] theorem State.setRes_pending (s : State) (v : Nat) : (s.setRes v).pending = s.pending := rfl
@[simp] theorem State.setRes_readData (s : State) (v : Nat) : (s.setRes v).readData = s.readData := rfl
@[simp] theorem State.setRes_draws (s : State) (v : Nat) : (s.setRes v).draws = s.draws := rfl

@[simp] theorem State.setOutput_code (s : State) (out : List Byte) : (s.setOutput out).code = s.code := rfl
@[simp] theorem State.setOutput_result (s : State) (out : List Byte) : (s.setOutput out).result = s.result := rfl
@[simp] theorem State.setOutput_opa (s : State) (out : List Byte) : (s.setOutput out).opa = s.opa := rfl
@[simp] theorem State.setOutput_opb (s : State) (out : List Byte) : (s.setOutput out).opb = s.opb := rfl
@[simp] theorem State.setOutput_res (s : State) (out : List Byte) : (s.setOutput out).res = s.res := rfl
@[simp] theorem State.setOutput_ilen (s : State) (out : List Byte) : (s.setOutput out).ilen = s.ilen := rfl
@[simp] theorem State.setOutput_olen (s : State) (out : List Byte) : (s.setOutput out).olen = BitVec.ofNat 32 out.length := rfl
@[simp] theorem State.setOutput_gfM (s : State) (out : List Byte) : (s.setOutput out).gfM = s.gfM := rfl
@[simp] theorem State.setOutput_gfPoly (s : State) (out : List Byte) : (s.setOutput out).gfPoly = s.gfPoly := rfl
@[simp] theorem State.setOutput_crcWidth (s : State) (out : List Byte) : (s.setOutput out).crcWidth = s.crcWidth := rfl
@[simp] theorem State.setOutput_crcPoly (s : State) (out : List Byte) : (s.setOutput out).crcPoly = s.crcPoly := rfl
@[simp] theorem State.setOutput_crcInit (s : State) (out : List Byte) : (s.setOutput out).crcInit = s.crcInit := rfl
@[simp] theorem State.setOutput_crcXorout (s : State) (out : List Byte) : (s.setOutput out).crcXorout = s.crcXorout := rfl
@[simp] theorem State.setOutput_crcValid (s : State) (out : List Byte) : (s.setOutput out).crcValid = s.crcValid := rfl
@[simp] theorem State.setOutput_rsR (s : State) (out : List Byte) : (s.setOutput out).rsR = s.rsR := rfl
@[simp] theorem State.setOutput_bchT (s : State) (out : List Byte) : (s.setOutput out).bchT = s.bchT := rfl
@[simp] theorem State.setOutput_bchP (s : State) (out : List Byte) : (s.setOutput out).bchP = s.bchP := rfl
@[simp] theorem State.setOutput_tables (s : State) (out : List Byte) : (s.setOutput out).tables = s.tables := rfl
@[simp] theorem State.setOutput_rsGen (s : State) (out : List Byte) : (s.setOutput out).rsGen = s.rsGen := rfl
@[simp] theorem State.setOutput_bchGen (s : State) (out : List Byte) : (s.setOutput out).bchGen = s.bchGen := rfl
@[simp] theorem State.setOutput_ibuf (s : State) (out : List Byte) : (s.setOutput out).ibuf = s.ibuf := rfl
@[simp] theorem State.setOutput_obuf (s : State) (out : List Byte) : (s.setOutput out).obuf = Memory.ofBytes out := rfl
@[simp] theorem State.setOutput_pending (s : State) (out : List Byte) : (s.setOutput out).pending = s.pending := rfl
@[simp] theorem State.setOutput_readData (s : State) (out : List Byte) : (s.setOutput out).readData = s.readData := rfl
@[simp] theorem State.setOutput_draws (s : State) (out : List Byte) : (s.setOutput out).draws = s.draws := rfl

@[simp] theorem State.clearField_code (s : State) : (s.clearField).code = s.code := rfl
@[simp] theorem State.clearField_result (s : State) : (s.clearField).result = s.result := rfl
@[simp] theorem State.clearField_opa (s : State) : (s.clearField).opa = s.opa := rfl
@[simp] theorem State.clearField_opb (s : State) : (s.clearField).opb = s.opb := rfl
@[simp] theorem State.clearField_res (s : State) : (s.clearField).res = s.res := rfl
@[simp] theorem State.clearField_ilen (s : State) : (s.clearField).ilen = s.ilen := rfl
@[simp] theorem State.clearField_olen (s : State) : (s.clearField).olen = s.olen := rfl
@[simp] theorem State.clearField_gfM (s : State) : (s.clearField).gfM = s.gfM := rfl
@[simp] theorem State.clearField_gfPoly (s : State) : (s.clearField).gfPoly = s.gfPoly := rfl
@[simp] theorem State.clearField_crcWidth (s : State) : (s.clearField).crcWidth = s.crcWidth := rfl
@[simp] theorem State.clearField_crcPoly (s : State) : (s.clearField).crcPoly = s.crcPoly := rfl
@[simp] theorem State.clearField_crcInit (s : State) : (s.clearField).crcInit = s.crcInit := rfl
@[simp] theorem State.clearField_crcXorout (s : State) : (s.clearField).crcXorout = s.crcXorout := rfl
@[simp] theorem State.clearField_crcValid (s : State) : (s.clearField).crcValid = s.crcValid := rfl
@[simp] theorem State.clearField_rsR (s : State) : (s.clearField).rsR = s.rsR := rfl
@[simp] theorem State.clearField_bchT (s : State) : (s.clearField).bchT = s.bchT := rfl
@[simp] theorem State.clearField_bchP (s : State) : (s.clearField).bchP = s.bchP := rfl
@[simp] theorem State.clearField_tables (s : State) : (s.clearField).tables = none := rfl
@[simp] theorem State.clearField_rsGen (s : State) : (s.clearField).rsGen = none := rfl
@[simp] theorem State.clearField_bchGen (s : State) : (s.clearField).bchGen = none := rfl
@[simp] theorem State.clearField_ibuf (s : State) : (s.clearField).ibuf = s.ibuf := rfl
@[simp] theorem State.clearField_obuf (s : State) : (s.clearField).obuf = s.obuf := rfl
@[simp] theorem State.clearField_pending (s : State) : (s.clearField).pending = s.pending := rfl
@[simp] theorem State.clearField_readData (s : State) : (s.clearField).readData = s.readData := rfl
@[simp] theorem State.clearField_draws (s : State) : (s.clearField).draws = s.draws := rfl

@[simp] theorem State.clearCrc_code (s : State) : (s.clearCrc).code = s.code := rfl
@[simp] theorem State.clearCrc_result (s : State) : (s.clearCrc).result = s.result := rfl
@[simp] theorem State.clearCrc_opa (s : State) : (s.clearCrc).opa = s.opa := rfl
@[simp] theorem State.clearCrc_opb (s : State) : (s.clearCrc).opb = s.opb := rfl
@[simp] theorem State.clearCrc_res (s : State) : (s.clearCrc).res = s.res := rfl
@[simp] theorem State.clearCrc_ilen (s : State) : (s.clearCrc).ilen = s.ilen := rfl
@[simp] theorem State.clearCrc_olen (s : State) : (s.clearCrc).olen = s.olen := rfl
@[simp] theorem State.clearCrc_gfM (s : State) : (s.clearCrc).gfM = s.gfM := rfl
@[simp] theorem State.clearCrc_gfPoly (s : State) : (s.clearCrc).gfPoly = s.gfPoly := rfl
@[simp] theorem State.clearCrc_crcWidth (s : State) : (s.clearCrc).crcWidth = s.crcWidth := rfl
@[simp] theorem State.clearCrc_crcPoly (s : State) : (s.clearCrc).crcPoly = s.crcPoly := rfl
@[simp] theorem State.clearCrc_crcInit (s : State) : (s.clearCrc).crcInit = s.crcInit := rfl
@[simp] theorem State.clearCrc_crcXorout (s : State) : (s.clearCrc).crcXorout = s.crcXorout := rfl
@[simp] theorem State.clearCrc_crcValid (s : State) : (s.clearCrc).crcValid = false := rfl
@[simp] theorem State.clearCrc_rsR (s : State) : (s.clearCrc).rsR = s.rsR := rfl
@[simp] theorem State.clearCrc_bchT (s : State) : (s.clearCrc).bchT = s.bchT := rfl
@[simp] theorem State.clearCrc_bchP (s : State) : (s.clearCrc).bchP = s.bchP := rfl
@[simp] theorem State.clearCrc_tables (s : State) : (s.clearCrc).tables = s.tables := rfl
@[simp] theorem State.clearCrc_rsGen (s : State) : (s.clearCrc).rsGen = s.rsGen := rfl
@[simp] theorem State.clearCrc_bchGen (s : State) : (s.clearCrc).bchGen = s.bchGen := rfl
@[simp] theorem State.clearCrc_ibuf (s : State) : (s.clearCrc).ibuf = s.ibuf := rfl
@[simp] theorem State.clearCrc_obuf (s : State) : (s.clearCrc).obuf = s.obuf := rfl
@[simp] theorem State.clearCrc_pending (s : State) : (s.clearCrc).pending = s.pending := rfl
@[simp] theorem State.clearCrc_readData (s : State) : (s.clearCrc).readData = s.readData := rfl
@[simp] theorem State.clearCrc_draws (s : State) : (s.clearCrc).draws = s.draws := rfl

@[simp] theorem State.clearRs_code (s : State) : (s.clearRs).code = s.code := rfl
@[simp] theorem State.clearRs_result (s : State) : (s.clearRs).result = s.result := rfl
@[simp] theorem State.clearRs_opa (s : State) : (s.clearRs).opa = s.opa := rfl
@[simp] theorem State.clearRs_opb (s : State) : (s.clearRs).opb = s.opb := rfl
@[simp] theorem State.clearRs_res (s : State) : (s.clearRs).res = s.res := rfl
@[simp] theorem State.clearRs_ilen (s : State) : (s.clearRs).ilen = s.ilen := rfl
@[simp] theorem State.clearRs_olen (s : State) : (s.clearRs).olen = s.olen := rfl
@[simp] theorem State.clearRs_gfM (s : State) : (s.clearRs).gfM = s.gfM := rfl
@[simp] theorem State.clearRs_gfPoly (s : State) : (s.clearRs).gfPoly = s.gfPoly := rfl
@[simp] theorem State.clearRs_crcWidth (s : State) : (s.clearRs).crcWidth = s.crcWidth := rfl
@[simp] theorem State.clearRs_crcPoly (s : State) : (s.clearRs).crcPoly = s.crcPoly := rfl
@[simp] theorem State.clearRs_crcInit (s : State) : (s.clearRs).crcInit = s.crcInit := rfl
@[simp] theorem State.clearRs_crcXorout (s : State) : (s.clearRs).crcXorout = s.crcXorout := rfl
@[simp] theorem State.clearRs_crcValid (s : State) : (s.clearRs).crcValid = s.crcValid := rfl
@[simp] theorem State.clearRs_rsR (s : State) : (s.clearRs).rsR = s.rsR := rfl
@[simp] theorem State.clearRs_bchT (s : State) : (s.clearRs).bchT = s.bchT := rfl
@[simp] theorem State.clearRs_bchP (s : State) : (s.clearRs).bchP = s.bchP := rfl
@[simp] theorem State.clearRs_tables (s : State) : (s.clearRs).tables = s.tables := rfl
@[simp] theorem State.clearRs_rsGen (s : State) : (s.clearRs).rsGen = none := rfl
@[simp] theorem State.clearRs_bchGen (s : State) : (s.clearRs).bchGen = s.bchGen := rfl
@[simp] theorem State.clearRs_ibuf (s : State) : (s.clearRs).ibuf = s.ibuf := rfl
@[simp] theorem State.clearRs_obuf (s : State) : (s.clearRs).obuf = s.obuf := rfl
@[simp] theorem State.clearRs_pending (s : State) : (s.clearRs).pending = s.pending := rfl
@[simp] theorem State.clearRs_readData (s : State) : (s.clearRs).readData = s.readData := rfl
@[simp] theorem State.clearRs_draws (s : State) : (s.clearRs).draws = s.draws := rfl

@[simp] theorem State.clearBch_code (s : State) : (s.clearBch).code = s.code := rfl
@[simp] theorem State.clearBch_result (s : State) : (s.clearBch).result = s.result := rfl
@[simp] theorem State.clearBch_opa (s : State) : (s.clearBch).opa = s.opa := rfl
@[simp] theorem State.clearBch_opb (s : State) : (s.clearBch).opb = s.opb := rfl
@[simp] theorem State.clearBch_res (s : State) : (s.clearBch).res = s.res := rfl
@[simp] theorem State.clearBch_ilen (s : State) : (s.clearBch).ilen = s.ilen := rfl
@[simp] theorem State.clearBch_olen (s : State) : (s.clearBch).olen = s.olen := rfl
@[simp] theorem State.clearBch_gfM (s : State) : (s.clearBch).gfM = s.gfM := rfl
@[simp] theorem State.clearBch_gfPoly (s : State) : (s.clearBch).gfPoly = s.gfPoly := rfl
@[simp] theorem State.clearBch_crcWidth (s : State) : (s.clearBch).crcWidth = s.crcWidth := rfl
@[simp] theorem State.clearBch_crcPoly (s : State) : (s.clearBch).crcPoly = s.crcPoly := rfl
@[simp] theorem State.clearBch_crcInit (s : State) : (s.clearBch).crcInit = s.crcInit := rfl
@[simp] theorem State.clearBch_crcXorout (s : State) : (s.clearBch).crcXorout = s.crcXorout := rfl
@[simp] theorem State.clearBch_crcValid (s : State) : (s.clearBch).crcValid = s.crcValid := rfl
@[simp] theorem State.clearBch_rsR (s : State) : (s.clearBch).rsR = s.rsR := rfl
@[simp] theorem State.clearBch_bchT (s : State) : (s.clearBch).bchT = s.bchT := rfl
@[simp] theorem State.clearBch_bchP (s : State) : (s.clearBch).bchP = s.bchP := rfl
@[simp] theorem State.clearBch_tables (s : State) : (s.clearBch).tables = s.tables := rfl
@[simp] theorem State.clearBch_rsGen (s : State) : (s.clearBch).rsGen = s.rsGen := rfl
@[simp] theorem State.clearBch_bchGen (s : State) : (s.clearBch).bchGen = none := rfl
@[simp] theorem State.clearBch_ibuf (s : State) : (s.clearBch).ibuf = s.ibuf := rfl
@[simp] theorem State.clearBch_obuf (s : State) : (s.clearBch).obuf = s.obuf := rfl
@[simp] theorem State.clearBch_pending (s : State) : (s.clearBch).pending = s.pending := rfl
@[simp] theorem State.clearBch_readData (s : State) : (s.clearBch).readData = s.readData := rfl
@[simp] theorem State.clearBch_draws (s : State) : (s.clearBch).draws = s.draws := rfl

@[simp] theorem State.forgetBchP_code (s : State) : (s.forgetBchP).code = s.code := rfl
@[simp] theorem State.forgetBchP_result (s : State) : (s.forgetBchP).result = s.result := rfl
@[simp] theorem State.forgetBchP_opa (s : State) : (s.forgetBchP).opa = s.opa := rfl
@[simp] theorem State.forgetBchP_opb (s : State) : (s.forgetBchP).opb = s.opb := rfl
@[simp] theorem State.forgetBchP_res (s : State) : (s.forgetBchP).res = s.res := rfl
@[simp] theorem State.forgetBchP_ilen (s : State) : (s.forgetBchP).ilen = s.ilen := rfl
@[simp] theorem State.forgetBchP_olen (s : State) : (s.forgetBchP).olen = s.olen := rfl
@[simp] theorem State.forgetBchP_gfM (s : State) : (s.forgetBchP).gfM = s.gfM := rfl
@[simp] theorem State.forgetBchP_gfPoly (s : State) : (s.forgetBchP).gfPoly = s.gfPoly := rfl
@[simp] theorem State.forgetBchP_crcWidth (s : State) : (s.forgetBchP).crcWidth = s.crcWidth := rfl
@[simp] theorem State.forgetBchP_crcPoly (s : State) : (s.forgetBchP).crcPoly = s.crcPoly := rfl
@[simp] theorem State.forgetBchP_crcInit (s : State) : (s.forgetBchP).crcInit = s.crcInit := rfl
@[simp] theorem State.forgetBchP_crcXorout (s : State) : (s.forgetBchP).crcXorout = s.crcXorout := rfl
@[simp] theorem State.forgetBchP_crcValid (s : State) : (s.forgetBchP).crcValid = s.crcValid := rfl
@[simp] theorem State.forgetBchP_rsR (s : State) : (s.forgetBchP).rsR = s.rsR := rfl
@[simp] theorem State.forgetBchP_bchT (s : State) : (s.forgetBchP).bchT = s.bchT := rfl
@[simp] theorem State.forgetBchP_bchP (s : State) : (s.forgetBchP).bchP = none := rfl
@[simp] theorem State.forgetBchP_tables (s : State) : (s.forgetBchP).tables = s.tables := rfl
@[simp] theorem State.forgetBchP_rsGen (s : State) : (s.forgetBchP).rsGen = s.rsGen := rfl
@[simp] theorem State.forgetBchP_bchGen (s : State) : (s.forgetBchP).bchGen = s.bchGen := rfl
@[simp] theorem State.forgetBchP_ibuf (s : State) : (s.forgetBchP).ibuf = s.ibuf := rfl
@[simp] theorem State.forgetBchP_obuf (s : State) : (s.forgetBchP).obuf = s.obuf := rfl
@[simp] theorem State.forgetBchP_pending (s : State) : (s.forgetBchP).pending = s.pending := rfl
@[simp] theorem State.forgetBchP_readData (s : State) : (s.forgetBchP).readData = s.readData := rfl
@[simp] theorem State.forgetBchP_draws (s : State) : (s.forgetBchP).draws = s.draws := rfl

end Sys2Proof.Machine
end

