-- ==== Sys2Proof/Laws/Commands.lean ====
section
/-! SUPPORT. What each shared check and each command can do, said once: if it answers a next state, which one of which shapes;
if it stops, why. Rules about every command are read off these. -/

namespace Sys2Proof.Machine

/-! ## The shared checks -/

theorem withField_none {s : State} (h : s.field = none) (k : Field → Effect) :
    withField s k = .next (s.raise .errNotConfigured) := by simp [withField, h]

theorem withField_some {s : State} {F : Field} (h : s.field = some F) (k : Field → Effect) : withField s k = k F := by
  simp [withField, h]

theorem withRs_none {s : State} (h : s.rsGen = none) (k : Field → List Nat → Effect) :
    withRs s k = .next (s.raise .errNotConfigured) := by simp [withRs, h]

theorem withRs_some {s : State} {F : Field} {g : List Nat} (hF : s.field = some F) (hg : s.rsGen = some g)
    (k : Field → List Nat → Effect) : withRs s k = k F g := by simp [withRs, hF, hg]

theorem withBch_none {s : State} (h : s.bchGen = none) (k : Field → Nat → Nat → Effect) :
    withBch s k = .next (s.raise .errNotConfigured) := by simp [withBch, h]

theorem withBch_some {s : State} {F : Field} {g : Nat} {p : Word} (hF : s.field = some F) (hg : s.bchGen = some g)
    (hp : s.bchP = some p) (k : Field → Nat → Nat → Effect) : withBch s k = k F g p.toNat := by
  simp [withBch, hF, hg, hp]

theorem withInput_none {s : State} (h : s.ibuf.readRange 0 s.ilen.toNat = none) (k : List Byte → Effect) :
    withInput s k = .fault .unwrittenInput := by simp [withInput, h]

theorem withInput_some {s : State} {D : List Byte} (h : s.ibuf.readRange 0 s.ilen.toNat = some D)
    (k : List Byte → Effect) : withInput s k = k D := by simp [withInput, h]

theorem allSymbols_iff {F : Field} {D : List Byte} : allSymbols F D = true ↔ ∀ b ∈ D, b.toNat < F.size := by
  simp [allSymbols]

/-- The bytes of the symbols of a byte sequence. -/
theorem map_symbolByte_symbols (D : List Byte) : (symbols D).map symbolByte = D := by
  have : symbolByte ∘ BitVec.toNat = (id : Byte → Byte) := by funext b; simp [symbolByte]
  rw [symbols, List.map_map, this, List.map_id]

/-- Where the field is absent the command raises; otherwise it goes on with the field. -/
theorem withField_cases (s : State) (k : Field → Effect) :
    (s.field = none ∧ withField s k = .next (s.raise .errNotConfigured)) ∨
    ∃ F, s.field = some F ∧ withField s k = k F := by
  unfold withField
  cases h : s.field with
  | none => exact .inl ⟨rfl, rfl⟩
  | some F => exact .inr ⟨F, rfl, rfl⟩

theorem withRs_cases (s : State) (k : Field → List Nat → Effect) :
    (s.rsGen = none ∧ withRs s k = .next (s.raise .errNotConfigured)) ∨
    (s.rsGen ≠ none ∧ s.field = none ∧ withRs s k = .fault .absentTable) ∨
    ∃ F g, s.field = some F ∧ s.rsGen = some g ∧ withRs s k = k F g := by
  unfold withRs
  cases h : s.rsGen with
  | none => exact .inl ⟨rfl, rfl⟩
  | some g =>
    cases hF : s.field with
    | none => exact .inr (.inl ⟨by simp, rfl, rfl⟩)
    | some F => exact .inr (.inr ⟨F, g, rfl, rfl, rfl⟩)

theorem withBch_cases (s : State) (k : Field → Nat → Nat → Effect) :
    (s.bchGen = none ∧ withBch s k = .next (s.raise .errNotConfigured)) ∨
    (s.bchGen ≠ none ∧ (s.bchP = none ∨ s.field = none) ∧ withBch s k = .fault .absentTable) ∨
    ∃ F g p, s.field = some F ∧ s.bchGen = some g ∧ s.bchP = some p ∧ withBch s k = k F g p.toNat := by
  unfold withBch
  cases h : s.bchGen with
  | none => exact .inl ⟨rfl, rfl⟩
  | some g =>
    cases hp : s.bchP with
    | none => exact .inr (.inl ⟨by simp, .inl rfl, rfl⟩)
    | some p =>
      cases hF : s.field with
      | none => exact .inr (.inl ⟨by simp, .inr rfl, rfl⟩)
      | some F => exact .inr (.inr ⟨F, g, p, rfl, rfl, rfl, rfl⟩)

theorem withInput_cases (s : State) (k : List Byte → Effect) :
    (s.ibuf.readRange 0 s.ilen.toNat = none ∧ withInput s k = .fault .unwrittenInput) ∨
    ∃ D, s.ibuf.readRange 0 s.ilen.toNat = some D ∧ withInput s k = k D := by
  unfold withInput
  cases h : s.ibuf.readRange 0 s.ilen.toNat with
  | none => exact .inl ⟨rfl, rfl⟩
  | some D => exact .inr ⟨D, rfl, rfl⟩

theorem withCrcInput_cases (s : State) (k : List Byte → Effect) :
    (s.crcValid = false ∧ withCrcInput s k = .next (s.raise .errNotConfigured)) ∨
    (s.crcValid = true ∧ s.ilen.toNat = 0 ∧ withCrcInput s k = .next (s.raise .errEmpty)) ∨
    (s.crcValid = true ∧ Config.bufBytes < s.ilen.toNat ∧ withCrcInput s k = .next (s.raise .errLength)) ∨
    (s.crcValid = true ∧ s.ilen.toNat ≠ 0 ∧ s.ilen.toNat ≤ Config.bufBytes ∧ withCrcInput s k = withInput s k) := by
  unfold withCrcInput
  by_cases h1 : s.crcValid = false
  · exact .inl ⟨h1, by simp [h1]⟩
  · have h1' : s.crcValid = true := by simpa using h1
    by_cases h2 : s.ilen.toNat = 0
    · exact .inr (.inl ⟨h1', h2, by simp [h1', h2]⟩)
    · by_cases h3 : Config.bufBytes < s.ilen.toNat
      · exact .inr (.inr (.inl ⟨h1', h3, by simp only [h1', h2, h3, if_true, if_false, Bool.true_eq_false]⟩))
      · exact .inr (.inr (.inr ⟨h1', h2, by omega, by simp only [h1', h2, h3, if_false, Bool.true_eq_false]⟩))

/-! ## The only code a field function raises -/

theorem Field.inv_error {F : Field} {a : Nat} {c : Code} (h : F.inv a = .error c) : a = 0 ∧ c = .errDiv0 := by
  unfold Field.inv at h
  split at h
  · exact ⟨‹_›, by simpa using h.symm⟩
  · simp at h

theorem Field.inv_ok {F : Field} {a : Nat} (h : a ≠ 0) :
    F.inv a = .ok (F.alogOf ((F.order - F.logOf a) % F.order)) := by simp [Field.inv, h]

theorem Field.div_error {F : Field} {a b : Nat} {c : Code} (h : F.div a b = .error c) : b = 0 ∧ c = .errDiv0 := by
  unfold Field.div at h
  split at h
  · next c' hc' =>
    obtain ⟨rfl, rfl⟩ := Field.inv_error hc'
    exact ⟨rfl, by simpa using h.symm⟩
  · simp at h

theorem Field.div_ok {F : Field} {a b : Nat} (h : b ≠ 0) : ∃ q, F.div a b = .ok q := by
  simp [Field.div, Field.inv_ok h]

theorem bmStep_error {F : Field} {S : List Nat} {Ns j : Nat} {st : BmState} {c : Code}
    (h : bmStep F S Ns st j = .error c) : c = .errDiv0 := by
  simp only [bmStep] at h
  split at h
  · simp at h
  · split at h
    · next _ _ hc => obtain ⟨-, rfl⟩ := Field.div_error hc; simpa using h.symm
    · split at h <;> simp at h

theorem bmLoop_error {F : Field} {S : List Nat} {Ns : Nat} {js : List Nat} {st : BmState} {c : Code}
    (h : bmLoop F S Ns js st = .error c) : c = .errDiv0 := by
  induction js generalizing st with
  | nil => simp [bmLoop] at h
  | cons j js ih =>
    simp only [bmLoop] at h
    split at h
    · next _ hc => have := bmStep_error hc; simp_all
    · exact ih h

theorem bm_error {F : Field} {S : List Nat} {Ns : Nat} {c : Code} (h : bm F S Ns = .error c) : c = .errDiv0 := by
  simp only [bm] at h
  split at h
  · next _ hc => have := bmLoop_error hc; simp_all
  · simp at h

theorem rootPositions_error {F : Field} {lam : List Nat} {d n : Nat} {is : List Nat} {c : Code}
    (h : rootPositions F lam d n is = .error c) : c = .errDiv0 := by
  induction is with
  | nil => simp [rootPositions] at h
  | cons i is ih =>
    simp only [rootPositions] at h
    split at h
    · next _ _ hc => obtain ⟨-, rfl⟩ := Field.inv_error hc; simpa using h.symm
    · next _ _ hc => simp only [Except.error.injEq] at h; subst h; exact ih hc
    · simp at h

theorem locateErrors_error {F : Field} {S : List Nat} {Ns t n : Nat} {c : Code}
    (h : locateErrors F S Ns t n = .error c) : c = .errDiv0 := by
  simp only [locateErrors] at h
  split at h
  · next _ hc => have := bm_error hc; simp_all
  · split at h
    · simp at h
    · split at h
      · next _ hc => have := rootPositions_error hc; simp_all
      · split at h <;> simp at h

theorem rsMagnitude_error {F : Field} {r : Nat} {S lam : List Nat} {d X : Nat} {c : Code}
    (h : rsMagnitude F r S lam d X = .error c) : c = .errDiv0 := by
  simp only [rsMagnitude] at h
  split at h
  · next _ hc => have := (Field.inv_error hc).2; simp_all
  · split at h
    · next _ hc => have := (Field.div_error hc).2; simp_all
    · simp at h

theorem rsCorrect_error {F : Field} {r n : Nat} {S lam : List Nat} {d : Nat} {pos e : List Nat} {c : Code}
    (h : rsCorrect F r n S lam d pos e = .error c) : c = .errDiv0 := by
  induction pos generalizing e with
  | nil => simp [rsCorrect] at h
  | cons i is ih =>
    simp only [rsCorrect] at h
    split at h
    · next _ hc => have := rsMagnitude_error hc; simp_all
    · exact ih h

theorem rsCorrect_length {F : Field} {r n : Nat} {S lam : List Nat} {d : Nat} {pos e e' : List Nat}
    (h : rsCorrect F r n S lam d pos e = .ok e') : e'.length = e.length := by
  induction pos generalizing e with
  | nil => simp only [rsCorrect, Except.ok.injEq] at h; rw [h]
  | cons i is ih =>
    simp only [rsCorrect] at h
    split at h
    · simp at h
    · rw [ih h, List.length_modify]

theorem rsDecode_error {F : Field} {r : Nat} {w : List Nat} {c : Code} (h : rsDecode F r w = .error c) :
    c = .errDiv0 := by
  simp only [rsDecode] at h
  split at h
  · simp at h
  · split at h
    · next _ hc => have := locateErrors_error hc; simp_all
    · simp at h
    · split at h
      · next _ hc => have := rsCorrect_error hc; simp_all
      · simp at h

theorem bchDecode_error {F : Field} {t p k : Nat} {D : List Byte} {c : Code} (h : bchDecode F t p k D = .error c) :
    c = .errDiv0 := by
  simp only [bchDecode] at h
  split at h
  · simp at h
  · split at h
    · next _ hc => have := locateErrors_error hc; simp_all
    · simp at h
    · simp at h

/-- The payload a decode result carries. -/
def Decoded.payload : Decoded → List Byte
  | .clean p => p
  | .corrected p => p
  | .uncorrectable => []

theorem rsDecode_payload_length {F : Field} {r : Nat} {w : List Nat} {o : Decoded} (h : rsDecode F r w = .ok o) :
    o.payload.length ≤ w.length - r := by
  simp only [rsDecode] at h
  split at h
  · simp only [Except.ok.injEq] at h; subst h; simp [Decoded.payload]
  · split at h
    · simp at h
    · simp only [Except.ok.injEq] at h; subst h; simp [Decoded.payload]
    · split at h
      · simp at h
      · simp only [Except.ok.injEq] at h; subst h; simp [Decoded.payload]

theorem bchDecode_payload_length {F : Field} {t p k : Nat} {D : List Byte} {o : Decoded}
    (h : bchDecode F t p k D = .ok o) : o.payload.length ≤ k := by
  simp only [bchDecode] at h
  split at h
  · simp only [Except.ok.injEq] at h; subst h; simp [Decoded.payload]
  · split at h
    · simp at h
    · simp only [Except.ok.injEq] at h; subst h; simp [Decoded.payload]
    · simp only [Except.ok.injEq] at h; subst h; simp [Decoded.payload]

/-- A decode result as an output and a `RESULT`. -/
theorem State.reportDecode_eq (o : Decoded) (s : State) :
    ∃ r, s.reportDecode o = (s.setOutput o.payload).completeWith r ∧
      (r = Result.clean ∨ r = Result.repaired ∨ (r = Result.gaveUp ∧ o.payload = [])) := by
  cases o with
  | clean p => exact ⟨_, rfl, .inl rfl⟩
  | corrected p => exact ⟨_, rfl, .inr (.inl rfl)⟩
  | uncorrectable => exact ⟨_, rfl, .inr (.inr ⟨rfl, rfl⟩)⟩

theorem buildTables_error {m P : Nat} {c : Code} (h : buildTables m P = .error c) :
    c = .errConfig ∨ c = .errInvalidPoly := by
  unfold buildTables at h
  split at h
  · exact .inl (by simpa using h.symm)
  · split at h
    · exact .inr (by simpa using h.symm)
    · split at h
      · exact .inr (by simpa using h.symm)
      · split at h
        · exact .inr (by simpa using h.symm)
        · simp at h

/-! ## The commands -/

/-- Closes the alternatives in which an effect is no next state. -/
theorem next_inj {s t : State} (h : (Host.Outcome.next s : Effect) = .next t) : t = s := by
  cases h; rfl

theorem execGfBuild_cases (s : State) :
    (∃ c, (c = .errConfig ∨ c = .errInvalidPoly) ∧ buildTables s.gfM.toNat s.gfPoly.toNat = .error c ∧
      execGfBuild s = .next (s.clearField.raise c)) ∨
    ∃ T, buildTables s.gfM.toNat s.gfPoly.toNat = .ok T ∧
      execGfBuild s = .next { s.clearField with tables := some T }.complete := by
  unfold execGfBuild
  cases h : buildTables s.gfM.toNat s.gfPoly.toNat with
  | error c => exact .inl ⟨c, buildTables_error h, rfl, rfl⟩
  | ok T => exact .inr ⟨T, rfl, rfl⟩

/-- The shape of the five arithmetic and lookup commands: a code raised, or `RES` written. -/
def gfShape (s : State) (e : Effect) : Prop :=
  (∃ c, (c = .errNotConfigured ∨ c = .errOperand ∨ c = .errDiv0) ∧ e = .next (s.raise c)) ∨
  ∃ v, e = .next (s.setRes v).complete

theorem execGfMul_cases (s : State) :
    ((s.field = none ∧ execGfMul s = .next (s.raise .errNotConfigured)) ∨
      (execGfMul s = .next (s.raise .errOperand))) ∨
    ∃ v, execGfMul s = .next (s.setRes v).complete := by
  unfold execGfMul
  rcases withField_cases s _ with ⟨h, e⟩ | ⟨F, h, e⟩ <;> rw [e]
  · exact .inl (.inl ⟨h, rfl⟩)
  · split
    · exact .inl (.inr rfl)
    · exact .inr ⟨_, rfl⟩

theorem execGfMul_shape (s : State) : gfShape s (execGfMul s) := by
  rcases execGfMul_cases s with (⟨-, h⟩ | h) | h
  · exact .inl ⟨_, by simp, h⟩
  · exact .inl ⟨_, by simp, h⟩
  · exact .inr h

theorem execGfInv_shape (s : State) : gfShape s (execGfInv s) := by
  unfold execGfInv
  rcases withField_cases s _ with ⟨-, e⟩ | ⟨F, -, e⟩ <;> rw [e]
  · exact .inl ⟨_, by simp, rfl⟩
  · split
    · exact .inl ⟨_, by simp, rfl⟩
    · split
      · next _ hc => exact .inl ⟨_, by simp [(Field.inv_error hc).2], rfl⟩
      · exact .inr ⟨_, rfl⟩

theorem execGfPow_cases (s : State) :
    (execGfPow s = .next (s.raise .errNotConfigured) ∨ execGfPow s = .next (s.raise .errOperand)) ∨
    ∃ v, execGfPow s = .next (s.setRes v).complete := by
  unfold execGfPow
  rcases withField_cases s _ with ⟨-, e⟩ | ⟨F, -, e⟩ <;> rw [e]
  · exact .inl (.inl rfl)
  · split
    · exact .inl (.inr rfl)
    · exact .inr ⟨_, rfl⟩

theorem execGfPow_shape (s : State) : gfShape s (execGfPow s) := by
  rcases execGfPow_cases s with (h | h) | h
  · exact .inl ⟨_, by simp, h⟩
  · exact .inl ⟨_, by simp, h⟩
  · exact .inr h

theorem execGfLog_shape (s : State) : gfShape s (execGfLog s) := by
  unfold execGfLog
  rcases withField_cases s _ with ⟨-, e⟩ | ⟨F, -, e⟩ <;> rw [e]
  · exact .inl ⟨_, by simp, rfl⟩
  · split
    · exact .inl ⟨_, by simp, rfl⟩
    · split
      · exact .inl ⟨_, by simp, rfl⟩
      · exact .inr ⟨_, rfl⟩

theorem execGfAlog_cases (s : State) :
    (execGfAlog s = .next (s.raise .errNotConfigured) ∨ execGfAlog s = .next (s.raise .errOperand)) ∨
    ∃ v, execGfAlog s = .next (s.setRes v).complete := by
  unfold execGfAlog
  rcases withField_cases s _ with ⟨-, e⟩ | ⟨F, -, e⟩ <;> rw [e]
  · exact .inl (.inl rfl)
  · split
    · exact .inl (.inr rfl)
    · exact .inr ⟨_, rfl⟩

theorem execGfAlog_shape (s : State) : gfShape s (execGfAlog s) := by
  rcases execGfAlog_cases s with (h | h) | h
  · exact .inl ⟨_, by simp, h⟩
  · exact .inl ⟨_, by simp, h⟩
  · exact .inr h

theorem execCrcCfg_cases (s : State) :
    (s.crcConfigLegal = true ∧ execCrcCfg s = .next { s.clearCrc with crcValid := true }.complete) ∨
    (s.crcConfigLegal = false ∧ execCrcCfg s = .next (s.clearCrc.raise .errConfig)) := by
  unfold execCrcCfg
  cases h : s.crcConfigLegal
  · exact .inr ⟨rfl, rfl⟩
  · exact .inl ⟨rfl, rfl⟩

/-- Why a command that reads `IBUF` raised or stopped before its input was read. -/
def inputCode (c : Code) : Prop := c = .errNotConfigured ∨ c = .errEmpty ∨ c = .errLength

theorem withCrcInput_shape (s : State) (k : List Byte → Effect) :
    (∃ c, inputCode c ∧ withCrcInput s k = .next (s.raise c)) ∨
    (s.ibuf.readRange 0 s.ilen.toNat = none ∧ s.ilen.toNat ≤ Config.bufBytes ∧
      withCrcInput s k = .fault .unwrittenInput) ∨
    ∃ D, s.crcValid = true ∧ s.ilen.toNat ≠ 0 ∧ s.ilen.toNat ≤ Config.bufBytes ∧
      s.ibuf.readRange 0 s.ilen.toNat = some D ∧ withCrcInput s k = k D := by
  rcases withCrcInput_cases s k with ⟨_, e⟩ | ⟨_, _, e⟩ | ⟨_, _, e⟩ | ⟨h1, h2, h3, e⟩
  · exact .inl ⟨_, .inl rfl, e⟩
  · exact .inl ⟨_, .inr (.inl rfl), e⟩
  · exact .inl ⟨_, .inr (.inr rfl), e⟩
  · rcases withInput_cases s k with ⟨h, e'⟩ | ⟨D, h, e'⟩
    · exact .inr (.inl ⟨h, h3, e.trans e'⟩)
    · exact .inr (.inr ⟨D, h1, h2, h3, h, e.trans e'⟩)

theorem execCrcEnc_shape (s : State) :
    (∃ c, inputCode c ∧ execCrcEnc s = .next (s.raise c)) ∨
    (s.ibuf.readRange 0 s.ilen.toNat = none ∧ s.ilen.toNat ≤ Config.bufBytes ∧ execCrcEnc s = .fault .unwrittenInput) ∨
    ∃ D, s.crcValid = true ∧ s.ilen.toNat ≠ 0 ∧ s.ilen.toNat ≤ Config.bufBytes ∧
      s.ibuf.readRange 0 s.ilen.toNat = some D ∧ execCrcEnc s = .next (s.setRes (s.crcRem D)).complete :=
  withCrcInput_shape s _

theorem execCrcDec_shape (s : State) :
    (∃ c, inputCode c ∧ execCrcDec s = .next (s.raise c)) ∨
    (s.ibuf.readRange 0 s.ilen.toNat = none ∧ s.ilen.toNat ≤ Config.bufBytes ∧ execCrcDec s = .fault .unwrittenInput) ∨
    ∃ D, s.crcValid = true ∧ s.ilen.toNat ≠ 0 ∧ s.ilen.toNat ≤ Config.bufBytes ∧
      s.ibuf.readRange 0 s.ilen.toNat = some D ∧ execCrcDec s = .next ((s.setRes (s.crcRem D)).completeWith
        (Result.ofMatch (decide (BitVec.ofNat 32 (s.crcRem D) = s.opa)))) :=
  withCrcInput_shape s _

theorem execRsCfg_shape (s : State) :
    (∃ c, (c = .errNotConfigured ∨ c = .errConfig) ∧ execRsCfg s = .next (s.clearRs.raise c)) ∨
    ∃ F, s.field = some F ∧ F.m ≤ Config.rsMMax ∧ 1 ≤ s.rsR.toNat ∧ s.rsR.toNat ≤ F.order - 1 ∧
      execRsCfg s = .next { s.clearRs with rsGen := some (rsGenerator F s.rsR.toNat) }.complete := by
  unfold execRsCfg
  rcases withField_cases s.clearRs _ with ⟨-, e⟩ | ⟨F, hF, e⟩ <;> rw [e]
  · exact .inl ⟨_, .inl rfl, rfl⟩
  · split
    · exact .inl ⟨_, .inr rfl, rfl⟩
    · split
      · exact .inl ⟨_, .inr rfl, rfl⟩
      · next h1 h2 => exact .inr ⟨F, hF, by omega, by omega, by omega, rfl⟩

theorem execRsEnc_shape (s : State) :
    (∃ c, (inputCode c ∨ c = .errOperand) ∧ execRsEnc s = .next (s.raise c)) ∨
    (s.rsGen ≠ none ∧ s.field = none ∧ execRsEnc s = .fault .absentTable) ∨
    (s.ibuf.readRange 0 s.ilen.toNat = none ∧
      (s.rsGen ≠ none ∧ ∃ F, s.field = some F ∧ s.ilen.toNat ≤ F.order) ∧
      execRsEnc s = .fault .unwrittenInput) ∨
    ∃ F g D, s.field = some F ∧ s.rsGen = some g ∧ s.ilen.toNat ≠ 0 ∧ s.ilen.toNat + s.rsR.toNat ≤ F.order ∧
      s.ibuf.readRange 0 s.ilen.toNat = some D ∧ allSymbols F D = true ∧
      execRsEnc s = .next (s.setOutput (rsCodeword F g s.rsR.toNat D)).complete := by
  unfold execRsEnc
  rcases withRs_cases s _ with ⟨-, e⟩ | ⟨hg, hF, e⟩ | ⟨F, g, hF, hg, e⟩ <;> rw [e]
  · exact .inl ⟨_, .inl (.inl rfl), rfl⟩
  · exact .inr (.inl ⟨hg, hF, rfl⟩)
  · split
    · exact .inl ⟨_, .inl (.inr (.inl rfl)), rfl⟩
    · split
      · exact .inl ⟨_, .inl (.inr (.inr rfl)), rfl⟩
      · next h1 h2 =>
        rcases withInput_cases s _ with ⟨h, e'⟩ | ⟨D, h, e'⟩ <;> rw [e']
        · exact .inr (.inr (.inl ⟨h, ⟨by simp [hg], F, hF, by omega⟩, rfl⟩))
        · split
          · next h3 => exact .inr (.inr (.inr ⟨F, g, D, hF, hg, h1, by omega, h, h3, rfl⟩))
          · exact .inl ⟨_, .inr rfl, rfl⟩

theorem execRsDec_shape (s : State) :
    (∃ c, (inputCode c ∨ c = .errOperand) ∧ execRsDec s = .next (s.raise c)) ∨
    (s.rsGen ≠ none ∧ s.field = none ∧ execRsDec s = .fault .absentTable) ∨
    (s.ibuf.readRange 0 s.ilen.toNat = none ∧
      (s.rsGen ≠ none ∧ ∃ F, s.field = some F ∧ s.ilen.toNat ≤ F.order) ∧
      execRsDec s = .fault .unwrittenInput) ∨
    ∃ F g D, s.field = some F ∧ s.rsGen = some g ∧ s.rsR.toNat < s.ilen.toNat ∧ s.ilen.toNat ≤ F.order ∧
      s.ibuf.readRange 0 s.ilen.toNat = some D ∧ allSymbols F D = true ∧
      ((rsDecode F s.rsR.toNat (symbols D) = .error .errDiv0 ∧ execRsDec s = .next (s.raise .errDiv0)) ∨
        ∃ o, rsDecode F s.rsR.toNat (symbols D) = .ok o ∧ execRsDec s = .next (s.reportDecode o)) := by
  unfold execRsDec
  rcases withRs_cases s _ with ⟨-, e⟩ | ⟨hg, hF, e⟩ | ⟨F, g, hF, hg, e⟩ <;> rw [e]
  · exact .inl ⟨_, .inl (.inl rfl), rfl⟩
  · exact .inr (.inl ⟨hg, hF, rfl⟩)
  · split
    · exact .inl ⟨_, .inl (.inr (.inl rfl)), rfl⟩
    · split
      · exact .inl ⟨_, .inl (.inr (.inr rfl)), rfl⟩
      · next h1 h2 =>
        rcases withInput_cases s _ with ⟨h, e'⟩ | ⟨D, h, e'⟩ <;> rw [e']
        · exact .inr (.inr (.inl ⟨h, ⟨by simp [hg], F, hF, by omega⟩, rfl⟩))
        · split
          · next h3 =>
            refine .inr (.inr (.inr ⟨F, g, D, hF, hg, by omega, by omega, h, h3, ?_⟩))
            cases hd : rsDecode F s.rsR.toNat (symbols D) with
            | error c => obtain rfl := rsDecode_error hd; exact .inl ⟨rfl, rfl⟩
            | ok o => exact .inr ⟨o, rfl, rfl⟩
          · exact .inl ⟨_, .inr rfl, rfl⟩

theorem execBchCfg_shape (s : State) :
    (∃ c, (c = .errNotConfigured ∨ c = .errConfig) ∧ execBchCfg s = .next (s.clearBch.forgetBchP.raise c)) ∨
    ∃ F, s.field = some F ∧ 1 ≤ s.bchT.toNat ∧ 2 * s.bchT.toNat ≤ F.order - 1 ∧
      intDegree (bchGenerator F s.bchT.toNat) + 8 ≤ F.order ∧
      execBchCfg s = .next { s.clearBch with
        bchGen := some (bchGenerator F s.bchT.toNat)
        bchP := some (BitVec.ofNat 32 (intDegree (bchGenerator F s.bchT.toNat))) }.complete := by
  unfold execBchCfg
  cases hF : s.field with
  | none => exact .inl ⟨_, .inl rfl, rfl⟩
  | some F =>
    simp only
    split
    · exact .inl ⟨_, .inr rfl, rfl⟩
    · split
      · exact .inl ⟨_, .inr rfl, rfl⟩
      · next h1 h2 => exact .inr ⟨F, rfl, by omega, by omega, by omega, rfl⟩

theorem execBchEnc_shape (s : State) :
    (∃ c, inputCode c ∧ execBchEnc s = .next (s.raise c)) ∨
    (s.bchGen ≠ none ∧ (s.bchP = none ∨ s.field = none) ∧ execBchEnc s = .fault .absentTable) ∨
    (s.ibuf.readRange 0 s.ilen.toNat = none ∧ (∃ F, s.field = some F ∧ 8 * s.ilen.toNat ≤ F.order) ∧
      execBchEnc s = .fault .unwrittenInput) ∨
    ∃ F g p D, s.field = some F ∧ s.bchGen = some g ∧ s.bchP = some p ∧ s.ilen.toNat ≠ 0 ∧
      8 * s.ilen.toNat + p.toNat ≤ F.order ∧ s.ibuf.readRange 0 s.ilen.toNat = some D ∧
      execBchEnc s = .next (s.setOutput (bchCodeword g p.toNat D)).complete := by
  unfold execBchEnc
  rcases withBch_cases s _ with ⟨-, e⟩ | ⟨hg, hF, e⟩ | ⟨F, g, p, hF, hg, hp, e⟩ <;> rw [e]
  · exact .inl ⟨_, .inl rfl, rfl⟩
  · exact .inr (.inl ⟨hg, hF, rfl⟩)
  · split
    · exact .inl ⟨_, .inr (.inl rfl), rfl⟩
    · split
      · exact .inl ⟨_, .inr (.inr rfl), rfl⟩
      · next h1 h2 =>
        rcases withInput_cases s _ with ⟨h, e'⟩ | ⟨D, h, e'⟩ <;> rw [e']
        · exact .inr (.inr (.inl ⟨h, ⟨F, hF, by omega⟩, rfl⟩))
        · exact .inr (.inr (.inr ⟨F, g, p, D, hF, hg, hp, h1, by omega, h, rfl⟩))

theorem execBchDec_shape (s : State) :
    (∃ c, inputCode c ∧ execBchDec s = .next (s.raise c)) ∨
    (s.bchGen ≠ none ∧ (s.bchP = none ∨ s.field = none) ∧ execBchDec s = .fault .absentTable) ∨
    (s.ibuf.readRange 0 s.ilen.toNat = none ∧
      (∃ F p, s.field = some F ∧ s.bchP = some p ∧ bytesFor p.toNat < s.ilen.toNat ∧
        8 * (s.ilen.toNat - bytesFor p.toNat) + p.toNat ≤ F.order) ∧
      execBchDec s = .fault .unwrittenInput) ∨
    ∃ F g p D, s.field = some F ∧ s.bchGen = some g ∧ s.bchP = some p ∧ bytesFor p.toNat < s.ilen.toNat ∧
      8 * (s.ilen.toNat - bytesFor p.toNat) + p.toNat ≤ F.order ∧ s.ibuf.readRange 0 s.ilen.toNat = some D ∧
      ((bchDecode F s.bchT.toNat p.toNat (s.ilen.toNat - bytesFor p.toNat) D = .error .errDiv0 ∧
          execBchDec s = .next (s.raise .errDiv0)) ∨
        ∃ o, bchDecode F s.bchT.toNat p.toNat (s.ilen.toNat - bytesFor p.toNat) D = .ok o ∧
          execBchDec s = .next (s.reportDecode o)) := by
  unfold execBchDec
  rcases withBch_cases s _ with ⟨-, e⟩ | ⟨hg, hF, e⟩ | ⟨F, g, p, hF, hg, hp, e⟩ <;> rw [e]
  · exact .inl ⟨_, .inl rfl, rfl⟩
  · exact .inr (.inl ⟨hg, hF, rfl⟩)
  · split
    · exact .inl ⟨_, .inr (.inl rfl), rfl⟩
    · split
      · exact .inl ⟨_, .inr (.inr rfl), rfl⟩
      · split
        · exact .inl ⟨_, .inr (.inr rfl), rfl⟩
        · next h1 h2 h3 =>
          rcases withInput_cases s _ with ⟨h, e'⟩ | ⟨D, h, e'⟩ <;> rw [e']
          · exact .inr (.inr (.inl ⟨h, ⟨F, p, hF, hp, by omega, by omega⟩, rfl⟩))
          · refine .inr (.inr (.inr ⟨F, g, p, D, hF, hg, hp, by omega, by omega, h, ?_⟩))
            cases hd : bchDecode F s.bchT.toNat p.toNat (s.ilen.toNat - bytesFor p.toNat) D with
            | error c => obtain rfl := bchDecode_error hd; exact .inl ⟨rfl, by simp⟩
            | ok o => exact .inr ⟨o, rfl, by simp⟩

/-- No command is refused: every arm of `exec` is a meaning. -/
theorem exec_not_refused (i : Instr) (s : State) (r : Refusal) : exec i s ≠ .refused r := by
  cases i <;> simp only [exec]
  · rcases execGfBuild_cases s with ⟨c, -, -, e⟩ | ⟨T, -, e⟩ <;> simp [e]
  · rcases execGfMul_shape s with ⟨c, -, e⟩ | ⟨v, e⟩ <;> simp [e]
  · rcases execGfInv_shape s with ⟨c, -, e⟩ | ⟨v, e⟩ <;> simp [e]
  · rcases execGfPow_shape s with ⟨c, -, e⟩ | ⟨v, e⟩ <;> simp [e]
  · rcases execGfLog_shape s with ⟨c, -, e⟩ | ⟨v, e⟩ <;> simp [e]
  · rcases execGfAlog_shape s with ⟨c, -, e⟩ | ⟨v, e⟩ <;> simp [e]
  · rcases execCrcCfg_cases s with ⟨-, e⟩ | ⟨-, e⟩ <;> simp [e]
  · rcases execCrcEnc_shape s with ⟨c, -, e⟩ | ⟨-, -, e⟩ | ⟨D, -, -, -, -, e⟩ <;> simp [e]
  · rcases execCrcDec_shape s with ⟨c, -, e⟩ | ⟨-, -, e⟩ | ⟨D, -, -, -, -, e⟩ <;> simp [e]
  · rcases execRsCfg_shape s with ⟨c, -, e⟩ | ⟨F, -, -, -, -, e⟩ <;> simp [e]
  · rcases execRsEnc_shape s with ⟨c, -, e⟩ | ⟨-, -, e⟩ | ⟨-, -, e⟩ | ⟨F, g, D, -, -, -, -, -, -, e⟩ <;> simp [e]
  · rcases execRsDec_shape s with ⟨c, -, e⟩ | ⟨-, -, e⟩ | ⟨-, -, e⟩ | ⟨F, g, D, -, -, -, -, -, -, ⟨-, e⟩ | ⟨o, -, e⟩⟩ <;>
      simp [e]
  · rcases execBchCfg_shape s with ⟨c, -, e⟩ | ⟨F, -, -, -, -, e⟩ <;> simp [e]
  · rcases execBchEnc_shape s with ⟨c, -, e⟩ | ⟨-, -, e⟩ | ⟨-, -, e⟩ | ⟨F, g, p, D, -, -, -, -, -, -, e⟩ <;> simp [e]
  · rcases execBchDec_shape s with ⟨c, -, e⟩ | ⟨-, -, e⟩ | ⟨-, -, e⟩ | ⟨F, g, p, D, -, -, -, -, -, -, ⟨-, e⟩ | ⟨o, -, e⟩⟩ <;>
      simp [e]

end Sys2Proof.Machine
end

