-- ==== Sys2Proof/Laws/Effects.lean ====
section
/-! SUPPORT. What any command can do, said once for all fifteen: the inversion of `exec` where it answers a next state, and
the reasons where it stops. Rules about every command are a case analysis on it. -/

namespace Sys2Proof.Machine

/-- The codes a command that is no construction can raise. -/
def raises (i : Instr) (c : Code) : Prop :=
  c = .errNotConfigured ∨
  ((c = .errEmpty ∨ c = .errLength) ∧ readsInput i = true) ∨
  (c = .errOperand ∧ (i = .gfMul ∨ i = .gfInv ∨ i = .gfPow ∨ i = .gfLog ∨ i = .gfAlog ∨ i = .rsEnc ∨ i = .rsDec)) ∨
  (c = .errDiv0 ∧ (i = .gfInv ∨ i = .gfLog ∨ i = .rsDec ∨ i = .bchDec))

/-- Every way a command answers a next state: the guards that hold and the state it leaves. -/
inductive CommandEffect (s : State) : Instr → State → Prop where
  | raised {i : Instr} {c : Code} (notBuild : i ≠ .gfBuild ∧ i ≠ .crcCfg ∧ i ≠ .rsCfg ∧ i ≠ .bchCfg)
      (code : raises i c) : CommandEffect s i (s.raise c)
  | fieldRejected {c : Code} (code : c = .errConfig ∨ c = .errInvalidPoly)
      (why : buildTables s.gfM.toNat s.gfPoly.toNat = .error c) : CommandEffect s .gfBuild (s.clearField.raise c)
  | fieldBuilt {T : Tables} (built : buildTables s.gfM.toNat s.gfPoly.toNat = .ok T) :
      CommandEffect s .gfBuild { s.clearField with tables := some T }.complete
  | crcRejected (why : s.crcConfigLegal = false) : CommandEffect s .crcCfg (s.clearCrc.raise .errConfig)
  | crcAccepted (legal : s.crcConfigLegal = true) :
      CommandEffect s .crcCfg { s.clearCrc with crcValid := true }.complete
  | rsRejected {c : Code} (code : c = .errNotConfigured ∨ c = .errConfig) :
      CommandEffect s .rsCfg (s.clearRs.raise c)
  | rsBuilt {F : Field} (field : s.field = some F) (small : F.m ≤ Config.rsMMax) (pos : 1 ≤ s.rsR.toNat)
      (fits : s.rsR.toNat ≤ F.order - 1) :
      CommandEffect s .rsCfg { s.clearRs with rsGen := some (rsGenerator F s.rsR.toNat) }.complete
  | bchRejected {c : Code} (code : c = .errNotConfigured ∨ c = .errConfig) :
      CommandEffect s .bchCfg (s.clearBch.forgetBchP.raise c)
  | bchBuilt {F : Field} (field : s.field = some F) (pos : 1 ≤ s.bchT.toNat) (fits : 2 * s.bchT.toNat ≤ F.order - 1)
      (room : intDegree (bchGenerator F s.bchT.toNat) + 8 ≤ F.order) :
      CommandEffect s .bchCfg { s.clearBch with
        bchGen := some (bchGenerator F s.bchT.toNat)
        bchP := some (BitVec.ofNat 32 (intDegree (bchGenerator F s.bchT.toNat))) }.complete
  | resWritten {i : Instr} {v : Nat}
      (which : i = .gfMul ∨ i = .gfInv ∨ i = .gfPow ∨ i = .gfLog ∨ i = .gfAlog ∨ i = .crcEnc) :
      CommandEffect s i (s.setRes v).complete
  | crcChecked {v : Nat} {b : Bool} : CommandEffect s .crcDec ((s.setRes v).completeWith (Result.ofMatch b))
  | rsEncoded {F : Field} {g : List Nat} {D : List Byte} (field : s.field = some F) (gen : s.rsGen = some g)
      (nonempty : s.ilen.toNat ≠ 0) (fits : s.ilen.toNat + s.rsR.toNat ≤ F.order)
      (input : s.ibuf.readRange 0 s.ilen.toNat = some D) :
      CommandEffect s .rsEnc (s.setOutput (rsCodeword F g s.rsR.toNat D)).complete
  | rsDecoded {F : Field} {g : List Nat} {D : List Byte} {o : Decoded} (field : s.field = some F)
      (gen : s.rsGen = some g) (longer : s.rsR.toNat < s.ilen.toNat) (fits : s.ilen.toNat ≤ F.order)
      (input : s.ibuf.readRange 0 s.ilen.toNat = some D) (result : rsDecode F s.rsR.toNat (symbols D) = .ok o) :
      CommandEffect s .rsDec (s.reportDecode o)
  | bchEncoded {F : Field} {g : Nat} {p : Word} {D : List Byte} (field : s.field = some F) (gen : s.bchGen = some g)
      (parity : s.bchP = some p) (nonempty : s.ilen.toNat ≠ 0) (fits : 8 * s.ilen.toNat + p.toNat ≤ F.order)
      (input : s.ibuf.readRange 0 s.ilen.toNat = some D) :
      CommandEffect s .bchEnc (s.setOutput (bchCodeword g p.toNat D)).complete
  | bchDecoded {F : Field} {g : Nat} {p : Word} {D : List Byte} {o : Decoded} (field : s.field = some F)
      (gen : s.bchGen = some g) (parity : s.bchP = some p) (longer : bytesFor p.toNat < s.ilen.toNat)
      (fits : 8 * (s.ilen.toNat - bytesFor p.toNat) + p.toNat ≤ F.order)
      (input : s.ibuf.readRange 0 s.ilen.toNat = some D)
      (result : bchDecode F s.bchT.toNat p.toNat (s.ilen.toNat - bytesFor p.toNat) D = .ok o) :
      CommandEffect s .bchDec (s.reportDecode o)

theorem raises_inputCode {i : Instr} {c : Code} (hi : readsInput i = true) (h : inputCode c) : raises i c := by
  rcases h with rfl | rfl | rfl
  · exact .inl rfl
  · exact .inr (.inl ⟨.inl rfl, hi⟩)
  · exact .inr (.inl ⟨.inr rfl, hi⟩)

/-- The inversion of `exec`. -/
theorem exec_effect {i : Instr} {s t : State} (h : exec i s = .next t) : CommandEffect s i t := by
  cases i <;> simp only [exec] at h
  · rcases execGfBuild_cases s with ⟨c, hc, hb, e⟩ | ⟨T, hT, e⟩ <;> rw [e] at h <;> obtain rfl := next_inj h
    · exact .fieldRejected hc hb
    · exact .fieldBuilt hT
  · rcases execGfMul_cases s with (⟨-, e⟩ | e) | ⟨v, e⟩ <;> rw [e] at h <;> obtain rfl := next_inj h
    · exact .raised (by simp) (.inl rfl)
    · exact .raised (by simp) (by simp [raises])
    · exact .resWritten (by simp)
  · rcases execGfInv_shape s with ⟨c, hc, e⟩ | ⟨v, e⟩ <;> rw [e] at h <;> obtain rfl := next_inj h
    · exact .raised (by simp) (by rcases hc with rfl | rfl | rfl <;> simp [raises])
    · exact .resWritten (by simp)
  · rcases execGfPow_cases s with (e | e) | ⟨v, e⟩ <;> rw [e] at h <;> obtain rfl := next_inj h
    · exact .raised (by simp) (.inl rfl)
    · exact .raised (by simp) (by simp [raises])
    · exact .resWritten (by simp)
  · rcases execGfLog_shape s with ⟨c, hc, e⟩ | ⟨v, e⟩ <;> rw [e] at h <;> obtain rfl := next_inj h
    · exact .raised (by simp) (by rcases hc with rfl | rfl | rfl <;> simp [raises])
    · exact .resWritten (by simp)
  · rcases execGfAlog_cases s with (e | e) | ⟨v, e⟩ <;> rw [e] at h <;> obtain rfl := next_inj h
    · exact .raised (by simp) (.inl rfl)
    · exact .raised (by simp) (by simp [raises])
    · exact .resWritten (by simp)
  · rcases execCrcCfg_cases s with ⟨hl, e⟩ | ⟨hl, e⟩ <;> rw [e] at h <;> obtain rfl := next_inj h
    · exact .crcAccepted hl
    · exact .crcRejected hl
  · rcases execCrcEnc_shape s with ⟨c, hc, e⟩ | ⟨-, -, e⟩ | ⟨D, -, -, -, -, e⟩ <;> rw [e] at h
    · obtain rfl := next_inj h; exact .raised (by simp) (raises_inputCode rfl hc)
    · simp at h
    · obtain rfl := next_inj h; exact .resWritten (by simp)
  · rcases execCrcDec_shape s with ⟨c, hc, e⟩ | ⟨-, -, e⟩ | ⟨D, -, -, -, -, e⟩ <;> rw [e] at h
    · obtain rfl := next_inj h; exact .raised (by simp) (raises_inputCode rfl hc)
    · simp at h
    · obtain rfl := next_inj h; exact .crcChecked
  · rcases execRsCfg_shape s with ⟨c, hc, e⟩ | ⟨F, hF, h1, h2, h3, e⟩ <;> rw [e] at h <;> obtain rfl := next_inj h
    · exact .rsRejected hc
    · exact .rsBuilt hF h1 h2 h3
  · rcases execRsEnc_shape s with ⟨c, hc, e⟩ | ⟨-, -, e⟩ | ⟨-, -, e⟩ | ⟨F, g, D, hF, hg, h1, h2, hD, -, e⟩ <;> rw [e] at h
    · obtain rfl := next_inj h
      exact .raised (by simp) (hc.elim (raises_inputCode rfl) fun hc => by subst hc; simp [raises])
    · simp at h
    · simp at h
    · obtain rfl := next_inj h; exact .rsEncoded hF hg h1 h2 hD
  · rcases execRsDec_shape s with
      ⟨c, hc, e⟩ | ⟨-, -, e⟩ | ⟨-, -, e⟩ | ⟨F, g, D, hF, hg, h1, h2, hD, -, ⟨-, e⟩ | ⟨o, ho, e⟩⟩ <;> rw [e] at h
    · obtain rfl := next_inj h
      exact .raised (by simp) (hc.elim (raises_inputCode rfl) fun hc => by subst hc; simp [raises])
    · simp at h
    · simp at h
    · obtain rfl := next_inj h; exact .raised (by simp) (by simp [raises])
    · obtain rfl := next_inj h; exact .rsDecoded hF hg h1 h2 hD ho
  · rcases execBchCfg_shape s with ⟨c, hc, e⟩ | ⟨F, hF, h1, h2, h3, e⟩ <;> rw [e] at h <;> obtain rfl := next_inj h
    · exact .bchRejected hc
    · exact .bchBuilt hF h1 h2 h3
  · rcases execBchEnc_shape s with ⟨c, hc, e⟩ | ⟨-, -, e⟩ | ⟨-, -, e⟩ | ⟨F, g, p, D, hF, hg, hp, h1, h2, hD, e⟩ <;>
      rw [e] at h
    · obtain rfl := next_inj h; exact .raised (by simp) (raises_inputCode rfl hc)
    · simp at h
    · simp at h
    · obtain rfl := next_inj h; exact .bchEncoded hF hg hp h1 h2 hD
  · rcases execBchDec_shape s with
      ⟨c, hc, e⟩ | ⟨-, -, e⟩ | ⟨-, -, e⟩ | ⟨F, g, p, D, hF, hg, hp, h1, h2, hD, ⟨-, e⟩ | ⟨o, ho, e⟩⟩ <;> rw [e] at h
    · obtain rfl := next_inj h; exact .raised (by simp) (raises_inputCode rfl hc)
    · simp at h
    · simp at h
    · obtain rfl := next_inj h; exact .raised (by simp) (by simp [raises])
    · obtain rfl := next_inj h; exact .bchDecoded hF hg hp h1 h2 hD ho

/-- How far the input range of a command that passed its length checks reaches: inside the buffer, or inside the code. -/
def inputFits (i : Instr) (s : State) : Prop :=
  ((i = .crcEnc ∨ i = .crcDec) ∧ s.ilen.toNat ≤ Config.bufBytes) ∨
  ((i = .rsEnc ∨ i = .rsDec) ∧ s.rsGen ≠ none ∧ ∃ F, s.field = some F ∧ s.ilen.toNat ≤ F.order) ∨
  ((i = .bchEnc ∨ i = .bchDec) ∧ ∃ F, s.field = some F ∧ 8 * s.ilen.toNat ≤ F.order + 7)

/-- Where the VALID flags have what they imply, a command stops for one reason only: an input byte nothing has written. -/
theorem exec_fault {i : Instr} {s : State} {f : Fault} (hr : s.rsGen ≠ none → s.field ≠ none)
    (hb : s.bchGen ≠ none → s.field ≠ none ∧ s.bchP ≠ none) (h : exec i s = .fault f) :
    f = .unwrittenInput ∧ readsInput i = true ∧ s.ibuf.readRange 0 s.ilen.toNat = none ∧ inputFits i s := by
  cases i <;> simp only [exec] at h
  · rcases execGfBuild_cases s with ⟨c, -, -, e⟩ | ⟨T, -, e⟩ <;> simp [e] at h
  · rcases execGfMul_shape s with ⟨c, -, e⟩ | ⟨v, e⟩ <;> simp [e] at h
  · rcases execGfInv_shape s with ⟨c, -, e⟩ | ⟨v, e⟩ <;> simp [e] at h
  · rcases execGfPow_shape s with ⟨c, -, e⟩ | ⟨v, e⟩ <;> simp [e] at h
  · rcases execGfLog_shape s with ⟨c, -, e⟩ | ⟨v, e⟩ <;> simp [e] at h
  · rcases execGfAlog_shape s with ⟨c, -, e⟩ | ⟨v, e⟩ <;> simp [e] at h
  · rcases execCrcCfg_cases s with ⟨-, e⟩ | ⟨-, e⟩ <;> simp [e] at h
  · rcases execCrcEnc_shape s with ⟨c, -, e⟩ | ⟨hD, hl, e⟩ | ⟨D, -, -, -, -, e⟩ <;> simp [e] at h
    exact ⟨h.symm, rfl, hD, .inl ⟨by simp, hl⟩⟩
  · rcases execCrcDec_shape s with ⟨c, -, e⟩ | ⟨hD, hl, e⟩ | ⟨D, -, -, -, -, e⟩ <;> simp [e] at h
    exact ⟨h.symm, rfl, hD, .inl ⟨by simp, hl⟩⟩
  · rcases execRsCfg_shape s with ⟨c, -, e⟩ | ⟨F, -, -, -, -, e⟩ <;> simp [e] at h
  · rcases execRsEnc_shape s with ⟨c, -, e⟩ | ⟨hg, hF, e⟩ | ⟨hD, hl, e⟩ | ⟨F, g, D, -, -, -, -, -, -, e⟩
    · simp [e] at h
    · exact absurd hF (hr hg)
    · simp [e] at h; exact ⟨h.symm, rfl, hD, .inr (.inl ⟨by simp, hl⟩)⟩
    · simp [e] at h
  · rcases execRsDec_shape s with
      ⟨c, -, e⟩ | ⟨hg, hF, e⟩ | ⟨hD, hl, e⟩ | ⟨F, g, D, -, -, -, -, -, -, ⟨-, e⟩ | ⟨o, -, e⟩⟩
    · simp [e] at h
    · exact absurd hF (hr hg)
    · simp [e] at h; exact ⟨h.symm, rfl, hD, .inr (.inl ⟨by simp, hl⟩)⟩
    · simp [e] at h
    · simp [e] at h
  · rcases execBchCfg_shape s with ⟨c, -, e⟩ | ⟨F, -, -, -, -, e⟩ <;> simp [e] at h
  · rcases execBchEnc_shape s with ⟨c, -, e⟩ | ⟨hg, hF, e⟩ | ⟨hD, hl, e⟩ | ⟨F, g, p, D, -, -, -, -, -, -, e⟩
    · simp [e] at h
    · exact absurd hF (by simp [hb hg])
    · simp [e] at h
      obtain ⟨F, hF, hl⟩ := hl
      exact ⟨h.symm, rfl, hD, .inr (.inr ⟨by simp, F, hF, by omega⟩)⟩
    · simp [e] at h
  · rcases execBchDec_shape s with
      ⟨c, -, e⟩ | ⟨hg, hF, e⟩ | ⟨hD, hl, e⟩ | ⟨F, g, p, D, -, -, -, -, -, -, ⟨-, e⟩ | ⟨o, -, e⟩⟩
    · simp [e] at h
    · exact absurd hF (by simp [hb hg])
    · simp [e] at h
      obtain ⟨F, p, hF, -, h1, h2⟩ := hl
      exact ⟨h.symm, rfl, hD, .inr (.inr ⟨by simp, F, hF, by unfold bytesFor at *; omega⟩)⟩
    · simp [e] at h
    · simp [e] at h

end Sys2Proof.Machine
end

