-- ==== Sys2Proof/Laws/Step.lean ====
section
/-! SUPPORT. What a step can do: the host's next access, sorted into one of the four primitives or a command, or refused. -/

namespace Sys2Proof.Machine

/-- A register's offset names it. -/
@[simp] theorem Reg.ofOffset_offset (r : Reg) : Reg.ofOffset r.offset = some r := by cases r <;> rfl

/-- An offset that names a register is that register's. -/
theorem Reg.offset_of_ofOffset {off : Nat} {r : Reg} (h : Reg.ofOffset off = some r) : off = r.offset := by
  unfold Reg.ofOffset at h
  split at h <;> first | (obtain rfl := Option.some.inj h; rfl) | exact absurd h (by simp)

/-- A write to a register's offset, by the register. -/
@[simp] theorem State.hostRegWrite_offset (s : State) (r : Reg) (v : Word) :
    s.hostRegWrite r.offset v = s.writeReg v r := by simp [State.hostRegWrite]

/-- A read of a register's offset, by the register. -/
@[simp] theorem State.hostRegRead_offset (s : State) (r : Reg) :
    s.hostRegRead r.offset = s.returnWord (s.readReg r) := by simp [State.hostRegRead]

/-- A register write is the write of one named register, or is ignored. -/
theorem State.hostRegWrite_cases (s : State) (off : Nat) (v : Word) :
    (∃ r, off = r.offset ∧ s.hostRegWrite off v = s.writeReg v r) ∨ s.hostRegWrite off v = s := by
  unfold State.hostRegWrite
  cases h : Reg.ofOffset off with
  | none => exact .inr rfl
  | some r => exact .inl ⟨r, Reg.offset_of_ofOffset h, rfl⟩

/-- A host read changes only the data returned and the index of the next free value. -/
theorem State.hostRead_frame {s t : State} (h : (∃ off, t = s.hostRegRead off) ∨ (∃ b i, t = s.hostBufRead b i)) :
    ∃ v d, t = { s with readData := v, draws := d } := by
  rcases h with ⟨off, rfl⟩ | ⟨b, i, rfl⟩
  · unfold State.hostRegRead State.returnWord
    split <;> split <;> exact ⟨_, _, rfl⟩
  · unfold State.hostBufRead State.returnByte
    split <;> exact ⟨_, _, rfl⟩

/-- Every way a step answers a next state. -/
theorem step_cases {s t : State} (h : step s = .next t) :
    (s.pending = [] ∧ t = s) ∨
    ∃ a rest, s.pending = a :: rest ∧ a.problem = none ∧
      ((∃ w i, a.hostStep = .regWrite 0 w ∧ decode w = .ok i ∧ exec i { s with pending := rest } = .next t) ∨
       (∃ w e, a.hostStep = .regWrite 0 w ∧ decode w = .error e ∧
          t = State.raise .errIllegalCmd { s with pending := rest }) ∨
       (∃ off v, a.hostStep = .regWrite off v ∧ off ≠ 0 ∧ t = State.hostRegWrite { s with pending := rest } off v) ∨
       (∃ off, a.hostStep = .regRead off ∧ t = State.hostRegRead { s with pending := rest } off) ∨
       (∃ b i, a.hostStep = .bufRead b i ∧ t = State.hostBufRead { s with pending := rest } b i) ∨
       (∃ b i v, a.hostStep = .bufWrite b i v ∧ t = State.hostBufWrite { s with pending := rest } b i v)) := by
  unfold step runNext at h
  split at h
  · next hp => exact .inl ⟨hp, next_inj h⟩
  · next a rest hp =>
    refine .inr ⟨a, rest, hp, ?_⟩
    unfold runAccess at h
    split at h
    · simp at h
    · next hn =>
      refine ⟨hn, ?_⟩
      unfold runHostStep at h
      split at h
      · next off ho => exact .inr (.inr (.inr (.inl ⟨off, ho, next_inj h⟩)))
      · next off v ho =>
        split at h
        · next hz =>
          have hz : off = 0 := hz
          subst hz
          unfold runCommand at h
          split at h
          · next i hi => exact .inl ⟨v, i, ho, hi, h⟩
          · next e he => exact .inr (.inl ⟨v, e, ho, he, next_inj h⟩)
        · next hz => exact .inr (.inr (.inl ⟨off, v, ho, hz, next_inj h⟩))
      · next b i ho => exact .inr (.inr (.inr (.inr (.inl ⟨b, i, ho, next_inj h⟩))))
      · next b i v ho => exact .inr (.inr (.inr (.inr (.inr ⟨b, i, v, ho, next_inj h⟩))))

/-- A buffer access that is one of the primitives stays inside the buffer. -/
theorem PortAccess.bufWrite_inside {a : PortAccess} {b : Buf} {i : Nat} {v : Byte} (hn : a.problem = none)
    (h : a.hostStep = .bufWrite b i v) : i < Config.bufBytes := by
  unfold PortAccess.problem at hn
  unfold PortAccess.hostStep at h
  split at hn
  · simp at hn
  · next hend =>
    split at h
    · split at h <;> simp at h
    · split at h
      · split at h
        · simp only [HostStep.bufWrite.injEq] at h; obtain ⟨-, rfl, -⟩ := h; simp only [ibufBase, obufBase, spaceEnd, Config.bufBytes] at *; omega
        · simp at h
      · split at h
        · simp only [HostStep.bufWrite.injEq] at h; obtain ⟨-, rfl, -⟩ := h; simp only [ibufBase, obufBase, spaceEnd, Config.bufBytes] at *; omega
        · simp at h

end Sys2Proof.Machine
end

