-- ==== Sys2Proof/Laws/Invariant.lean ====
section
/-! SUPPORT. What the invariant of Safety.lean gives at once: the bounds of the field, and what the VALID flags imply. -/

namespace Sys2Proof.Machine

/-- A constructed field has an exponent the block admits. -/
theorem buildTables_bounds {m P : Nat} {T : Tables} (h : buildTables m P = .ok T) :
    2 ≤ m ∧ m ≤ 16 ∧ P >>> m = 1 := by
  unfold buildTables at h
  split at h
  · simp at h
  · split at h
    · simp at h
    · simp only [Config.mMin, Config.mMax] at *; omega

/-- The field in the tables, and the tables of the field. -/
theorem State.field_eq_some {s : State} {F : Field} :
    s.field = some F ↔ F.m = s.gfM.toNat ∧ s.tables = some F.tables := by
  simp only [State.field, Option.map_eq_some_iff]
  constructor
  · rintro ⟨T, hT, rfl⟩; exact ⟨rfl, hT⟩
  · rintro ⟨hm, hT⟩; exact ⟨F.tables, hT, by cases F; simp_all⟩

/-- The field of a state that keeps the invariant was built by `GF.BUILD`. -/
theorem State.Inv.field_built {s : State} (hi : s.Inv) {F : Field} (hF : s.field = some F) :
    buildTables F.m s.gfPoly.toNat = .ok F.tables := by
  obtain ⟨hm, hT⟩ := State.field_eq_some.1 hF
  rw [hm]; exact hi.tablesBuilt _ hT

theorem State.Inv.field_bounds {s : State} (hi : s.Inv) {F : Field} (hF : s.field = some F) : 2 ≤ F.m ∧ F.m ≤ 16 :=
  ⟨(buildTables_bounds (hi.field_built hF)).1, (buildTables_bounds (hi.field_built hF)).2.1⟩

theorem Field.order_le {F : Field} {k : Nat} (h : F.m ≤ k) : F.order ≤ 2 ^ k - 1 := by
  unfold Field.order
  have := Nat.pow_le_pow_right (n := 2) (by omega) h
  omega

theorem Field.size_eq (F : Field) : F.size = F.order + 1 := by
  unfold Field.size Field.order
  have := Nat.two_pow_pos F.m
  omega

theorem State.Inv.rs_field {s : State} (hi : s.Inv) (h : s.rsGen ≠ none) : s.field ≠ none := by
  obtain ⟨g, hg⟩ := Option.ne_none_iff_exists'.1 h
  obtain ⟨F, hF, -⟩ := hi.rsBuilt g hg
  simp [hF]

theorem State.Inv.bch_field {s : State} (hi : s.Inv) (h : s.bchGen ≠ none) : s.field ≠ none ∧ s.bchP ≠ none := by
  obtain ⟨g, hg⟩ := Option.ne_none_iff_exists'.1 h
  obtain ⟨F, hF, -, -, -, -, hp⟩ := hi.bchBuilt g hg
  simp [hF, hp]

/-- A command that passed its length checks reads inside the buffer (R65). -/
theorem State.Inv.inputFits_buffer {i : Instr} {s : State} (hi : s.Inv) (h : inputFits i s) : s.ilen.toNat ≤ 8192 := by
  rcases h with ⟨-, h⟩ | ⟨-, hg, F, hF, h⟩ | ⟨-, F, hF, h⟩
  · exact h
  · obtain ⟨g, hg⟩ := Option.ne_none_iff_exists'.1 hg
    obtain ⟨F', hF', h8, -⟩ := hi.rsBuilt g hg
    rw [hF] at hF'
    obtain rfl := Option.some.inj hF'
    have := Field.order_le (k := 8) h8
    omega
  · have := Field.order_le (hi.field_bounds hF).2
    omega

/-- From a state that keeps the invariant a command stops for one reason only. -/
theorem State.Inv.exec_fault {i : Instr} {s : State} (hi : s.Inv) {f : Fault} (h : exec i s = .fault f) :
    f = .unwrittenInput ∧ readsInput i = true ∧ s.ibuf.readRange 0 s.ilen.toNat = none ∧ inputFits i s :=
  Sys2Proof.Machine.exec_fault hi.rs_field hi.bch_field h

end Sys2Proof.Machine
end

