-- ==== Sys2Proof/Laws/Tables.lean ====
section
/-! SUPPORT. The tables of a built field: `xtime` is linear, the loop of `GF.BUILD` writes the powers of alpha, and a
construction succeeds exactly when those powers run through one full cycle. -/

namespace Sys2Proof.Machine

/-! ## `xtime` -/

theorem xtime_xor (m P a b : Nat) : xtime m P (a ^^^ b) = xtime m P a ^^^ xtime m P b := by
  simp only [xtime, Nat.shiftLeft_xor_distrib, Nat.testBit_xor]
  cases (a <<< 1).testBit m <;> cases (b <<< 1).testBit m <;> simp
  · ac_rfl
  · ac_rfl
  · rw [show a <<< 1 ^^^ P ^^^ (b <<< 1 ^^^ P) = (P ^^^ P) ^^^ (a <<< 1 ^^^ b <<< 1) by ac_rfl]; simp

@[simp] theorem xtime_zero (m P : Nat) : xtime m P 0 = 0 := by simp [xtime]

theorem xtime_lt {m P x : Nat} (hP : P >>> m = 1) (hx : x < 2 ^ m) : xtime m P x < 2 ^ m := by
  have hP' : P < 2 ^ (m + 1) ∧ P.testBit m = true := by
    constructor
    · rw [Nat.shiftRight_eq_div_pow] at hP
      have := Nat.two_pow_pos m
      rw [pow_succ]
      have := Nat.lt_mul_div_succ P this
      rw [hP] at this; omega
    · rw [Nat.testBit, hP]; rfl
  have hy : x <<< 1 < 2 ^ (m + 1) := by rw [Nat.shiftLeft_eq, pow_succ]; omega
  have key : ∀ y < 2 ^ (m + 1), y.testBit m = false → y < 2 ^ m := by
    intro y hy h
    rcases Nat.lt_or_ge y (2 ^ m) with h' | h'
    · exact h'
    · have := Nat.testBit_two_pow_add_eq (y - 2 ^ m) m
      rw [show 2 ^ m + (y - 2 ^ m) = y by omega, h] at this
      rw [Nat.testBit_lt_two_pow (by rw [pow_succ] at hy; omega)] at this
      simp at this
  simp only [xtime]
  split
  · next h =>
    refine key _ (Nat.xor_lt_two_pow hy hP'.1) ?_
    rw [Nat.testBit_xor, h, hP'.2]; rfl
  · next h => exact key _ hy (by simpa using h)

/-! ## The powers of alpha -/

@[simp] theorem alphaPower_zero (m P : Nat) : alphaPower m P 0 = 1 := rfl

theorem alphaPower_succ (m P i : Nat) : alphaPower m P (i + 1) = xtime m P (alphaPower m P i) :=
  Function.iterate_succ_apply' _ _ _

theorem alphaPower_add (m P i j : Nat) : alphaPower m P (i + j) = (xtime m P)^[i] (alphaPower m P j) :=
  Function.iterate_add_apply _ _ _ _

theorem alphaPower_lt {m P : Nat} (hm : 1 ≤ m) (hP : P >>> m = 1) (i : Nat) : alphaPower m P i < 2 ^ m := by
  induction i with
  | zero => exact Nat.one_lt_two_pow (by omega)
  | succ i ih => rw [alphaPower_succ]; exact xtime_lt hP ih

/-- One full cycle: what `GF.BUILD` tests. -/
structure FullCycle (m P : Nat) : Prop where
  nonzero : ∀ i < 2 ^ m - 1, alphaPower m P i ≠ 0
  notOne : ∀ i, 0 < i → i < 2 ^ m - 1 → alphaPower m P i ≠ 1
  closes : alphaPower m P (2 ^ m - 1) = 1

theorem FullCycle.periodic {m P : Nat} (h : FullCycle m P) (i : Nat) :
    alphaPower m P (i + (2 ^ m - 1)) = alphaPower m P i := by
  rw [alphaPower_add, h.closes]; rfl

theorem FullCycle.mod {m P : Nat} (h : FullCycle m P) (i : Nat) :
    alphaPower m P (i % (2 ^ m - 1)) = alphaPower m P i := by
  conv_rhs => rw [← Nat.mod_add_div i (2 ^ m - 1)]
  generalize i / (2 ^ m - 1) = q
  induction q with
  | zero => rfl
  | succ q ih => rw [Nat.mul_succ, ← Nat.add_assoc, h.periodic, ih]

theorem FullCycle.injective {m P : Nat} (h : FullCycle m P) {i j : Nat} (hi : i < 2 ^ m - 1) (hj : j < 2 ^ m - 1)
    (he : alphaPower m P i = alphaPower m P j) : i = j := by
  have key : ∀ i j, i < j → j < 2 ^ m - 1 → alphaPower m P i ≠ alphaPower m P j := by
    intro i j hij hj he
    have h1 : alphaPower m P ((2 ^ m - 1 - j) + i) = 1 := by
      rw [alphaPower_add, he, ← alphaPower_add, show 2 ^ m - 1 - j + j = 2 ^ m - 1 by omega, h.closes]
    exact h.notOne _ (by omega) (by omega) h1
  rcases Nat.lt_trichotomy i j with h' | h' | h'
  · exact absurd he (key i j h' hj)
  · exact h'
  · exact absurd he.symm (key j i h' hi)

/-- Every non-zero element is a power of alpha. -/
theorem FullCycle.surjective {m P : Nat} (h : FullCycle m P) (hm : 1 ≤ m) (hP : P >>> m = 1) {v : Nat} (h1 : 1 ≤ v)
    (h2 : v < 2 ^ m) : ∃ e < 2 ^ m - 1, alphaPower m P e = v := by
  have hmaps : ∀ a ∈ Finset.range (2 ^ m - 1), alphaPower m P a ∈ Finset.Ico 1 (2 ^ m) := by
    intro a ha
    have := h.nonzero a (Finset.mem_range.1 ha)
    exact Finset.mem_Ico.2 ⟨by omega, alphaPower_lt hm hP a⟩
  obtain ⟨e, he, hev⟩ := Finset.surj_on_of_inj_on_of_card_le (fun a _ => alphaPower m P a) hmaps
    (fun a b ha hb hab => h.injective (Finset.mem_range.1 ha) (Finset.mem_range.1 hb) hab)
    (by simp) v (Finset.mem_Ico.2 ⟨h1, h2⟩)
  exact ⟨e, Finset.mem_range.1 he, hev.symm⟩

/-! ## The construction -/

/-- The tables after the passes `0` to `i - 1` of the loop; a location of `LOG` holds the last index written there. -/
structure Filled (m P i : Nat) (T : Tables) : Prop where
  logLength : T.log.length = 2 ^ m
  alogLength : T.alog.length = 2 ^ m
  alog : ∀ j < i, T.alog[j]? = some (some (alphaPower m P j))
  log : ∀ j < i, (∀ k < i, alphaPower m P k = alphaPower m P j → k ≤ j) → T.log[alphaPower m P j]? = some (some j)
  logZero : T.log[0]? = some none

theorem Filled.blank (m P : Nat) : Filled m P 0 (Tables.blank m) where
  logLength := by simp [Tables.blank]
  alogLength := by simp [Tables.blank]
  alog := by simp
  log := by simp
  logZero := by simp [Tables.blank]

theorem Filled.step {m P i : Nat} {T : Tables} (h : Filled m P i T) (hm : 1 ≤ m) (hP : P >>> m = 1) (hi : i < 2 ^ m)
    (h0 : alphaPower m P i ≠ 0) :
    Filled m P (i + 1) { log := T.log.set (alphaPower m P i) (some i), alog := T.alog.set i (some (alphaPower m P i)) } where
  logLength := by simp [h.logLength]
  alogLength := by simp [h.alogLength]
  alog j hj := by
    rw [List.getElem?_set]
    split
    · next h' => subst h'; simp [h.alogLength, hi]
    · exact h.alog j (by omega)
  log j hj hlast := by
    rw [List.getElem?_set]
    by_cases hji : j = i
    · subst hji; simp [h.logLength, alphaPower_lt hm hP]
    · rw [if_neg (fun h => hji (by have := hlast i (by omega) h; omega))]
      exact h.log j (by omega) fun k hk => hlast k (by omega)
  logZero := by rw [List.getElem?_set_ne h0]; exact h.logZero

/-- The loop from pass `i` on: it fails exactly when a remaining power is 0 or closes the cycle early. -/
theorem buildLoop_cases {m P : Nat} (hm : 1 ≤ m) (hP : P >>> m = 1) :
    ∀ (k i : Nat) (T : Tables), i + k = 2 ^ m - 1 → Filled m P i T →
      (∀ j < i, alphaPower m P j ≠ 0) → (∀ j, 0 < j → j < i → alphaPower m P j ≠ 1) →
      ((∃ j < 2 ^ m - 1, alphaPower m P j = 0 ∨ (0 < j ∧ alphaPower m P j = 1)) ∧
        buildLoop m P k i (alphaPower m P i) T = none) ∨
      (∃ T', Filled m P (2 ^ m - 1) T' ∧ (∀ j < 2 ^ m - 1, alphaPower m P j ≠ 0) ∧
        (∀ j, 0 < j → j < 2 ^ m - 1 → alphaPower m P j ≠ 1) ∧
        buildLoop m P k i (alphaPower m P i) T = some (alphaPower m P (2 ^ m - 1), T')) := by
  intro k
  induction k with
  | zero =>
    intro i T hi hT h0 h1
    obtain rfl : i = 2 ^ m - 1 := by omega
    exact .inr ⟨T, hT, h0, h1, rfl⟩
  | succ k ih =>
    intro i T hi hT h0 h1
    by_cases hz : alphaPower m P i = 0
    · exact .inl ⟨⟨i, by omega, .inl hz⟩, by rw [buildLoop, if_pos hz]⟩
    by_cases ho : 0 < i ∧ alphaPower m P i = 1
    · exact .inl ⟨⟨i, by omega, .inr ho⟩, by rw [buildLoop, if_neg hz, if_pos ho]⟩
    have hb : buildLoop m P (k + 1) i (alphaPower m P i) T = buildLoop m P k (i + 1) (alphaPower m P (i + 1))
        { log := T.log.set (alphaPower m P i) (some i), alog := T.alog.set i (some (alphaPower m P i)) } := by
      rw [buildLoop, if_neg hz, if_neg ho, alphaPower_succ]
    rw [hb]
    refine ih (i + 1) _ (by omega) (hT.step hm hP (by omega) hz) ?_ ?_
    · intro j hj
      rcases Nat.lt_succ_iff_lt_or_eq.1 hj with h | rfl
      · exact h0 j h
      · exact hz
    · intro j hj0 hj
      rcases Nat.lt_succ_iff_lt_or_eq.1 hj with h | rfl
      · exact h1 j hj0 h
      · exact fun h => ho ⟨hj0, h⟩

/-- What a built pair of tables holds. -/
structure Built (m P : Nat) (T : Tables) : Prop where
  two_le : 2 ≤ m
  le_sixteen : m ≤ 16
  degree : P >>> m = 1
  cycle : FullCycle m P
  alogLength : T.alog.length = 2 ^ m
  alog : ∀ e ≤ 2 ^ m - 1, T.alog[e]? = some (some (alphaPower m P e))
  log : ∀ e < 2 ^ m - 1, T.log[alphaPower m P e]? = some (some e)
  logZero : T.log[0]? = some none

theorem buildTables_built {m P : Nat} {T : Tables} (h : buildTables m P = .ok T) : Built m P T := by
  obtain ⟨h2, h16, hP⟩ := buildTables_bounds h
  have hQ : 1 < 2 ^ m := Nat.one_lt_two_pow (by omega)
  unfold buildTables at h
  rw [if_neg (by simp only [Config.mMin, Config.mMax]; omega), if_neg (by simp [hP])] at h
  rcases buildLoop_cases (P := P) (by omega) hP (2 ^ m - 1) 0 (Tables.blank m) (by omega) (Filled.blank m P) (by simp)
    (by simp) with ⟨-, hb⟩ | ⟨T', hT, hz, ho, hb⟩ <;> rw [alphaPower_zero] at hb <;> rw [hb] at h
  · simp at h
  · simp only at h
    split at h
    · simp at h
    · next hc =>
      have hc : alphaPower m P (2 ^ m - 1) = 1 := by simpa using hc
      have hcyc : FullCycle m P := ⟨hz, ho, hc⟩
      simp only [Except.ok.injEq] at h
      subst h
      refine ⟨h2, h16, hP, hcyc, by simp [hT.alogLength], fun e he => ?_, fun e he => ?_, hT.logZero⟩
      · by_cases hQe : e = 2 ^ m - 1
        · subst hQe
          rw [hc]; simp [hT.alogLength]
        · simp only
          rw [List.getElem?_set_ne (by omega)]; exact hT.alog e (by omega)
      · exact hT.log e he fun k hk hke => by rw [hcyc.injective hk he hke]

/-- The construction succeeds exactly on a polynomial of the field's degree whose powers of `x` make one full cycle. -/
theorem buildTables_ok_iff {m P : Nat} :
    (∃ T, buildTables m P = .ok T) ↔ 2 ≤ m ∧ m ≤ 16 ∧ P >>> m = 1 ∧ FullCycle m P := by
  constructor
  · rintro ⟨T, h⟩
    have := buildTables_built h
    exact ⟨this.two_le, this.le_sixteen, this.degree, this.cycle⟩
  · rintro ⟨h2, h16, hP, hc⟩
    have hQ : 1 < 2 ^ m := Nat.one_lt_two_pow (by omega)
    unfold buildTables
    rw [if_neg (by simp only [Config.mMin, Config.mMax]; omega), if_neg (by simp [hP])]
    rcases buildLoop_cases (P := P) (by omega) hP (2 ^ m - 1) 0 (Tables.blank m) (by omega) (Filled.blank m P) (by simp)
      (by simp) with ⟨⟨j, hj, hbad⟩, -⟩ | ⟨T', hT, hz, ho, hb⟩
    · rcases hbad with h | ⟨h1, h2⟩
      · exact absurd h (hc.nonzero j hj)
      · exact absurd h2 (hc.notOne j h1 hj)
    · rw [alphaPower_zero] at hb
      exact ⟨_, by rw [hb]; simp only; rw [if_neg (by simp [hc.closes])]⟩

/-! ## Reading the tables -/

theorem Built.alogOf {F : Field} {P : Nat} (h : Built F.m P F.tables) {e : Nat} (he : e ≤ F.order) :
    F.alogOf e = alphaPower F.m P e := by
  simp only [Field.alogOf, Table.read, List.getD, h.alog e he, Option.getD_some]

theorem Built.logOf {F : Field} {P : Nat} (h : Built F.m P F.tables) {e : Nat} (he : e < F.order) :
    F.logOf (alphaPower F.m P e) = e := by
  simp only [Field.logOf, Table.read, List.getD, h.log e he, Option.getD_some]

theorem Built.order_pos {F : Field} {P : Nat} (h : Built F.m P F.tables) : 0 < F.order := by
  have : 1 < 2 ^ F.m := Nat.one_lt_two_pow (by have := h.two_le; omega)
  unfold Field.order; omega

/-- `ALOG` at a reduced index is that power of alpha. -/
theorem Built.alogOf_mod {F : Field} {P : Nat} (h : Built F.m P F.tables) (e : Nat) :
    F.alogOf (e % F.order) = alphaPower F.m P e := by
  rw [h.alogOf (Nat.le_of_lt (Nat.mod_lt _ h.order_pos))]
  exact h.cycle.mod e

/-- Every non-zero element is the power of alpha that its `LOG` names. -/
theorem Built.exists_log {F : Field} {P : Nat} (h : Built F.m P F.tables) {x : Nat} (h0 : x ≠ 0) (hx : x < F.size) :
    F.logOf x < F.order ∧ alphaPower F.m P (F.logOf x) = x := by
  obtain ⟨e, he, rfl⟩ := h.cycle.surjective (by have := h.two_le; omega) h.degree (Nat.one_le_iff_ne_zero.2 h0) hx
  rw [h.logOf he]
  exact ⟨he, rfl⟩

end Sys2Proof.Machine
end

