-- ==== Sys2Proof/Laws/FieldModel.lean ====
section
/-! SUPPORT. A built field is a field: its elements are those of GF(2)[x] modulo `P`, XOR is its addition, and the table
functions are its multiplication, inverse and powers. Lemmas about codes are read off that model. -/

namespace Sys2Proof.Algebra

open Machine (xtime alphaPower FullCycle Built)
open Polynomial (X C)

/-! ## Numbers as polynomials over GF(2) -/

/-- The polynomial whose coefficients are the bits of `x` below `n`. -/
noncomputable def natPoly (n x : Nat) : Polynomial (ZMod 2) :=
  ∑ i ∈ Finset.range n, if x.testBit i then X ^ i else 0

theorem coeff_natPoly (n x k : Nat) : (natPoly n x).coeff k = if k < n ∧ x.testBit k = true then 1 else 0 := by
  have : ∀ i, (if x.testBit i then (X : Polynomial (ZMod 2)) ^ i else 0).coeff k = if i = k then (if x.testBit k then 1 else 0) else 0 := by
    intro i
    by_cases hik : i = k
    · subst hik; split <;> simp
    · split <;> simp [Polynomial.coeff_X_pow, Ne.symm hik]
  rw [natPoly, Polynomial.finsetSum_coeff, Finset.sum_congr rfl fun i _ => this i, Finset.sum_ite_eq']
  by_cases h1 : k < n <;> by_cases h2 : x.testBit k = true <;> simp [h1, h2]

theorem natPoly_xor (n a b : Nat) : natPoly n (a ^^^ b) = natPoly n a + natPoly n b := by
  ext k
  rw [Polynomial.coeff_add, coeff_natPoly, coeff_natPoly, coeff_natPoly, Nat.testBit_xor]
  by_cases h : k < n <;> cases a.testBit k <;> cases b.testBit k <;> simp [h]
  decide

theorem natPoly_degree_lt (n x : Nat) : (natPoly n x).degree < n := by
  rw [Polynomial.degree_lt_iff_coeff_zero]
  intro k hk
  rw [coeff_natPoly, if_neg (by omega)]

theorem natPoly_succ_of_lt {m x : Nat} (hx : x < 2 ^ m) : natPoly (m + 1) x = natPoly m x := by
  ext k
  rw [coeff_natPoly, coeff_natPoly]
  by_cases h : k = m
  · subst h; simp [Nat.testBit_lt_two_pow hx]
  · have : k < m + 1 ↔ k < m := by omega
    simp [this]

theorem natPoly_injective {m a b : Nat} (ha : a < 2 ^ m) (hb : b < 2 ^ m) (h : natPoly m a = natPoly m b) : a = b := by
  refine Nat.eq_of_testBit_eq fun k => ?_
  by_cases hk : k < m
  · have := congrArg (Polynomial.coeff · k) h
    simp only [coeff_natPoly, hk, true_and] at this
    rcases ha' : a.testBit k <;> rcases hb' : b.testBit k <;> simp [ha', hb'] at this ⊢
  · rw [Nat.testBit_lt_two_pow (lt_of_lt_of_le ha (Nat.pow_le_pow_right (by omega) (by omega))),
      Nat.testBit_lt_two_pow (lt_of_lt_of_le hb (Nat.pow_le_pow_right (by omega) (by omega)))]

theorem natPoly_surjective {m : Nat} {f : Polynomial (ZMod 2)} (hf : f.degree < m) : ∃ x < 2 ^ m, natPoly m x = f := by
  refine ⟨Nat.ofBits fun i : Fin m => decide (f.coeff i = 1), Nat.ofBits_lt_two_pow _, ?_⟩
  ext k
  rw [coeff_natPoly]
  by_cases hk : k < m
  · rw [Nat.testBit_ofBits_lt _ _ hk]
    have : ∀ c : ZMod 2, (if k < m ∧ decide (c = 1) = true then (1 : ZMod 2) else 0) = c := by simp [hk]; decide
    exact this _
  · rw [if_neg (by omega), Polynomial.coeff_eq_zero_of_degree_lt]
    exact lt_of_lt_of_le hf (by exact_mod_cast Nat.le_of_not_lt hk)

theorem natPoly_shift {m x : Nat} (hx : x < 2 ^ m) : natPoly (m + 1) (x <<< 1) = X * natPoly (m + 1) x := by
  ext k
  rw [coeff_natPoly, Nat.testBit_shiftLeft]
  cases k with
  | zero => simp
  | succ k =>
    rw [Polynomial.coeff_X_mul, coeff_natPoly]
    by_cases h : k = m
    · subst h; simp [Nat.testBit_lt_two_pow hx]
    · have : k < m + 1 ↔ k < m := by omega
      simp [this]

/-- The modulus `P` of a field as a polynomial. -/
noncomputable abbrev modulus (m P : Nat) : Polynomial (ZMod 2) := natPoly (m + 1) P

theorem testBit_degree {m P : Nat} (hP : P >>> m = 1) : P.testBit m = true := by rw [Nat.testBit, hP]; rfl

theorem modulus_monic {m P : Nat} (hP : P >>> m = 1) : (modulus m P).Monic ∧ (modulus m P).degree = m := by
  have hc : (modulus m P).coeff m = 1 := by rw [coeff_natPoly]; simp [testBit_degree hP]
  have hle : (modulus m P).degree ≤ m := by
    have := natPoly_degree_lt (m + 1) P
    rw [Polynomial.degree_lt_iff_coeff_zero] at this
    rw [Polynomial.degree_le_iff_coeff_zero]
    intro k hk
    exact this k (by exact_mod_cast hk)
  exact ⟨Polynomial.monic_of_degree_le m hle hc, le_antisymm hle (Polynomial.le_degree_of_ne_zero (by simp [hc]))⟩

/-! ## The model -/

/-- A field `K` that the elements of `F` stand for, XOR being its addition and `xtime` its multiplication by alpha. -/
structure Model (F : Machine.Field) (P : Nat) (K : Type) [Field K] where
  val : Nat → K
  char_two : (2 : K) = 0
  map_xor : ∀ a b, val (a ^^^ b) = val a + val b
  injective : ∀ a b, a < F.size → b < F.size → val a = val b → a = b
  surjective : ∀ y, ∃ a < F.size, val a = y
  root : K
  map_alphaPower : ∀ e, val (alphaPower F.m P e) = root ^ e
  map_bits : ∀ b < F.size, val b = ∑ i ∈ Finset.range F.m, if b.testBit i then root ^ i else 0

theorem exists_model {F : Machine.Field} {P : Nat} (h : Built F.m P F.tables) :
    ∃ (K : Type) (_ : Field K), Nonempty (Model F P K) := by
  have hm := h.two_le
  have hQ : 1 < 2 ^ F.m := Nat.one_lt_two_pow (by omega)
  obtain ⟨hmon, hdeg⟩ := modulus_monic h.degree
  let R := AdjoinRoot (modulus F.m P)
  let val : Nat → R := fun x => AdjoinRoot.mk _ (natPoly (F.m + 1) x)
  have vxor : ∀ a b, val (a ^^^ b) = val a + val b := fun a b => by simp [val, natPoly_xor]
  have vinj : ∀ a b, a < F.size → b < F.size → val a = val b → a = b := by
    intro a b ha hb hab
    have hd := AdjoinRoot.mk_eq_mk.1 hab
    rw [natPoly_succ_of_lt ha, natPoly_succ_of_lt hb] at hd
    refine natPoly_injective ha hb (sub_eq_zero.1 (Polynomial.eq_zero_of_dvd_of_degree_lt hd ?_))
    rw [hdeg]
    exact lt_of_le_of_lt (Polynomial.degree_sub_le _ _) (max_lt (natPoly_degree_lt _ _) (natPoly_degree_lt _ _))
  have vsurj : ∀ y, ∃ a < F.size, val a = y := by
    intro y
    obtain ⟨f, rfl⟩ := AdjoinRoot.mk_surjective y
    have hlt : (f %ₘ modulus F.m P).degree < F.m := hdeg ▸ Polynomial.degree_modByMonic_lt f hmon
    obtain ⟨a, ha, hf⟩ := natPoly_surjective hlt
    refine ⟨a, ha, ?_⟩
    simp only [val]
    rw [natPoly_succ_of_lt ha, hf, AdjoinRoot.mk_eq_mk]
    exact ⟨-(f /ₘ modulus F.m P), by rw [← sub_eq_zero]; linear_combination (Polynomial.modByMonic_add_div f (modulus F.m P))⟩
  have v1 : val 1 = 1 := by
    have : natPoly (F.m + 1) 1 = 1 := by
      ext k
      rw [coeff_natPoly, Polynomial.coeff_one]
      cases k with
      | zero => simp
      | succ k => simp [Nat.testBit_succ]
    simp [val, this]
  have vtime : ∀ x < 2 ^ F.m, val (xtime F.m P x) = AdjoinRoot.root _ * val x := by
    intro x hx
    have hs : val (x <<< 1) = AdjoinRoot.root _ * val x := by
      simp only [val]; rw [natPoly_shift hx, map_mul, AdjoinRoot.mk_X]
    simp only [xtime]
    split
    · rw [vxor, hs]
      have : val P = 0 := AdjoinRoot.mk_self
      rw [this, add_zero]
    · exact hs
  have valpha : ∀ e, val (alphaPower F.m P e) = AdjoinRoot.root _ ^ e := by
    intro e
    induction e with
    | zero => simpa using v1
    | succ e ih =>
      rw [Machine.alphaPower_succ, vtime _ (Machine.alphaPower_lt (by omega) h.degree e), ih, pow_succ, mul_comm]
  have v0 : val 0 = 0 := by simpa using vxor 0 0
  have hne : (0 : R) ≠ 1 := by
    intro h01
    have := vinj 0 1 (by unfold Machine.Field.size; omega) hQ (by rw [v0, v1, h01])
    omega
  have hroot : (AdjoinRoot.root (modulus F.m P)) ^ F.order = 1 := by
    rw [← valpha, show alphaPower F.m P F.order = 1 from h.cycle.closes, v1]
  have hfield : IsField R := by
    refine ⟨⟨0, 1, hne⟩, mul_comm, fun {y} hy => ?_⟩
    obtain ⟨a, ha, rfl⟩ := vsurj y
    obtain ⟨he, hea⟩ := h.exists_log (fun h0 => hy (by rw [h0, v0])) ha
    refine ⟨AdjoinRoot.root _ ^ (F.order - F.logOf a), ?_⟩
    rw [← hea, valpha, ← pow_add, hea, Nat.add_sub_cancel' he.le, hroot]
  have vbits : ∀ b < F.size, val b = ∑ i ∈ Finset.range F.m, if b.testBit i then AdjoinRoot.root _ ^ i else 0 := by
    intro b hb
    simp only [val]
    rw [natPoly_succ_of_lt hb, natPoly, map_sum]
    refine Finset.sum_congr rfl fun i _ => ?_
    split <;> simp
  have v2 : (2 : R) = 0 := by
    have : val 1 + val 1 = 0 := by rw [← vxor]; simpa using v0
    rw [v1] at this
    rw [← one_add_one_eq_two]
    exact this
  exact ⟨R, hfield.toField, ⟨@Model.mk F P R hfield.toField val v2 vxor vinj vsurj (AdjoinRoot.root _) valpha
    vbits⟩⟩

end Sys2Proof.Algebra
end

