-- ==== Sys2Proof/Laws/Lengths.lean ====
section
/-! SUPPORT. Lengths: generators, parity, codewords, bit streams. -/

namespace Sys2Proof.Machine

@[simp] theorem byteBits_length (b : Byte) : (byteBits b).length = 8 := rfl

@[simp] theorem bitStream_length (D : List Byte) : (bitStream D).length = 8 * D.length := by
  induction D with
  | nil => rfl
  | cons b D ih =>
    have : bitStream (b :: D) = byteBits b ++ bitStream D := rfl
    rw [this, List.length_append, ih, byteBits_length, List.length_cons]; omega

@[simp] theorem bytesMsbFirst_length (count v : Nat) : (bytesMsbFirst count v).length = count := by
  simp [bytesMsbFirst]

@[simp] theorem symbols_length (D : List Byte) : (symbols D).length = D.length := by simp [symbols]

@[simp] theorem Field.mulRoot_length (F : Field) (g : List Nat) (a : Nat) : (F.mulRoot g a).length = g.length + 1 := by
  simp [Field.mulRoot]

theorem Field.foldl_mulRoot_length (F : Field) (roots g : List Nat) :
    (roots.foldl F.mulRoot g).length = g.length + roots.length := by
  induction roots generalizing g with
  | nil => rfl
  | cons a roots ih => rw [List.foldl_cons, ih, Field.mulRoot_length, List.length_cons]; omega

/-- A polynomial of given roots has one coefficient more than roots. -/
@[simp] theorem Field.polyOfRoots_length (F : Field) (roots : List Nat) :
    (F.polyOfRoots roots).length = roots.length + 1 := by
  rw [Field.polyOfRoots, Field.foldl_mulRoot_length]; simp [Nat.add_comm]

@[simp] theorem rsGenerator_length (F : Field) (r : Nat) : (rsGenerator F r).length = r + 1 := by
  simp [rsGenerator]

theorem rsParityStep_length {F : Field} {g par : List Nat} {r : Nat} (hg : g.length = r + 1) (hp : par.length = r)
    (hr : 1 ≤ r) (u : Nat) : (rsParityStep F g par u).length = r := by
  simp [rsParityStep, hg, hp]; omega

/-- The parity of a payload has as many symbols as the register. -/
theorem rsParity_length {F : Field} {g : List Nat} {r : Nat} (hg : g.length = r + 1) (hr : 1 ≤ r) (u : List Nat) :
    (rsParity F g r u).length = r := by
  unfold rsParity
  have h0 : (List.replicate r 0).length = r := List.length_replicate
  generalize List.replicate r 0 = par at h0
  induction u generalizing par with
  | nil => exact h0
  | cons a u ih => exact ih _ (rsParityStep_length hg h0 hr a)

theorem rsCodeword_length {F : Field} {g : List Nat} {r : Nat} (hg : g.length = r + 1) (hr : 1 ≤ r) (D : List Byte) :
    (rsCodeword F g r D).length = D.length + r := by
  simp [rsCodeword, rsParity_length hg hr]

@[simp] theorem bchCodeword_length (g p : Nat) (D : List Byte) :
    (bchCodeword g p D).length = D.length + bytesFor p := by simp [bchCodeword]

theorem readRange_length {m : Memory} {i n : Nat} {D : List Byte} (h : m.readRange i n = some D) : D.length = n :=
  (Memory.readRange_eq_some.1 h).1

/-- From a state that keeps the invariant, what a command writes to `OBUF` fits it (R65). -/
theorem State.Inv.output_fits {s : State} (hi : s.Inv) :
    (∀ {F : Field} {g D}, s.field = some F → s.rsGen = some g → s.ilen.toNat + s.rsR.toNat ≤ F.order →
      D.length = s.ilen.toNat → (rsCodeword F g s.rsR.toNat D).length ≤ 8192) ∧
    (∀ {F : Field} {g} {p : Word} {D}, s.field = some F → s.bchGen = some g → 8 * s.ilen.toNat + p.toNat ≤ F.order →
      D.length = s.ilen.toNat → (bchCodeword g p.toNat D).length ≤ 8192) := by
  constructor
  · intro F g D hF hg hl hD
    obtain ⟨F', hF', h8, hr, -, rfl⟩ := hi.rsBuilt g hg
    rw [hF] at hF'
    obtain rfl := Option.some.inj hF'
    have := Field.order_le (k := 8) h8
    rw [rsCodeword_length (rsGenerator_length F _) hr, hD]; omega
  · intro F g p D hF _ hl hD
    have := Field.order_le (hi.field_bounds hF).2
    rw [bchCodeword_length, hD]; unfold bytesFor; omega

end Sys2Proof.Machine
end

