-- ==== Sys2Proof/Laws/Division.lean ====
section
/-! SUPPORT. The division register shared by the CRC and BCH units: it is linear, and it holds a remainder. -/

namespace Sys2Proof.Algebra

open Machine (divisionStep divide bitStream byteBits)
open Polynomial (X C)

/-! ## Linearity -/

theorem divisionStep_xor (n poly r r' : Nat) (b b' : Bool) :
    divisionStep n poly (r ^^^ r') (b ^^ b') = divisionStep n poly r b ^^^ divisionStep n poly r' b' := by
  simp only [divisionStep, Nat.shiftLeft_xor_distrib, Nat.xor_mod_two_pow, Nat.testBit_xor]
  generalize (r <<< 1) % 2 ^ n = x
  generalize (r' <<< 1) % 2 ^ n = y
  cases r.testBit (n - 1) <;> cases r'.testBit (n - 1) <;> cases b <;> cases b' <;> simp <;>
    first
      | ac_rfl
      | (rw [show x ^^^ poly ^^^ (y ^^^ poly) = (poly ^^^ poly) ^^^ (x ^^^ y) by ac_rfl]; simp)

/-- The register after the XOR of two streams of one length is the XOR of the registers. -/
theorem divide_xor (n poly : Nat) {a b : List Bool} (h : a.length = b.length) (r r' : Nat) :
    divide n poly (r ^^^ r') (List.zipWith (· ^^ ·) a b) = divide n poly r a ^^^ divide n poly r' b := by
  induction a generalizing b r r' with
  | nil => cases b <;> simp_all [divide]
  | cons u a ih =>
    cases b with
    | nil => simp at h
    | cons v b =>
      have h' : a.length = b.length := by simpa using h
      have := ih h' (divisionStep n poly r u) (divisionStep n poly r' v)
      rw [← divisionStep_xor] at this
      simpa [divide] using this

theorem bitStream_cons (b : Byte) (D : List Byte) : bitStream (b :: D) = byteBits b ++ bitStream D := rfl

theorem byteBits_xor (a b : Byte) : byteBits (a ^^^ b) = List.zipWith (· ^^ ·) (byteBits a) (byteBits b) := by
  simp [byteBits]

theorem bitStream_xor {D E : List Byte} (h : D.length = E.length) :
    bitStream (List.zipWith (fun a b => a ^^^ b) D E) = List.zipWith (· ^^ ·) (bitStream D) (bitStream E) := by
  induction D generalizing E with
  | nil => simp [bitStream]
  | cons u D ih =>
    cases E with
    | nil => simp at h
    | cons v E =>
      have h' : D.length = E.length := by simpa using h
      rw [List.zipWith_cons_cons, bitStream_cons, bitStream_cons, bitStream_cons, ih h', byteBits_xor,
        List.zipWith_append (by simp)]

/-- A bit of a stream (R11). -/
theorem getElem?_bitStream (D : List Byte) {i : Nat} (hi : i < 8 * D.length) :
    (bitStream D)[i]? = some (Machine.bitAt D i) := by
  induction D generalizing i with
  | nil => simp at hi
  | cons b D ih =>
    rw [bitStream_cons]
    by_cases h : i < 8
    · rw [List.getElem?_append_left (by simpa using h), Machine.bitAt]
      have : i / 8 = 0 := by omega
      interval_cases i <;> simp [byteBits]
    · rw [List.getElem?_append_right (by simp; omega), Machine.byteBits_length, ih (by simp at hi; omega)]
      have h1 : i / 8 = (i - 8) / 8 + 1 := by omega
      have h2 : i % 8 = (i - 8) % 8 := by omega
      rw [Machine.bitAt, Machine.bitAt, h1, h2, List.getD_cons_succ]

/-! ## The remainder -/

theorem divisionStep_lt {n poly : Nat} (hp : poly < 2 ^ n) (r : Nat) (b : Bool) : divisionStep n poly r b < 2 ^ n := by
  have h : (r <<< 1) % 2 ^ n < 2 ^ n := Nat.mod_lt _ (Nat.two_pow_pos n)
  simp only [divisionStep]
  split
  · exact Nat.xor_lt_two_pow h hp
  · exact h

theorem divide_lt {n poly init : Nat} (hp : poly < 2 ^ n) (hi : init < 2 ^ n) (l : List Bool) :
    divide n poly init l < 2 ^ n := by
  induction l generalizing init with
  | nil => exact hi
  | cons b l ih => exact ih (divisionStep_lt hp init b)

/-- The polynomial of a bit stream, highest power first (R68). -/
noncomputable def bitPoly : List Bool → Polynomial (ZMod 2)
  | [] => 0
  | b :: l => (if b then X ^ l.length else 0) + bitPoly l

theorem bitPoly_append (a b : List Bool) : bitPoly (a ++ b) = bitPoly a * X ^ b.length + bitPoly b := by
  induction a with
  | nil => simp [bitPoly]
  | cons u a ih =>
    simp only [List.cons_append, bitPoly, ih, List.length_append, pow_add]
    split <;> ring

/-- The divisor `x^n + poly` (R160). -/
noncomputable def divisor (n poly : Nat) : Polynomial (ZMod 2) := X ^ n + natPoly n poly

theorem double_eq_zero (f : Polynomial (ZMod 2)) : f + f = 0 := by
  ext k; rw [Polynomial.coeff_add, Polynomial.coeff_zero]; generalize f.coeff k = c; revert c; decide

theorem natPoly_shift_mod {n r : Nat} (hn : 1 ≤ n) :
    natPoly n ((r <<< 1) % 2 ^ n) + (if r.testBit (n - 1) then X ^ n else 0) = X * natPoly n r := by
  ext k
  rw [Polynomial.coeff_add, coeff_natPoly, Nat.testBit_mod_two_pow, Nat.testBit_shiftLeft]
  cases k with
  | zero =>
    have : (if r.testBit (n - 1) then (X : Polynomial (ZMod 2)) ^ n else 0).coeff 0 = 0 := by
      split
      · rw [Polynomial.coeff_X_pow, if_neg (by omega)]
      · simp
    simp [this]
  | succ k =>
    rw [Polynomial.coeff_X_mul, coeff_natPoly]
    by_cases h : k + 1 = n
    · have hk : n - 1 = k := by omega
      have : (if r.testBit (n - 1) then (X : Polynomial (ZMod 2)) ^ n else 0).coeff (k + 1) = if r.testBit k then 1 else 0 := by
        rw [hk]; split
        · rw [Polynomial.coeff_X_pow, if_pos h]
        · simp
      rw [this, if_neg (by omega), zero_add]
      have : k < n := by omega
      simp [this]
    · have : (if r.testBit (n - 1) then (X : Polynomial (ZMod 2)) ^ n else 0).coeff (k + 1) = 0 := by
        split
        · rw [Polynomial.coeff_X_pow, if_neg h]
        · simp
      rw [this, add_zero]
      by_cases hk : k + 1 < n
      · have : k < n := by omega
        simp [hk, this]
      · have : ¬ k < n := by omega
        simp [hk, this]

/-- One step: `x` times the register plus the incoming bit at `x^n`, less a multiple of the divisor. -/
theorem divisionStep_poly {n poly : Nat} (hn : 1 ≤ n) (r : Nat) (b : Bool) :
    natPoly n (divisionStep n poly r b) =
      X * natPoly n r + (if b then X ^ n else 0) + (if (r.testBit (n - 1) ^^ b) then divisor n poly else 0) := by
  have h := natPoly_shift_mod (r := r) hn
  have hd := double_eq_zero (X ^ n : Polynomial (ZMod 2))
  rw [divisionStep]
  cases hr : r.testBit (n - 1) <;> cases b <;> simp [hr, natPoly_xor, divisor] at h ⊢
  · exact h
  · linear_combination h - hd
  · linear_combination h - hd
  · linear_combination h - hd

/-- The register after a stream is the remainder, by the divisor, of the stream at `x^n` and the pre-set register above it. -/
theorem divide_poly {n poly : Nat} (hn : 1 ≤ n) (l : List Bool) (init : Nat) :
    divisor n poly ∣ natPoly n (divide n poly init l) + (natPoly n init * X ^ l.length + bitPoly l * X ^ n) := by
  induction l generalizing init with
  | nil => simp [divide, bitPoly, double_eq_zero]
  | cons b l ih =>
    obtain ⟨q, hq⟩ := ih (divisionStep n poly init b)
    have hd : divide n poly init (b :: l) = divide n poly (divisionStep n poly init b) l := rfl
    rw [divisionStep_poly hn] at hq
    refine ⟨q + (if (init.testBit (n - 1) ^^ b) then X ^ l.length else 0), ?_⟩
    rw [hd, bitPoly, List.length_cons]
    have hd2 := double_eq_zero ((if (init.testBit (n - 1) ^^ b) then divisor n poly else 0) * X ^ l.length)
    have hm : divisor n poly * (if (init.testBit (n - 1) ^^ b) then X ^ l.length else 0) =
        (if (init.testBit (n - 1) ^^ b) then divisor n poly else 0) * X ^ l.length := by split <;> simp
    have hb : (if b = true then (X : Polynomial (ZMod 2)) ^ l.length else 0) * X ^ n = (if b then X ^ n else 0) * X ^ l.length := by
      split
      · rw [mul_comm]
      · simp
    rw [mul_add, hm]
    linear_combination hq + hb - hd2

end Sys2Proof.Algebra
end

