-- ==== Sys2Proof/Laws/FieldLaws.lean ====
section
/-! SUPPORT. What each field function is in the model of the field: products, inverses, powers, sums, polynomial values. -/

namespace Sys2Proof.Algebra

open Machine (xtime alphaPower FullCycle Built xorSum)

section
variable {F : Machine.Field} {P : Nat} {K : Type} [Field K]

/-! ## Results stay in the field -/

theorem alpha_lt (h : Built F.m P F.tables) (e : Nat) : F.alpha e < F.size := by
  rw [Machine.Field.alpha, h.alogOf_mod]
  exact Machine.alphaPower_lt (by have := h.two_le; omega) h.degree e

theorem alogOf_mod_lt (h : Built F.m P F.tables) (e : Nat) : F.alogOf (e % F.order) < F.size := alpha_lt h e

theorem size_pos (F : Machine.Field) : 0 < F.size := Nat.two_pow_pos _

theorem one_lt_size (h : Built F.m P F.tables) : 1 < F.size :=
  Nat.one_lt_two_pow (by have := h.two_le; omega)

theorem mul_lt (h : Built F.m P F.tables) (a b : Nat) : F.mul a b < F.size := by
  unfold Machine.Field.mul
  split
  · exact size_pos F
  · exact alogOf_mod_lt h _

theorem pow_lt (h : Built F.m P F.tables) (a n : Nat) : F.pow a n < F.size := by
  unfold Machine.Field.pow
  split
  · exact one_lt_size h
  · split
    · exact size_pos F
    · exact alogOf_mod_lt h _

theorem xor_lt {a b : Nat} (ha : a < F.size) (hb : b < F.size) : a ^^^ b < F.size := Nat.xor_lt_two_pow ha hb

theorem xorSum_lt {l : List Nat} (hl : ∀ v ∈ l, v < F.size) : xorSum l < F.size := by
  induction l with
  | nil => exact size_pos F
  | cons a l ih =>
    exact xor_lt (hl a List.mem_cons_self) (ih fun v hv => hl v (List.mem_cons_of_mem _ hv))

theorem getD_lt {l : List Nat} (hl : ∀ v ∈ l, v < F.size) (i : Nat) : l.getD i 0 < F.size := by
  rw [List.getD_eq_getElem?_getD]
  cases h : l[i]? with
  | none => exact size_pos F
  | some v => exact hl v (List.mem_of_getElem? h)

/-! ## Values -/

namespace Model
variable (M : Model F P K)
include M

theorem add_self (y : K) : y + y = 0 := by rw [← two_mul, M.char_two, zero_mul]

theorem neg_eq (y : K) : -y = y := neg_eq_of_add_eq_zero_left (M.add_self y)

theorem sub_eq (x y : K) : x - y = x + y := by rw [sub_eq_add_neg, M.neg_eq]

@[simp] theorem val_zero : M.val 0 = 0 := by simpa using M.map_xor 0 0

@[simp] theorem val_one : M.val 1 = 1 := by simpa using M.map_alphaPower 0

theorem val_eq_zero {a : Nat} (ha : a < F.size) : M.val a = 0 ↔ a = 0 :=
  ⟨fun h => M.injective a 0 ha (size_pos F) (by simpa using h), by rintro rfl; simp⟩

theorem root_pow_order (h : Built F.m P F.tables) : M.root ^ F.order = 1 := by
  rw [← M.map_alphaPower, show alphaPower F.m P F.order = 1 from h.cycle.closes, M.val_one]

theorem root_ne_zero (h : Built F.m P F.tables) : M.root ≠ 0 := by
  intro h0
  have := M.root_pow_order h
  rw [h0, zero_pow h.order_pos.ne'] at this
  exact zero_ne_one this

theorem root_pow_mod (h : Built F.m P F.tables) (e : Nat) : M.root ^ (e % F.order) = M.root ^ e := by
  conv_rhs => rw [← Nat.mod_add_div e F.order, pow_add, pow_mul, M.root_pow_order h, one_pow, mul_one]

theorem root_pow_injective (h : Built F.m P F.tables) {i j : Nat} (hi : i < F.order) (hj : j < F.order)
    (he : M.root ^ i = M.root ^ j) : i = j := by
  rw [← M.map_alphaPower, ← M.map_alphaPower] at he
  have h1 : 1 ≤ F.m := by have := h.two_le; omega
  exact h.cycle.injective hi hj
    (M.injective _ _ (Machine.alphaPower_lt h1 h.degree i) (Machine.alphaPower_lt h1 h.degree j) he)

theorem val_alogOf_mod (h : Built F.m P F.tables) (e : Nat) : M.val (F.alogOf (e % F.order)) = M.root ^ e := by
  rw [h.alogOf_mod, M.map_alphaPower]

theorem val_alpha (h : Built F.m P F.tables) (e : Nat) : M.val (F.alpha e) = M.root ^ e := M.val_alogOf_mod h e

theorem alpha_ne_zero (h : Built F.m P F.tables) (e : Nat) : F.alpha e ≠ 0 := by
  intro h0
  have := M.val_alpha h e
  rw [h0, M.val_zero] at this
  exact pow_ne_zero e (M.root_ne_zero h) this.symm

theorem root_pow_logOf (h : Built F.m P F.tables) {x : Nat} (h0 : x ≠ 0) (hx : x < F.size) :
    M.root ^ F.logOf x = M.val x := by
  rw [← M.map_alphaPower, (h.exists_log h0 hx).2]

theorem val_mul (h : Built F.m P F.tables) {a b : Nat} (ha : a < F.size) (hb : b < F.size) :
    M.val (F.mul a b) = M.val a * M.val b := by
  unfold Machine.Field.mul
  split
  · next h0 => rcases h0 with rfl | rfl <;> simp
  · next h0 =>
    rw [M.val_alogOf_mod h, pow_add, M.root_pow_logOf h (by tauto) ha, M.root_pow_logOf h (by tauto) hb]

theorem inv_ok (h : Built F.m P F.tables) {a : Nat} (h0 : a ≠ 0) (ha : a < F.size) :
    ∃ ai, F.inv a = .ok ai ∧ ai < F.size ∧ M.val ai = (M.val a)⁻¹ := by
  refine ⟨_, Machine.Field.inv_ok h0, alogOf_mod_lt h _, ?_⟩
  rw [M.val_alogOf_mod h, ← M.root_pow_logOf h h0 ha]
  refine eq_inv_of_mul_eq_one_left ?_
  rw [← pow_add, Nat.sub_add_cancel (h.exists_log h0 ha).1.le, M.root_pow_order h]

theorem div_ok (h : Built F.m P F.tables) {a b : Nat} (ha : a < F.size) (h0 : b ≠ 0) (hb : b < F.size) :
    ∃ q, F.div a b = .ok q ∧ q < F.size ∧ M.val q = M.val a / M.val b := by
  obtain ⟨bi, hbi, hlt, hv⟩ := M.inv_ok h h0 hb
  exact ⟨F.mul a bi, by simp [Machine.Field.div, hbi], mul_lt h a bi, by rw [M.val_mul h ha hlt, hv, div_eq_mul_inv]⟩

theorem val_pow (h : Built F.m P F.tables) {a : Nat} (ha : a < F.size) (n : Nat) : M.val (F.pow a n) = M.val a ^ n := by
  unfold Machine.Field.pow
  split
  · next hn => subst hn; simp
  · next hn =>
    split
    · next h0 => subst h0; simp [hn]
    · next h0 => rw [M.val_alogOf_mod h, pow_mul, M.root_pow_logOf h h0 ha]

theorem val_xorSum (l : List Nat) : M.val (xorSum l) = (l.map M.val).sum := by
  induction l with
  | nil => exact M.val_zero
  | cons a l ih =>
    have : xorSum (a :: l) = a ^^^ xorSum l := rfl
    rw [this, M.map_xor, ih, List.map_cons, List.sum_cons]

/-- `xtime` is the multiplication by alpha. -/
theorem val_xtime (h : Built F.m P F.tables) {x : Nat} (hx : x < F.size) :
    M.val (xtime F.m P x) = M.root * M.val x := by
  by_cases h0 : x = 0
  · subst h0; simp
  · obtain ⟨-, he⟩ := h.exists_log h0 hx
    rw [← he, ← Machine.alphaPower_succ, M.map_alphaPower, M.map_alphaPower, pow_succ, mul_comm]

theorem val_xtime_iterate (h : Built F.m P F.tables) {x : Nat} (hx : x < F.size) (i : Nat) :
    (xtime F.m P)^[i] x < F.size ∧ M.val ((xtime F.m P)^[i] x) = M.root ^ i * M.val x := by
  induction i with
  | zero => exact ⟨hx, by simp⟩
  | succ i ih =>
    rw [Function.iterate_succ_apply']
    exact ⟨Machine.xtime_lt h.degree ih.1, by rw [M.val_xtime h ih.1, ih.2, pow_succ]; ring⟩

/-- The sum of a list over a range, in the model. -/
theorem val_xorSum_range (n : Nat) (f : Nat → Nat) :
    M.val (xorSum ((List.range n).map f)) = ∑ i ∈ Finset.range n, M.val (f i) := by
  rw [M.val_xorSum, List.map_map]
  rfl

/-- The value of a polynomial, in the model. -/
theorem val_polyEval (h : Built F.m P F.tables) {p : List Nat} (hp : ∀ v ∈ p, v < F.size) (d : Nat) {x : Nat}
    (hx : x < F.size) :
    M.val (F.polyEval p d x) = ∑ i ∈ Finset.range (d + 1), M.val (p.getD i 0) * M.val x ^ i := by
  rw [Machine.Field.polyEval, M.val_xorSum_range]
  exact Finset.sum_congr rfl fun i _ => by rw [M.val_mul h (getD_lt hp i) (pow_lt h _ _), M.val_pow h hx]

end Model
end

end Sys2Proof.Algebra
end

