-- ==== Sys2Proof/Laws/WordPolys.lean ====
section
/-! SUPPORT. Words as polynomials over the model of the field, highest power first: Horner's rule, products of root factors,
and one step of the parity division. -/

namespace Sys2Proof.Algebra

open Machine (xtime alphaPower FullCycle Built xorSum rsHorner rsParityStep rsGenerator rsSyndromes)
open Polynomial (X C)

section
variable {F : Machine.Field} {P : Nat} {K : Type} [Field K]

/-- A list of coefficients, highest power first, as a polynomial (R68). -/
noncomputable def polyHigh : List K → Polynomial K
  | [] => 0
  | u :: l => C u * X ^ l.length + polyHigh l

theorem polyHigh_append (a b : List K) : polyHigh (a ++ b) = polyHigh a * X ^ b.length + polyHigh b := by
  induction a with
  | nil => simp [polyHigh]
  | cons u a ih => simp only [List.cons_append, polyHigh, ih, List.length_append, pow_add]; ring

theorem polyHigh_concat (a : List K) (u : K) : polyHigh (a ++ [u]) = polyHigh a * X + C u := by
  rw [polyHigh_append]; simp [polyHigh]

theorem polyHigh_zipWith_add {a b : List K} (h : a.length = b.length) :
    polyHigh (List.zipWith (· + ·) a b) = polyHigh a + polyHigh b := by
  induction a generalizing b with
  | nil => cases b <;> simp_all [polyHigh]
  | cons u a ih =>
    cases b with
    | nil => simp at h
    | cons v b =>
      have h' : a.length = b.length := by simpa using h
      simp only [List.zipWith_cons_cons, polyHigh, ih h', List.length_zipWith, h', min_self, map_add]; ring

theorem polyHigh_map_mul (a : List K) (c : K) : polyHigh (a.map (c * ·)) = C c * polyHigh a := by
  induction a with
  | nil => simp [polyHigh]
  | cons u a ih => simp only [List.map_cons, polyHigh, ih, List.length_map, map_mul]; ring

theorem polyHigh_degree_lt (a : List K) : (polyHigh a).degree < a.length := by
  induction a with
  | nil => simp [polyHigh]
  | cons u a ih =>
    refine lt_of_le_of_lt (Polynomial.degree_add_le _ _) (max_lt ?_ ?_)
    · exact lt_of_le_of_lt (Polynomial.degree_C_mul_X_pow_le _ _) (Nat.cast_lt.2 (by simp))
    · exact lt_trans ih (Nat.cast_lt.2 (by simp))

theorem coeff_polyHigh (a : List K) {i : Nat} (hi : i < a.length) :
    (polyHigh a).coeff (a.length - 1 - i) = a.getD i 0 := by
  induction a generalizing i with
  | nil => simp at hi
  | cons u a ih =>
    rw [polyHigh, Polynomial.coeff_add, Polynomial.coeff_C_mul_X_pow]
    cases i with
    | zero =>
      simp only [List.length_cons, Nat.add_sub_cancel, Nat.sub_zero, if_true, List.getD_cons_zero]
      rw [Polynomial.coeff_eq_zero_of_degree_lt (polyHigh_degree_lt a), add_zero]
    | succ i =>
      have hi' : i < a.length := by simpa using hi
      rw [List.length_cons, if_neg (by omega), zero_add, List.getD_cons_succ,
        show a.length + 1 - 1 - (i + 1) = a.length - 1 - i by omega, ih hi']

/-- Evaluation as a sum of locator powers (R196). -/
theorem eval_polyHigh (a : List K) (x : K) :
    (polyHigh a).eval x = ∑ i ∈ Finset.range a.length, a.getD i 0 * x ^ (a.length - 1 - i) := by
  induction a with
  | nil => simp [polyHigh]
  | cons u a ih =>
    rw [polyHigh, Polynomial.eval_add, ih, List.length_cons, Finset.sum_range_succ']
    simp only [List.getD_cons_zero, List.getD_cons_succ, Polynomial.eval_mul, Polynomial.eval_C, Polynomial.eval_pow,
      Polynomial.eval_X, Nat.add_sub_cancel, Nat.sub_zero]
    rw [add_comm]
    congr 1
    exact Finset.sum_congr rfl fun i _ => by rw [show a.length - (i + 1) = a.length - 1 - i by omega]

namespace Model
variable (M : Model F P K)
include M

/-- A word of elements as a polynomial. -/
noncomputable def poly (l : List Nat) : Polynomial K := polyHigh (l.map M.val)

theorem map_xor_zipWith (a b : List Nat) :
    (List.zipWith (fun u v => u ^^^ v) a b).map M.val = List.zipWith (· + ·) (a.map M.val) (b.map M.val) := by
  rw [List.map_zipWith, List.zipWith_map]
  simp only [M.map_xor]

theorem poly_xor {a b : List Nat} (h : a.length = b.length) :
    M.poly (List.zipWith (fun u v => u ^^^ v) a b) = M.poly a + M.poly b := by
  rw [poly, M.map_xor_zipWith, polyHigh_zipWith_add (by simp [h])]; rfl

theorem map_mul_left (h : Built F.m P F.tables) {a : Nat} (ha : a < F.size) {l : List Nat} (hl : ∀ v ∈ l, v < F.size) :
    (l.map fun c => F.mul a c).map M.val = (l.map M.val).map (M.val a * ·) := by
  rw [List.map_map, List.map_map]
  exact List.map_congr_left fun c hc => M.val_mul h ha (hl c hc)

/-- Horner's rule is the value of the word's polynomial (R197). -/
theorem val_rsHorner (h : Built F.m P F.tables) {a : Nat} (ha : a < F.size) {c : List Nat} (hc : ∀ v ∈ c, v < F.size) :
    rsHorner F a c < F.size ∧ M.val (rsHorner F a c) = (M.poly c).eval (M.val a) := by
  have key : ∀ (c : List Nat) (acc : Nat), acc < F.size → (∀ v ∈ c, v < F.size) →
      c.foldl (fun acc ci => F.mul acc a ^^^ ci) acc < F.size ∧
      M.val (c.foldl (fun acc ci => F.mul acc a ^^^ ci) acc) =
        M.val acc * M.val a ^ c.length + (M.poly c).eval (M.val a) := by
    intro c
    induction c with
    | nil => intro acc hacc _; exact ⟨hacc, by simp [poly, polyHigh]⟩
    | cons u c ih =>
      intro acc hacc hc
      have hu := hc u List.mem_cons_self
      obtain ⟨h1, h2⟩ := ih (F.mul acc a ^^^ u) (xor_lt (mul_lt h _ _) hu) fun v hv => hc v (List.mem_cons_of_mem _ hv)
      refine ⟨h1, ?_⟩
      rw [List.foldl_cons, h2, M.map_xor, M.val_mul h hacc ha]
      simp only [poly, List.map_cons, polyHigh, List.length_map, List.length_cons, Polynomial.eval_add, Polynomial.eval_mul,
        Polynomial.eval_C, Polynomial.eval_pow, Polynomial.eval_X]
      ring
  simpa [rsHorner] using key c 0 (size_pos F) hc

/-- `g * (x xor a)` (R192, R242). -/
theorem poly_mulRoot (h : Built F.m P F.tables) {g : List Nat} (hg : ∀ v ∈ g, v < F.size) {a : Nat} (ha : a < F.size) :
    (∀ v ∈ F.mulRoot g a, v < F.size) ∧ M.poly (F.mulRoot g a) = M.poly g * (X - C (M.val a)) := by
  constructor
  · intro v hv
    simp only [Machine.Field.mulRoot] at hv
    obtain ⟨i, hi, rfl⟩ := List.mem_iff_getElem.1 hv
    rw [List.getElem_zipWith]
    refine xor_lt ?_ ?_
    · have : (g ++ [0])[i]'(by simp at hi ⊢; omega) ∈ g ++ [0] := List.getElem_mem _
      rcases List.mem_append.1 this with h' | h'
      · exact hg _ h'
      · rw [List.mem_singleton.1 h']; exact size_pos F
    · have : (0 :: g.map fun c => F.mul c a)[i]'(by simp at hi ⊢; omega) ∈ 0 :: g.map fun c => F.mul c a := List.getElem_mem _
      rcases List.mem_cons.1 this with h' | h'
      · rw [h']; exact size_pos F
      · obtain ⟨c, -, hc⟩ := List.mem_map.1 h'
        rw [← hc]; exact mul_lt h _ _
  · rw [Machine.Field.mulRoot, M.poly_xor (by simp)]
    have h1 : M.poly (g ++ [0]) = M.poly g * X := by
      rw [poly, List.map_append, List.map_singleton, M.val_zero, polyHigh_concat]; simp [poly]
    have h2 : M.poly (0 :: g.map fun c => F.mul c a) = M.poly g * C (M.val a) := by
      have : (g.map fun c => F.mul c a).map M.val = (g.map M.val).map (M.val a * ·) := by
        rw [List.map_map, List.map_map]
        exact List.map_congr_left fun c hc => by
          simp only [Function.comp]; rw [M.val_mul h (hg c hc) ha, mul_comm]
      rw [poly, List.map_cons, polyHigh, this, polyHigh_map_mul, M.val_zero, poly]
      simp [mul_comm]
    have hneg : -C (M.val a) = C (M.val a) := by rw [← map_neg, M.neg_eq]
    rw [h1, h2, sub_eq_add_neg, hneg, mul_add]

theorem poly_polyOfRoots (h : Built F.m P F.tables) {roots : List Nat} (hr : ∀ v ∈ roots, v < F.size) :
    (∀ v ∈ F.polyOfRoots roots, v < F.size) ∧
    M.poly (F.polyOfRoots roots) = (roots.map fun a => X - C (M.val a)).prod := by
  have key : ∀ (roots g : List Nat), (∀ v ∈ roots, v < F.size) → (∀ v ∈ g, v < F.size) →
      (∀ v ∈ roots.foldl F.mulRoot g, v < F.size) ∧
      M.poly (roots.foldl F.mulRoot g) = M.poly g * (roots.map fun a => X - C (M.val a)).prod := by
    intro roots
    induction roots with
    | nil => intro g _ hg; exact ⟨hg, by simp⟩
    | cons a roots ih =>
      intro g hr hg
      obtain ⟨h1, h2⟩ := M.poly_mulRoot h hg (hr a List.mem_cons_self)
      obtain ⟨h3, h4⟩ := ih (F.mulRoot g a) (fun v hv => hr v (List.mem_cons_of_mem _ hv)) h1
      exact ⟨h3, by rw [List.foldl_cons, h4, h2, List.map_cons, List.prod_cons, mul_assoc]⟩
  obtain ⟨h1, h2⟩ := key roots [1] hr (by simpa using one_lt_size h)
  refine ⟨h1, ?_⟩
  rw [Machine.Field.polyOfRoots, h2]
  simp [poly, polyHigh]

/-- One step of the parity division keeps the register congruent to the word (R194, R195): with `g` monic of degree `r`,
the new register is `x` times the old one plus `u * x^r`, less a multiple of `g`. -/
theorem poly_rsParityStep (h : Built F.m P F.tables) {g par : List Nat} {r : Nat} (hr : 1 ≤ r) (hgl : g.length = r + 1)
    (hg1 : g.head? = some 1) (hg : ∀ v ∈ g, v < F.size) (hpl : par.length = r) (hp : ∀ v ∈ par, v < F.size) {u : Nat}
    (hu : u < F.size) :
    (∀ v ∈ rsParityStep F g par u, v < F.size) ∧
    M.poly (rsParityStep F g par u) = X * M.poly par + C (M.val u) * X ^ r + C (M.val u + M.val (par.headD 0)) * M.poly g := by
  cases g with
  | nil => simp at hgl
  | cons g0 g =>
    cases par with
    | nil => simp at hpl; omega
    | cons p0 par =>
      obtain rfl : g0 = 1 := by simpa using hg1
      have hgl' : g.length = r := by simpa using hgl
      have hpl' : par.length + 1 = r := by simpa using hpl
      have hp0 := hp p0 List.mem_cons_self
      have hfb : u ^^^ p0 < F.size := xor_lt hu hp0
      have hg' : ∀ v ∈ g, v < F.size := fun v hv => hg v (List.mem_cons_of_mem _ hv)
      constructor
      · intro v hv
        simp only [rsParityStep, List.headD_cons, List.tail_cons] at hv
        obtain ⟨i, hi, rfl⟩ := List.mem_iff_getElem.1 hv
        rw [List.getElem_zipWith]
        refine xor_lt ?_ ?_
        · have : (par ++ [0])[i]'(by simp at hi ⊢; omega) ∈ par ++ [0] := List.getElem_mem _
          rcases List.mem_append.1 this with h' | h'
          · exact hp _ (List.mem_cons_of_mem _ h')
          · rw [List.mem_singleton.1 h']; exact size_pos F
        · rw [List.getElem_map]; exact mul_lt h _ _
      · have hlen : (par ++ [0]).length = (g.map fun c => F.mul (u ^^^ p0) c).length := by simp; omega
        simp only [rsParityStep, List.headD_cons, List.tail_cons]
        rw [M.poly_xor hlen]
        have h1 : M.poly (par ++ [0]) = M.poly par * X := by
          rw [poly, List.map_append, List.map_singleton, M.val_zero, polyHigh_concat]; simp [poly]
        have h2 : M.poly (g.map fun c => F.mul (u ^^^ p0) c) = C (M.val u + M.val p0) * M.poly g := by
          rw [poly, M.map_mul_left h hfb hg', polyHigh_map_mul, M.map_xor]; rfl
        have h3 : M.poly (1 :: g) = X ^ r + M.poly g := by simp [poly, polyHigh, hgl']
        have h4 : M.poly (p0 :: par) * X = C (M.val p0) * X ^ r + M.poly par * X := by
          simp only [poly, List.map_cons, polyHigh, List.length_map]
          rw [add_mul, mul_assoc, ← pow_succ, hpl']
        have hdouble : ∀ f : Polynomial K, f + f = 0 := by
          intro f; rw [← two_mul, show (2 : Polynomial K) = C 2 from (map_ofNat C 2).symm, M.char_two]; simp
        rw [h1, h2, h3, mul_comm X, h4, map_add]
        linear_combination -(hdouble (C (M.val p0) * X ^ r)) - hdouble (C (M.val u) * X ^ r)

end Model
end
end Sys2Proof.Algebra
end

