-- ==== Sys2Proof/Laws/Locators.lean ====
section
/-! SUPPORT. The searches the decoders share: the locator search always answers, with elements for coefficients; the root
search answers the filter of the positions; the degree of a coefficient list. -/

namespace Sys2Proof.Algebra

open Machine (Built xorSum BmState bmInit bmDiscrepancy bmUpdate bmStep bmLoop bm rootPositions polyDegree)
open Polynomial (X C)

section
variable {F : Machine.Field} {P : Nat}

/-! ## The locator search -/

/-- What every pass of the locator search keeps. -/
structure BmSound (F : Machine.Field) (Ns : Nat) (st : BmState) : Prop where
  cLength : st.c.length = Ns + 1
  bLength : st.b.length = Ns + 1
  cLt : ∀ v ∈ st.c, v < F.size
  bLt : ∀ v ∈ st.b, v < F.size
  bdNeZero : st.bd ≠ 0
  bdLt : st.bd < F.size
  shPos : 1 ≤ st.sh
  cHead : st.c.getD 0 0 = 1

theorem bmSound_init (h : Built F.m P F.tables) (Ns : Nat) : BmSound F Ns (bmInit Ns) where
  cLength := by simp [bmInit]
  bLength := by simp [bmInit]
  cLt v hv := by
    simp only [bmInit, List.mem_cons, List.mem_replicate] at hv
    rcases hv with rfl | ⟨-, rfl⟩
    · exact one_lt_size h
    · exact size_pos F
  bLt v hv := by
    simp only [bmInit, List.mem_cons, List.mem_replicate] at hv
    rcases hv with rfl | ⟨-, rfl⟩
    · exact one_lt_size h
    · exact size_pos F
  bdNeZero := by simp [bmInit]
  bdLt := one_lt_size h
  shPos := le_refl 1
  cHead := rfl

theorem bmDiscrepancy_lt (h : Built F.m P F.tables) {S : List Nat} (hS : ∀ v ∈ S, v < F.size) (st : BmState) (j : Nat) :
    bmDiscrepancy F S st j < F.size := by
  refine xor_lt (getD_lt hS j) (xorSum_lt fun v hv => ?_)
  obtain ⟨i, -, rfl⟩ := List.mem_map.1 hv
  exact mul_lt h _ _

theorem bmUpdate_sound (h : Built F.m P F.tables) {Ns q : Nat} {st : BmState} (hst : BmSound F Ns st) :
    (bmUpdate F Ns q st).length = Ns + 1 ∧ (∀ v ∈ bmUpdate F Ns q st, v < F.size) ∧
    (bmUpdate F Ns q st).getD 0 0 = 1 := by
  refine ⟨by simp [bmUpdate], fun v hv => ?_, ?_⟩
  · obtain ⟨k, -, rfl⟩ := List.mem_map.1 hv
    split
    · exact xor_lt (getD_lt hst.cLt k) (mul_lt h _ _)
    · exact getD_lt hst.cLt k
  · have : ¬ st.sh ≤ 0 := by have := hst.shPos; omega
    simp only [bmUpdate, List.getD_eq_getElem?_getD, List.getElem?_map, List.getElem?_range (Nat.succ_pos Ns), Option.map_some,
      Option.getD_some, if_neg this]
    exact hst.cHead

/-- One pass answers and keeps what it must. -/
theorem bmStep_ok (h : Built F.m P F.tables) {S : List Nat} (hS : ∀ v ∈ S, v < F.size) {Ns : Nat} {st : BmState}
    (hst : BmSound F Ns st) (j : Nat) : ∃ st', bmStep F S Ns st j = .ok st' ∧ BmSound F Ns st' := by
  simp only [bmStep]
  split
  · exact ⟨_, rfl, { hst with shPos := Nat.le_succ_of_le hst.shPos }⟩
  · next hd =>
    obtain ⟨q, hq⟩ := Machine.Field.div_ok (F := F) (a := bmDiscrepancy F S st j) hst.bdNeZero
    obtain ⟨h1, h2, h3⟩ := bmUpdate_sound h (q := q) hst
    rw [hq]
    simp only
    split
    · exact ⟨_, rfl, h1, hst.cLength, h2, hst.cLt, hd, bmDiscrepancy_lt h hS st j, le_refl 1, h3⟩
    · exact ⟨_, rfl, h1, hst.bLength, h2, hst.bLt, hst.bdNeZero, hst.bdLt, Nat.le_succ_of_le hst.shPos, h3⟩

theorem bmLoop_ok (h : Built F.m P F.tables) {S : List Nat} (hS : ∀ v ∈ S, v < F.size) {Ns : Nat} (js : List Nat)
    {st : BmState} (hst : BmSound F Ns st) : ∃ st', bmLoop F S Ns js st = .ok st' ∧ BmSound F Ns st' := by
  induction js generalizing st with
  | nil => exact ⟨st, rfl, hst⟩
  | cons j js ih =>
    obtain ⟨st', h1, h2⟩ := bmStep_ok h hS hst j
    rw [bmLoop, h1]
    exact ih h2

/-- The locator search answers (R200: `gf_div` cannot raise). -/
theorem bm_ok (h : Built F.m P F.tables) {S : List Nat} (hS : ∀ v ∈ S, v < F.size) (Ns : Nat) :
    ∃ lam len, bm F S Ns = .ok (lam, len) ∧ lam.length = Ns + 1 ∧ (∀ v ∈ lam, v < F.size) ∧ lam.getD 0 0 = 1 := by
  obtain ⟨st, h1, h2⟩ := bmLoop_ok h hS (List.range Ns) (bmSound_init h Ns)
  exact ⟨st.c, st.len, by simp [bm, h1], h2.cLength, h2.cLt, h2.cHead⟩

/-! ## The root search -/

theorem locator_lt (h : Built F.m P F.tables) (n i : Nat) : F.locator n i < F.size := alpha_lt h _

/-- The inverse of a locator (R202). -/
def locatorInv (F : Machine.Field) (n i : Nat) : Nat := F.alogOf ((F.order - F.logOf (F.locator n i)) % F.order)

theorem locatorInv_lt (h : Built F.m P F.tables) (n i : Nat) : locatorInv F n i < F.size := alogOf_mod_lt h _

section
variable {K : Type} [Field K] (M : Model F P K)
include M

theorem inv_locator (h : Built F.m P F.tables) (n i : Nat) : F.inv (F.locator n i) = .ok (locatorInv F n i) :=
  Machine.Field.inv_ok (M.alpha_ne_zero h _)

theorem val_locatorInv (h : Built F.m P F.tables) (n i : Nat) : M.val (locatorInv F n i) = (M.root ^ (n - 1 - i))⁻¹ := by
  obtain ⟨ai, h1, -, h3⟩ := M.inv_ok h (M.alpha_ne_zero h (n - 1 - i)) (locator_lt h n i)
  rw [M.val_alpha h] at h3
  have : ai = locatorInv F n i := by
    have := inv_locator M h n i
    rw [Machine.Field.locator, h1] at this
    exact Except.ok.inj this
  rw [← this, h3]

/-- The root search answers, in order, the positions at whose inverse locator the polynomial is 0. -/
theorem rootPositions_ok (h : Built F.m P F.tables) (lam : List Nat) (d n : Nat) (is : List Nat) :
    rootPositions F lam d n is = .ok (is.filter fun i => decide (F.polyEval lam d (locatorInv F n i) = 0)) := by
  induction is with
  | nil => rfl
  | cons i is ih =>
    rw [rootPositions, inv_locator M h, ih, List.filter_cons]
    simp only [decide_eq_true_eq]

/-- Distinct positions of a word no longer than the code have distinct inverse locators. -/
theorem locatorInv_injective (h : Built F.m P F.tables) {n i j : Nat} (hn : n ≤ F.order) (hi : i < n) (hj : j < n)
    (he : M.val (locatorInv F n i) = M.val (locatorInv F n j)) : i = j := by
  rw [val_locatorInv M h, val_locatorInv M h, inv_inj] at he
  have := M.root_pow_injective h (by omega) (by omega) he
  omega

end

/-! ## The degree -/

/-- The coefficient at the degree is not 0, and none above it is (R200). -/
theorem polyDegree_spec {c : List Nat} (h0 : c.getD 0 0 ≠ 0) :
    polyDegree c < c.length ∧ c.getD (polyDegree c) 0 ≠ 0 ∧ ∀ i, polyDegree c < i → c.getD i 0 = 0 := by
  have hlen : 0 < c.length := by
    cases c with
    | nil => simp at h0
    | cons _ _ => simp
  set l := (List.range c.length).filter fun i => decide (c.getD i 0 ≠ 0) with hl
  have hmem : ∀ i, i ∈ l ↔ i < c.length ∧ c.getD i 0 ≠ 0 := by intro i; simp [hl]
  have hne : l ≠ [] := List.ne_nil_of_mem ((hmem 0).2 ⟨hlen, h0⟩)
  have hd : polyDegree c = l.getLast hne := by
    rw [polyDegree, ← hl, List.getLastD_eq_getLast?, List.getLast?_eq_some_getLast hne]; rfl
  have hlast := List.getLast_mem hne
  rw [← hd, hmem] at hlast
  refine ⟨hlast.1, hlast.2, fun i hi => ?_⟩
  by_contra hc
  have hic : i < c.length := by
    by_contra h'
    exact hc (by simp [List.getD_eq_getElem?_getD, List.getElem?_eq_none (Nat.le_of_not_lt h')])
  have hsorted : l.Pairwise (· < ·) := List.Pairwise.filter _ List.pairwise_lt_range
  have hi' : i ∈ l := (hmem i).2 ⟨hic, hc⟩
  rw [← List.dropLast_append_getLast hne] at hsorted hi'
  rcases List.mem_append.1 hi' with h' | h'
  · have := (List.pairwise_append.1 hsorted).2.2 i h' _ (List.mem_singleton_self _)
    rw [← hd] at this
    omega
  · rw [List.mem_singleton, ← hd] at h'
    omega

end
end Sys2Proof.Algebra
end

