-- ==== Sys2Proof/Laws/BinaryPolys.lean ====
section
/-! SUPPORT. Binary polynomials written as integers, and the BCH generator: a minimal polynomial has coefficients 0 and 1 and
vanishes on its coset; the generator vanishes at the first `2t` powers of alpha. -/

namespace Sys2Proof.Algebra

open Machine (Built xorSum clmul bitsNumber cosetWalk coset minimalPoly bchGenStep bchGenerator bchSyndrome bchSyndromes)
open Polynomial (X C)

/-! ## Integers as polynomials over GF(2) -/

/-- The polynomial whose coefficients are the bits of `x` (R242). -/
noncomputable def numPoly (x : Nat) : Polynomial (ZMod 2) := natPoly (x.log2 + 1) x

theorem coeff_numPoly (x k : Nat) : (numPoly x).coeff k = if x.testBit k then 1 else 0 := by
  rw [numPoly, coeff_natPoly]
  by_cases hk : k < x.log2 + 1
  · simp [hk]
  · have : x < 2 ^ k := lt_of_lt_of_le Nat.lt_log2_self (Nat.pow_le_pow_right (by omega) (by omega))
    simp [hk, Nat.testBit_lt_two_pow this]

theorem natPoly_eq_numPoly {n x : Nat} (hx : x < 2 ^ n) : natPoly n x = numPoly x := by
  ext k
  rw [coeff_natPoly, coeff_numPoly]
  by_cases hk : k < n
  · simp [hk]
  · simp [hk, Nat.testBit_lt_two_pow (lt_of_lt_of_le hx (Nat.pow_le_pow_right (by omega) (Nat.le_of_not_lt hk)))]

@[simp] theorem numPoly_zero : numPoly 0 = 0 := by ext k; simp [coeff_numPoly]

@[simp] theorem numPoly_one : numPoly 1 = 1 := by
  ext k
  rw [coeff_numPoly, Polynomial.coeff_one]
  cases k with
  | zero => simp
  | succ k => simp [Nat.testBit_succ]

theorem numPoly_xor (a b : Nat) : numPoly (a ^^^ b) = numPoly a + numPoly b := by
  ext k
  rw [Polynomial.coeff_add, coeff_numPoly, coeff_numPoly, coeff_numPoly, Nat.testBit_xor]
  cases a.testBit k <;> cases b.testBit k <;> simp
  decide

theorem numPoly_shiftLeft (a i : Nat) : numPoly (a <<< i) = numPoly a * X ^ i := by
  ext k
  rw [coeff_numPoly, Nat.testBit_shiftLeft, Polynomial.coeff_mul_X_pow', coeff_numPoly]
  by_cases h : i ≤ k <;> simp [h]

theorem numPoly_ne_zero {x : Nat} (h : x ≠ 0) : numPoly x ≠ 0 := by
  intro h0
  have := congrArg (Polynomial.coeff · x.log2) h0
  simp [coeff_numPoly, Nat.testBit_log2 h] at this

theorem numPoly_injective {x y : Nat} (h : numPoly x = numPoly y) : x = y := by
  refine Nat.eq_of_testBit_eq fun k => ?_
  have := congrArg (Polynomial.coeff · k) h
  simp only [coeff_numPoly] at this
  rcases hx : x.testBit k <;> rcases hy : y.testBit k <;> simp [hx, hy] at this ⊢

theorem numPoly_xorSum (l : List Nat) : numPoly (xorSum l) = (l.map numPoly).sum := by
  induction l with
  | nil => exact numPoly_zero
  | cons a l ih =>
    have : xorSum (a :: l) = a ^^^ xorSum l := rfl
    rw [this, numPoly_xor, ih, List.map_cons, List.sum_cons]

/-- The carry-less product is the product of the polynomials (R242). -/
theorem numPoly_clmul (a b : Nat) : numPoly (clmul a b) = numPoly a * numPoly b := by
  rw [clmul, numPoly_xorSum, List.map_map]
  have hb : numPoly b = ∑ i ∈ Finset.range (b.log2 + 1), if b.testBit i then X ^ i else 0 := rfl
  have hl : ((List.range (b.log2 + 1)).map (numPoly ∘ fun i => if b.testBit i then a <<< i else 0)).sum =
      ∑ i ∈ Finset.range (b.log2 + 1), numPoly (if b.testBit i then a <<< i else 0) := rfl
  rw [hl, hb, Finset.mul_sum]
  refine Finset.sum_congr rfl fun i _ => ?_
  split
  · exact numPoly_shiftLeft a i
  · simp

theorem clmul_ne_zero {a b : Nat} (ha : a ≠ 0) (hb : b ≠ 0) : clmul a b ≠ 0 := by
  intro h
  have := numPoly_clmul a b
  rw [h, numPoly_zero] at this
  exact mul_ne_zero (numPoly_ne_zero ha) (numPoly_ne_zero hb) this.symm

theorem numPoly_double_add (acc : Nat) {c : Nat} (hc : c = 0 ∨ c = 1) :
    numPoly (2 * acc + c) = numPoly acc * X + (if c = 1 then 1 else 0) := by
  ext k
  rw [coeff_numPoly, Polynomial.coeff_add]
  cases k with
  | zero => rcases hc with rfl | rfl <;> simp [Nat.testBit_zero, Nat.add_mod]
  | succ k =>
    have : (2 * acc + c) / 2 = acc := by omega
    rw [Polynomial.coeff_mul_X, coeff_numPoly, Nat.testBit_succ, this]
    rcases hc with rfl | rfl <;> simp [Polynomial.coeff_one]

section
variable {F : Machine.Field} {P : Nat} {K : Type} [Field K] (M : Model F P K)

namespace Model
include M

theorem charP : CharP K 2 := CharTwo.of_one_ne_zero_of_two_eq_zero one_ne_zero M.char_two

/-- The coefficients 0 and 1 in the model of the field. -/
noncomputable def bitHom : ZMod 2 →+* K :=
  letI := M.charP
  ZMod.castHom (dvd_refl 2) K

/-- An integer's polynomial over the model of the field. -/
noncomputable def num (x : Nat) : Polynomial K := (numPoly x).map M.bitHom

theorem num_clmul (a b : Nat) : M.num (clmul a b) = M.num a * M.num b := by simp [num, numPoly_clmul]

theorem num_bitsNumber {l : List Nat} (hl : ∀ v ∈ l, v = 0 ∨ v = 1) : M.num (bitsNumber l) = M.poly l := by
  have key : ∀ (l : List Nat) (acc : Nat), (∀ v ∈ l, v = 0 ∨ v = 1) →
      M.num (l.foldl (fun acc c => 2 * acc + c) acc) = M.num acc * X ^ l.length + M.poly l := by
    intro l
    induction l with
    | nil => intro acc _; simp [poly, polyHigh]
    | cons c l ih =>
      intro acc hl
      have hc := hl c List.mem_cons_self
      rw [List.foldl_cons, ih _ fun v hv => hl v (List.mem_cons_of_mem _ hv)]
      have h1 : M.num (2 * acc + c) = M.num acc * X + C (M.val c) := by
        rw [num, numPoly_double_add acc hc]
        rcases hc with rfl | rfl <;> simp [num]
      rw [h1]
      simp only [poly, List.map_cons, polyHigh, List.length_map, List.length_cons]
      ring
  rw [bitsNumber, key l 0 hl]
  simp [num]

end Model

/-! ## Cosets -/

theorem cosetWalk_spec {Q : Nat} (hQ : 0 < Q) : ∀ (k z : Nat) (acc : List Nat), z < Q → acc.Nodup → (∀ y ∈ acc, y < Q) →
    acc.length + k = Q → (∀ y ∈ acc, 2 * y % Q ∈ acc ∨ 2 * y % Q = z) →
    (cosetWalk Q k z acc).Nodup ∧ (∀ y ∈ cosetWalk Q k z acc, y < Q) ∧
    (∀ y ∈ cosetWalk Q k z acc, 2 * y % Q ∈ cosetWalk Q k z acc) ∧ (∀ y ∈ acc, y ∈ cosetWalk Q k z acc) ∧
    z ∈ cosetWalk Q k z acc := by
  intro k
  induction k with
  | zero =>
    intro z acc hz hn hlt hlen hcl
    have hall : z ∈ acc := by
      have hsub : acc.toFinset ⊆ Finset.range Q := fun y hy => Finset.mem_range.2 (hlt y (List.mem_toFinset.1 hy))
      have heq := Finset.eq_of_subset_of_card_le hsub (by rw [List.toFinset_card_of_nodup hn, Finset.card_range]; omega)
      exact List.mem_toFinset.1 (heq ▸ Finset.mem_range.2 hz)
    exact ⟨hn, hlt, fun y hy => (hcl y hy).elim id fun h => h ▸ hall, fun y hy => hy, hall⟩
  | succ k ih =>
    intro z acc hz hn hlt hlen hcl
    rw [cosetWalk]
    split
    · next h =>
      have hz' : z ∈ acc := by simpa using h
      exact ⟨hn, hlt, fun y hy => (hcl y hy).elim id fun h => h ▸ hz', fun y hy => hy, hz'⟩
    · next h =>
      have hz' : z ∉ acc := by simpa using h
      obtain ⟨h1, h2, h3, h4, -⟩ := ih (2 * z % Q) (acc ++ [z]) (Nat.mod_lt _ hQ)
        (List.nodup_append.2 ⟨hn, by simp, fun a ha b hb => by rw [List.mem_singleton.1 hb]; rintro rfl; exact hz' ha⟩)
        (fun y hy => (List.mem_append.1 hy).elim (hlt y) fun hy => by rw [List.mem_singleton.1 hy]; exact hz)
        (by simp; omega) (fun y hy => by
          rcases List.mem_append.1 hy with hy | hy
          · rcases hcl y hy with h | h
            · exact .inl (List.mem_append_left _ h)
            · exact .inl (by rw [h]; simp)
          · rw [List.mem_singleton.1 hy]; exact .inr rfl)
      exact ⟨h1, h2, h3, fun y hy => h4 y (List.mem_append_left _ hy), h4 z (by simp)⟩

/-- The cyclotomic coset of an exponent: it holds the exponent, without repeats, and is closed under doubling (R241). -/
theorem coset_spec (h : Built F.m P F.tables) {i : Nat} (hi : i < F.order) :
    (coset F i).Nodup ∧ (∀ y ∈ coset F i, y < F.order) ∧ (∀ y ∈ coset F i, 2 * y % F.order ∈ coset F i) ∧
    i ∈ coset F i := by
  obtain ⟨h1, h2, h3, -, h5⟩ := cosetWalk_spec h.order_pos F.order i [] hi (by simp) (by simp) (by simp) (by simp)
  exact ⟨h1, h2, h3, h5⟩

/-! ## Minimal polynomials and the generator -/

section
include M

/-- A polynomial whose roots are a coset has coefficients 0 and 1 (R241). -/
theorem polyOfRoots_binary (h : Built F.m P F.tables) {cs : List Nat} (hn : cs.Nodup) (hlt : ∀ y ∈ cs, y < F.order)
    (hcl : ∀ y ∈ cs, 2 * y % F.order ∈ cs) : ∀ v ∈ F.polyOfRoots (cs.map F.alpha), v = 0 ∨ v = 1 := by
  have := M.charP
  have hroots : ∀ v ∈ cs.map F.alpha, v < F.size := by
    intro v hv; obtain ⟨y, -, rfl⟩ := List.mem_map.1 hv; exact alpha_lt h y
  obtain ⟨hsz, hpoly⟩ := M.poly_polyOfRoots h hroots
  set l := F.polyOfRoots (cs.map F.alpha) with hldef
  have hpoly' : M.poly l = (cs.map fun y => X - C (M.root ^ y)).prod := by
    rw [hpoly, List.map_map]
    exact congrArg List.prod (List.map_congr_left fun y _ => by simp [M.val_alpha h])
  have hfrob : (M.poly l).map (frobenius K 2) = M.poly l := by
    rw [hpoly', Polynomial.map_list_prod, List.map_map]
    have hmap : cs.map ((Polynomial.map (frobenius K 2)) ∘ fun y => X - C (M.root ^ y)) =
        (cs.map fun y => 2 * y % F.order).map fun y => X - C (M.root ^ y) := by
      rw [List.map_map]
      refine List.map_congr_left fun y _ => ?_
      simp only [Function.comp, Polynomial.map_sub, Polynomial.map_X, Polynomial.map_C, frobenius_def, ← pow_mul]
      rw [M.root_pow_mod h, mul_comm]
    rw [hmap]
    refine List.Perm.prod_eq (List.Perm.map _ ?_)
    have hinj : (cs.map fun y => 2 * y % F.order).Nodup := by
      refine List.Nodup.map_on (fun a ha b hb hab => ?_) hn
      have hodd : Nat.Coprime F.order 2 := by
        rw [Nat.coprime_two_right, Nat.odd_iff]
        have h2 := h.two_le
        have : 2 ^ F.m = 2 * 2 ^ (F.m - 1) := by rw [← pow_succ', Nat.sub_add_cancel (by omega)]
        have := Nat.two_pow_pos (F.m - 1)
        unfold Machine.Field.order; omega
      have : a ≡ b [MOD F.order] := Nat.ModEq.cancel_left_of_coprime hodd hab
      rw [Nat.ModEq, Nat.mod_eq_of_lt (hlt a ha), Nat.mod_eq_of_lt (hlt b hb)] at this
      exact this
    refine (List.subperm_of_subset hinj fun y hy => ?_).perm_of_length_le (by simp)
    obtain ⟨z, hz, rfl⟩ := List.mem_map.1 hy
    exact hcl z hz
  intro v hv
  obtain ⟨i, hi, rfl⟩ := List.mem_iff_getElem.1 hv
  have hc := coeff_polyHigh (l.map M.val) (i := i) (by simpa using hi)
  have hc2 := congrArg (Polynomial.coeff · ((l.map M.val).length - 1 - i)) hfrob
  simp only [Polynomial.coeff_map] at hc2
  have hval : (l.map M.val).getD i 0 = M.val l[i] := by simp [List.getD_eq_getElem?_getD, hi]
  rw [hval] at hc
  rw [Model.poly, hc, frobenius_def, pow_two] at hc2
  have : M.val l[i] = 0 ∨ M.val l[i] = 1 := by
    by_cases h0 : M.val l[i] = 0
    · exact .inl h0
    · exact .inr (mul_left_cancel₀ h0 (by rw [hc2, mul_one]))
  have hlt' := hsz l[i] (List.getElem_mem hi)
  rcases this with h' | h'
  · exact .inl ((M.val_eq_zero hlt').1 h')
  · exact .inr (M.injective _ _ hlt' (one_lt_size h) (by rw [h', M.val_one]))

/-- The minimal polynomial vanishes on its coset (R241). -/
theorem minimalPoly_root (h : Built F.m P F.tables) {i : Nat} (hi : i < F.order) :
    minimalPoly F (coset F i) ≠ 0 ∧ ∀ y ∈ coset F i, (M.num (minimalPoly F (coset F i))).eval (M.root ^ y) = 0 := by
  obtain ⟨h1, h2, h3, -⟩ := coset_spec h hi
  have hnum : M.num (minimalPoly F (coset F i)) = M.poly (F.polyOfRoots ((coset F i).map F.alpha)) :=
    M.num_bitsNumber (polyOfRoots_binary M h h1 h2 h3)
  have hroots : ∀ v ∈ (coset F i).map F.alpha, v < F.size := by
    intro v hv; obtain ⟨y, -, rfl⟩ := List.mem_map.1 hv; exact alpha_lt h y
  rw [(M.poly_polyOfRoots h hroots).2] at hnum
  constructor
  · intro h0
    rw [h0] at hnum
    have : (((coset F i).map F.alpha).map fun a => X - C (M.val a)).prod ≠ 0 := by
      refine List.prod_ne_zero fun hm => ?_
      obtain ⟨a, -, ha⟩ := List.mem_map.1 hm
      exact Polynomial.X_sub_C_ne_zero _ ha
    exact this (by rw [← hnum]; simp [Model.num])
  · intro y hy
    rw [hnum, Polynomial.eval_list_prod, List.prod_eq_zero_iff, List.map_map, List.map_map]
    exact List.mem_map.2 ⟨y, hy, by simp [M.val_alpha h]⟩

/-- The BCH generator is not 0 and vanishes at the first `2t` powers of alpha (R242). -/
theorem bchGenerator_root (h : Built F.m P F.tables) {t : Nat} (ht : 2 * t ≤ F.order - 1) :
    bchGenerator F t ≠ 0 ∧ ∀ i, 1 ≤ i → i ≤ 2 * t → (M.num (bchGenerator F t)).eval (M.root ^ i) = 0 := by
  have key : ∀ (is : List Nat) (st : List Nat × Nat), (∀ i ∈ is, i < F.order) → st.2 ≠ 0 →
      (∀ y ∈ st.1, (M.num st.2).eval (M.root ^ y) = 0) →
      (is.foldl (bchGenStep F) st).2 ≠ 0 ∧
      (∀ y ∈ (is.foldl (bchGenStep F) st).1, (M.num (is.foldl (bchGenStep F) st).2).eval (M.root ^ y) = 0) ∧
      (∀ y ∈ st.1, y ∈ (is.foldl (bchGenStep F) st).1) ∧ (∀ y ∈ is, y ∈ (is.foldl (bchGenStep F) st).1) := by
    intro is
    induction is with
    | nil => intro st _ h1 h2; exact ⟨h1, h2, fun y hy => hy, by simp⟩
    | cons i is ih =>
      intro st hlt h1 h2
      have hi := hlt i List.mem_cons_self
      have hlt' : ∀ j ∈ is, j < F.order := fun j hj => hlt j (List.mem_cons_of_mem _ hj)
      rw [List.foldl_cons]
      by_cases hc : i ∈ st.1
      · have hst : bchGenStep F st i = st := by simp [bchGenStep, hc]
        rw [hst]
        obtain ⟨g1, g2, g3, g4⟩ := ih st hlt' h1 h2
        exact ⟨g1, g2, g3, fun y hy => (List.mem_cons.1 hy).elim (fun e => e ▸ g3 i hc) (g4 y)⟩
      · have hst : bchGenStep F st i = (st.1 ++ coset F i, clmul st.2 (minimalPoly F (coset F i))) := by
          simp [bchGenStep, hc]
        obtain ⟨m1, m2⟩ := minimalPoly_root M h hi
        obtain ⟨g1, g2, g3, g4⟩ := ih (bchGenStep F st i) hlt' (by rw [hst]; exact clmul_ne_zero h1 m1) (by
          rw [hst]
          intro y hy
          rw [M.num_clmul, Polynomial.eval_mul]
          rcases List.mem_append.1 hy with hy | hy
          · rw [h2 y hy, zero_mul]
          · rw [m2 y hy, mul_zero])
        refine ⟨g1, g2, fun y hy => g3 y (by rw [hst]; exact List.mem_append_left _ hy), fun y hy => ?_⟩
        rcases List.mem_cons.1 hy with rfl | hy
        · exact g3 y (by rw [hst]; exact List.mem_append_right _ (coset_spec h hi).2.2.2)
        · exact g4 y hy
  obtain ⟨g1, g2, -, g4⟩ := key (List.range' Config.bchFcr (2 * t)) ([], 1) (by
    intro i hi
    have := (List.mem_range'_1.1 hi)
    have := h.order_pos
    simp only [Config.bchFcr] at *
    omega) (by simp) (by simp)
  refine ⟨g1, fun i h1 h2 => g2 i (g4 i (List.mem_range'_1.2 ?_))⟩
  simp only [Config.bchFcr]
  omega

end
end
end Sys2Proof.Algebra
end

