-- ==== Sys2Proof/Laws/LocatorSearch.lean ====
section
/-! SUPPORT. The locator search finds a shortest recurrence (R200): what its loop keeps, in polynomials over the model of the
field, and that no shorter recurrence generates the syndromes. -/

namespace Sys2Proof.Algebra

open Machine (Built xorSum BmState bmInit bmDiscrepancy bmUpdate bmStep bmLoop bm)
open Polynomial (X C)

section
variable {F : Machine.Field} {P : Nat} {K : Type} [Field K] (M : Model F P K)

/-- A list of coefficients, lowest power first, as a polynomial (R200: `C[i]` is the coefficient of `x^i`). -/
noncomputable def Model.low (l : List Nat) : Polynomial K :=
  ∑ i ∈ Finset.range l.length, C (M.val (l.getD i 0)) * X ^ i

theorem coeff_low (l : List Nat) (i : Nat) : (M.low l).coeff i = M.val (l.getD i 0) := by
  rw [Model.low, Polynomial.finsetSum_coeff]
  simp only [Polynomial.coeff_C_mul_X_pow]
  rw [Finset.sum_ite_eq]
  split
  · rfl
  · next h =>
    rw [List.getD_eq_default _ _ (by simpa using h), M.val_zero]

/-- `G` generates the first `j` syndromes with a register of length `l`: the recurrence of R200. -/
structure Generates (Sx G : Polynomial K) (l j : Nat) : Prop where
  head : G.coeff 0 = 1
  degree : ∀ i, l < i → G.coeff i = 0
  vanish : ∀ k, l ≤ k → k < j → (G * Sx).coeff k = 0

/-- Two generators of different stages: if `G` still generates where `H` first fails, their lengths together reach past it. -/
theorem Generates.length_bound {Sx G H : Polynomial K} {l L j : Nat} (hH : Generates Sx H L j)
    (hd : (H * Sx).coeff j ≠ 0) (hG : Generates Sx G l (j + 1)) : j + 1 ≤ L + l := by
  by_contra hlt
  have key : ∀ (A B : Polynomial K) (a : Nat), (∀ i, a < i → A.coeff i = 0) → a ≤ j →
      (∀ i, 1 ≤ i → i ≤ a → (B * Sx).coeff (j - i) = 0) → (A * (B * Sx)).coeff j = A.coeff 0 * (B * Sx).coeff j := by
    intro A B a hA ha hB
    rw [Polynomial.coeff_mul, Finset.Nat.sum_antidiagonal_eq_sum_range_succ (fun x y => A.coeff x * (B * Sx).coeff y),
      Finset.sum_range_succ', Finset.sum_eq_zero, zero_add, Nat.sub_zero]
    intro i _
    by_cases hi : i + 1 ≤ a
    · rw [hB (i + 1) (by omega) hi, mul_zero]
    · rw [hA (i + 1) (by omega), zero_mul]
  have h1 := key G H l hG.degree (by omega) fun i h1 h2 => hH.vanish _ (by omega) (by omega)
  have h2 := key H G L hH.degree (by omega) fun i h1 h2 => hG.vanish _ (by omega) (by omega)
  have h3 : (G * Sx).coeff j = 0 := hG.vanish j (by omega) (by omega)
  rw [hG.head, one_mul] at h1
  rw [h3, mul_zero, mul_left_comm] at h2
  exact hd (h1.symm.trans h2)

/-- What the loop of the locator search keeps before index `j`. -/
structure BmInv (S : List Nat) (Ns j : Nat) (st : BmState) : Prop where
  sound : BmSound F Ns st
  lenLe : st.len ≤ j
  generates : Generates (M.low S) (M.low st.c) st.len j
  backDegree : ∀ i, j + 1 - st.len < i + st.sh → (M.low st.b).coeff i = 0
  backVanish : 0 < st.len → ∀ k, j + 1 - st.len ≤ k → k < j → (X ^ st.sh * M.low st.b * M.low S).coeff k = 0
  backDiscrepancy : 0 < st.len → (X ^ st.sh * M.low st.b * M.low S).coeff j = M.val st.bd
  shortest : ∀ G l, Generates (M.low S) G l j → st.len ≤ l

theorem bmInv_init (h : Built F.m P F.tables) (S : List Nat) (Ns : Nat) : BmInv M S Ns 0 (bmInit Ns) := by
  have hone : ∀ i, 0 < i → (1 :: List.replicate Ns 0).getD i 0 = 0 := by
    intro i hi
    cases i with
    | zero => omega
    | succ i =>
      rw [List.getD_cons_succ, List.getD_eq_getElem?_getD, List.getElem?_replicate]
      split <;> rfl
  refine ⟨bmSound_init h Ns, le_refl 0, ⟨?_, ?_, ?_⟩, ?_, ?_, ?_, ?_⟩
  · rw [coeff_low]; simp [bmInit]
  · intro i hi
    rw [coeff_low]
    simp only [bmInit] at hi ⊢
    rw [hone i hi, M.val_zero]
  · intro k _ hk; omega
  · intro i hi
    rw [coeff_low]
    simp only [bmInit] at hi ⊢
    rw [hone i (by omega), M.val_zero]
  · intro hl; simp [bmInit] at hl
  · intro hl; simp [bmInit] at hl
  · intro G l _; simp [bmInit]

/-- The discrepancy is the coefficient at which the recurrence is tested. -/
theorem val_bmDiscrepancy (h : Built F.m P F.tables) {S : List Nat} (hS : ∀ v ∈ S, v < F.size) {Ns j : Nat} {st : BmState}
    (hst : BmInv M S Ns j st) : M.val (bmDiscrepancy F S st j) = (M.low st.c * M.low S).coeff j := by
  have hsub : Finset.range st.len ⊆ Finset.range j := Finset.range_subset_range.2 hst.lenLe
  have hsum := Finset.sum_subset (f := fun i => (M.low st.c).coeff (i + 1) * (M.low S).coeff (j - (i + 1))) hsub
    fun i _ hi => by rw [hst.generates.degree (i + 1) (by simpa using hi), zero_mul]
  rw [bmDiscrepancy, M.map_xor, List.range'_eq_map_range, List.map_map, M.val_xorSum_range, Polynomial.coeff_mul,
    Finset.Nat.sum_antidiagonal_eq_sum_range_succ (fun x y => (M.low st.c).coeff x * (M.low S).coeff y),
    Finset.sum_range_succ', hst.generates.head, one_mul, coeff_low, Nat.sub_zero, add_comm, ← hsum]
  congr 1
  refine Finset.sum_congr rfl fun i _ => ?_
  simp only [Function.comp]
  rw [M.val_mul h (getD_lt hst.sound.cLt _) (getD_lt hS _), coeff_low, coeff_low, Nat.add_comm 1 i]

/-- The update of the connection polynomial loses no coefficient. -/
theorem low_bmUpdate (h : Built F.m P F.tables) {S : List Nat} {Ns j q : Nat} {st : BmState}
    (hst : BmInv M S Ns j st) (hj : j < Ns) (hq : q < F.size) :
    M.low (bmUpdate F Ns q st) = M.low st.c + C (M.val q) * (X ^ st.sh * M.low st.b) := by
  ext k
  rw [coeff_low, Polynomial.coeff_add, Polynomial.coeff_C_mul, Polynomial.coeff_X_pow_mul', coeff_low]
  have hget : (bmUpdate F Ns q st).getD k 0 =
      if k < Ns + 1 then (if st.sh ≤ k then st.c.getD k 0 ^^^ F.mul q (st.b.getD (k - st.sh) 0) else st.c.getD k 0) else 0 := by
    rw [bmUpdate, List.getD_eq_getElem?_getD, List.getElem?_map]
    split
    · next hk => rw [List.getElem?_range hk]; rfl
    · next hk => rw [List.getElem?_eq_none (by simpa using hk)]; rfl
  rw [hget]
  split
  · split
    · rw [M.map_xor, M.val_mul h hq (getD_lt hst.sound.bLt _), coeff_low]
    · rw [mul_zero, add_zero]
  · next hk =>
    rw [List.getD_eq_default _ _ (by rw [hst.sound.cLength]; omega), M.val_zero, zero_add]
    split
    · rw [hst.backDegree _ (by omega), mul_zero]
    · rw [mul_zero]

/-- One pass keeps the invariant. -/
theorem bmStep_inv (h : Built F.m P F.tables) {S : List Nat} (hS : ∀ v ∈ S, v < F.size) {Ns j : Nat} {st st' : BmState}
    (hst : BmInv M S Ns j st) (hj : j < Ns) (hs : bmStep F S Ns st j = .ok st') : BmInv M S Ns (j + 1) st' := by
  have hsound' : BmSound F Ns st' := by
    obtain ⟨st'', h1, h2⟩ := bmStep_ok h hS hst.sound j
    rw [hs] at h1
    exact Except.ok.inj h1 ▸ h2
  have hdisc := val_bmDiscrepancy M h hS hst
  have hdlt := bmDiscrepancy_lt h hS st j
  have hshift : ∀ (T : Polynomial K) (k : Nat), (X ^ (st.sh + 1) * T * M.low S).coeff (k + 1) = (X ^ st.sh * T * M.low S).coeff k := by
    intro T k
    rw [show X ^ (st.sh + 1) * T * M.low S = X * (X ^ st.sh * T * M.low S) by rw [pow_succ]; ring, Polynomial.coeff_X_mul]
  have hle := hst.lenLe
  have hshort : ∀ G l, Generates (M.low S) G l (j + 1) → st.len ≤ l := fun G l hG =>
    hst.shortest G l ⟨hG.head, hG.degree, fun k h1 h2 => hG.vanish k h1 (by omega)⟩
  simp only [bmStep] at hs
  split at hs
  · next hd =>
    obtain rfl := Except.ok.inj hs
    have hz : (M.low st.c * M.low S).coeff j = 0 := by rw [← hdisc, hd, M.val_zero]
    refine ⟨hsound', by simp only; omega, ⟨hst.generates.head, hst.generates.degree, fun k h1 h2 => ?_⟩, ?_, ?_, ?_, hshort⟩
    · by_cases hk : k = j
      · rw [hk]; exact hz
      · exact hst.generates.vanish k h1 (by omega)
    · intro i hi
      exact hst.backDegree i (by simp only at hi; omega)
    · intro hl k h1 h2
      simp only at hl h1 ⊢
      obtain ⟨k, rfl⟩ : ∃ k', k = k' + 1 := ⟨k - 1, by omega⟩
      rw [hshift]; exact hst.backVanish hl k (by omega) (by omega)
    · intro hl
      simp only at hl ⊢
      rw [hshift]; exact hst.backDiscrepancy hl
  · next hd =>
    obtain ⟨q, hq, hqlt, hqv⟩ := M.div_ok h hdlt hst.sound.bdNeZero hst.sound.bdLt
    rw [hq] at hs
    simp only at hs
    have hup := low_bmUpdate M h hst hj hqlt
    have hdne : (M.low st.c * M.low S).coeff j ≠ 0 := by
      rw [← hdisc, ne_eq, M.val_eq_zero hdlt]; exact hd
    have hbdne : M.val st.bd ≠ 0 := by rw [ne_eq, M.val_eq_zero hst.sound.bdLt]; exact hst.sound.bdNeZero
    have hprod : ∀ k, (M.low (bmUpdate F Ns q st) * M.low S).coeff k =
        (M.low st.c * M.low S).coeff k + M.val q * (X ^ st.sh * M.low st.b * M.low S).coeff k := by
      intro k
      rw [hup, add_mul, Polynomial.coeff_add, mul_assoc (C _), Polynomial.coeff_C_mul]
    have hhead : (M.low (bmUpdate F Ns q st)).coeff 0 = 1 := by
      rw [coeff_low, (bmUpdate_sound h hst.sound).2.2, M.val_one]
    have hupdeg : ∀ i, max st.len (j + 1 - st.len) < i → (M.low (bmUpdate F Ns q st)).coeff i = 0 := by
      intro i hi
      rw [hup, Polynomial.coeff_add, hst.generates.degree i (lt_of_le_of_lt (le_max_left _ _) hi), zero_add,
        Polynomial.coeff_C_mul, Polynomial.coeff_X_pow_mul']
      split
      · next hs' =>
        have := lt_of_le_of_lt (le_max_right st.len (j + 1 - st.len)) hi
        rw [hst.backDegree _ (by omega), mul_zero]
      · rw [mul_zero]
    split at hs
    · next h2L =>
      obtain rfl := Except.ok.inj hs
      refine ⟨hsound', by simp only; omega, ⟨hhead, fun i hi => ?_, fun k h1 h2 => ?_⟩, ?_, ?_, ?_, fun G l hG => ?_⟩
      · exact hupdeg i (by simp only at hi; omega)
      · simp only at h1
        by_cases hL0 : st.len = 0
        · omega
        have hL : 0 < st.len := Nat.pos_of_ne_zero hL0
        rw [hprod]
        by_cases hk : k = j
        · rw [hk, hst.backDiscrepancy hL, ← hdisc, hqv, div_mul_cancel₀ _ hbdne, M.add_self]
        · rw [hst.generates.vanish k (by omega) (by omega), hst.backVanish hL k (by omega) (by omega), mul_zero, add_zero]
      · intro i hi
        simp only at hi ⊢
        exact hst.generates.degree i (by omega)
      · intro hl k h1 h2
        simp only at hl h1 ⊢
        obtain ⟨k, rfl⟩ : ∃ k', k = k' + 1 := ⟨k - 1, by omega⟩
        rw [pow_one, mul_assoc, Polynomial.coeff_X_mul]
        exact hst.generates.vanish k (by omega) (by omega)
      · intro _
        simp only
        rw [pow_one, mul_assoc, Polynomial.coeff_X_mul, ← hdisc]
      · have := hst.generates.length_bound hdne hG
        simp only; omega
    · next h2L =>
      obtain rfl := Except.ok.inj hs
      have hL : 0 < st.len := by omega
      refine ⟨hsound', by simp only; omega, ⟨hhead, fun i hi => ?_, fun k h1 h2 => ?_⟩, ?_, ?_, ?_, hshort⟩
      · exact hupdeg i (by simp only at hi; omega)
      · simp only at h1
        rw [hprod]
        by_cases hk : k = j
        · rw [hk, hst.backDiscrepancy hL, ← hdisc, hqv, div_mul_cancel₀ _ hbdne, M.add_self]
        · rw [hst.generates.vanish k (by omega) (by omega), hst.backVanish hL k (by omega) (by omega), mul_zero, add_zero]
      · intro i hi
        exact hst.backDegree i (by simp only at hi; omega)
      · intro hl k h1 h2
        simp only at hl h1 ⊢
        obtain ⟨k, rfl⟩ : ∃ k', k = k' + 1 := ⟨k - 1, by omega⟩
        rw [hshift]; exact hst.backVanish hl k (by omega) (by omega)
      · intro hl
        simp only at hl ⊢
        rw [hshift]; exact hst.backDiscrepancy hl

theorem bmLoop_inv (h : Built F.m P F.tables) {S : List Nat} (hS : ∀ v ∈ S, v < F.size) {Ns : Nat} :
    ∀ (k j : Nat) {st st' : BmState}, j + k = Ns → BmInv M S Ns j st →
      bmLoop F S Ns (List.range' j k) st = .ok st' → BmInv M S Ns Ns st' := by
  intro k
  induction k with
  | zero =>
    intro j st st' hjk hst hs
    obtain rfl := Except.ok.inj hs
    obtain rfl : j = Ns := by omega
    exact hst
  | succ k ih =>
    intro j st st' hjk hst hs
    rw [List.range'_succ, bmLoop] at hs
    split at hs
    · simp at hs
    · next st1 h1 => exact ih (j + 1) (by omega) (bmStep_inv M h hS hst (by omega) h1) hs

/-- The locator search answers a shortest generator of the syndromes (R200). -/
theorem bm_shortest (h : Built F.m P F.tables) {S : List Nat} (hS : ∀ v ∈ S, v < F.size) {Ns : Nat} {lam : List Nat}
    {len : Nat} (hb : bm F S Ns = .ok (lam, len)) :
    Generates (M.low S) (M.low lam) len Ns ∧ ∀ G l, Generates (M.low S) G l Ns → len ≤ l := by
  simp only [bm] at hb
  split at hb
  · simp at hb
  · next st hst =>
    have hb := Except.ok.inj hb
    simp only [Prod.mk.injEq] at hb
    obtain ⟨rfl, rfl⟩ := hb
    rw [List.range_eq_range'] at hst
    have := bmLoop_inv M h hS Ns 0 (by omega) (bmInv_init M h S Ns) hst
    exact ⟨this.generates, this.shortest⟩

end
end Sys2Proof.Algebra
end

