-- ==== Sys2Proof/Laws/ErrorPatterns.lean ====
section
/-! SUPPORT. Error patterns and their power sums: few locators are determined by their power sums, a shortest recurrence of the
power sums has exactly their inverses as roots, and a recurrence with enough roots yields the pattern, by Forney's formula
(R203, R206, R251). -/

namespace Sys2Proof.Algebra

open Polynomial (X C)

section
variable {K : Type} [Field K] {A : Finset Nat} {x y : Nat → K} {N : Nat}

/-- `A.card` power sums determine the weights of `A.card` distinct locators. -/
theorem powerSums_unique (hx : Set.InjOn x A) (hN : A.card ≤ N) (h : ∀ j < N, ∑ i ∈ A, y i * x i ^ j = 0) :
    ∀ i ∈ A, y i = 0 := by
  classical
  intro i0 hi0
  let p : Polynomial K := ∏ i ∈ A.erase i0, (X - C (x i))
  have hdeg : p.natDegree < N := by
    have : p.natDegree = (A.erase i0).card := by
      rw [Polynomial.natDegree_prod _ _ fun i _ => Polynomial.X_sub_C_ne_zero _]
      simp
    have := Finset.card_erase_lt_of_mem hi0
    omega
  have hsum : ∑ i ∈ A, y i * p.eval (x i) = 0 := by
    have : ∀ i ∈ A, y i * p.eval (x i) = ∑ k ∈ Finset.range N, p.coeff k * (y i * x i ^ k) := by
      intro i _
      rw [Polynomial.eval_eq_sum_range' hdeg, Finset.mul_sum]
      exact Finset.sum_congr rfl fun k _ => by ring
    rw [Finset.sum_congr rfl this, Finset.sum_comm]
    refine Finset.sum_eq_zero fun k hk => ?_
    rw [← Finset.mul_sum, h k (Finset.mem_range.1 hk), mul_zero]
  rw [Finset.sum_eq_single_of_mem i0 hi0] at hsum
  · refine (mul_eq_zero.1 hsum).resolve_right ?_
    rw [← ne_eq, Polynomial.eval_prod, Finset.prod_ne_zero_iff]
    intro i hi
    rw [Polynomial.eval_sub, Polynomial.eval_X, Polynomial.eval_C, sub_ne_zero]
    exact fun he => Finset.ne_of_mem_erase hi (hx hi0 (Finset.mem_of_mem_erase hi) he).symm
  · intro i hi hne
    rw [Polynomial.eval_prod, Finset.prod_eq_zero (Finset.mem_erase.2 ⟨hne, hi⟩) (by simp), mul_zero]

/-- The recurrence of a polynomial of degree at most `l` applied to power sums, in terms of its values. -/
theorem coeff_mul_powerSums {Sx G : Polynomial K} {l k : Nat} (h0 : ∀ i ∈ A, x i ≠ 0)
    (hS : ∀ j < N, Sx.coeff j = ∑ i ∈ A, y i * x i ^ j) (hG : ∀ i, l < i → G.coeff i = 0) (hlk : l ≤ k) (hk : k < N) :
    (G * Sx).coeff k = ∑ i ∈ A, (y i * x i ^ k) * G.eval (x i)⁻¹ := by
  have hdeg : G.natDegree < k + 1 := by
    have : G.natDegree ≤ l := Polynomial.natDegree_le_iff_coeff_eq_zero.2 fun i hi => hG i hi
    omega
  rw [Polynomial.coeff_mul, Finset.Nat.sum_antidiagonal_eq_sum_range_succ (fun a b => G.coeff a * Sx.coeff b)]
  have : ∀ i ∈ A, (y i * x i ^ k) * G.eval (x i)⁻¹ = ∑ a ∈ Finset.range (k + 1), G.coeff a * (y i * x i ^ (k - a)) := by
    intro i hi
    rw [Polynomial.eval_eq_sum_range' hdeg, Finset.mul_sum]
    refine Finset.sum_congr rfl fun a ha => ?_
    have ha' : a ≤ k := Nat.lt_succ_iff.1 (Finset.mem_range.1 ha)
    rw [pow_sub₀ _ (h0 i hi) ha', inv_pow]; ring
  rw [Finset.sum_congr rfl this, Finset.sum_comm]
  refine Finset.sum_congr rfl fun a ha => ?_
  rw [hS (k - a) (by omega), Finset.mul_sum]

/-- The polynomial whose roots are the inverse locators. -/
noncomputable def locatorPoly (A : Finset Nat) (x : Nat → K) : Polynomial K := ∏ i ∈ A, (1 - C (x i) * X)

theorem locatorPoly_generates {Sx : Polynomial K} (h0 : ∀ i ∈ A, x i ≠ 0)
    (hS : ∀ j < N, Sx.coeff j = ∑ i ∈ A, y i * x i ^ j) : Generates Sx (locatorPoly A x) A.card N := by
  have hdeg : (locatorPoly A x).natDegree ≤ A.card := by
    refine le_trans (Polynomial.natDegree_prod_le _ _) ?_
    refine le_trans (Finset.sum_le_card_nsmul _ _ 1 fun i _ => ?_) (by simp)
    exact le_trans (Polynomial.natDegree_sub_le _ _) (max_le (by simp) ((Polynomial.natDegree_mul_le.trans (by simp))))
  have hz : ∀ i, A.card < i → (locatorPoly A x).coeff i = 0 := fun i hi =>
    Polynomial.coeff_eq_zero_of_natDegree_lt (by omega)
  refine ⟨by simp [locatorPoly, Polynomial.coeff_zero_eq_eval_zero, Polynomial.eval_prod], hz, fun k h1 h2 => ?_⟩
  rw [coeff_mul_powerSums h0 hS hz h1 h2]
  refine Finset.sum_eq_zero fun i hi => ?_
  rw [locatorPoly, Polynomial.eval_prod, Finset.prod_eq_zero hi, mul_zero]
  simp [h0 i hi]

/-- A shortest recurrence of the power sums of at most `N / 2` locators has their number as length and degree, and their
inverses as its only roots. -/
theorem shortest_roots {Sx G : Polynomial K} {l : Nat} (hx : Set.InjOn x A) (h0 : ∀ i ∈ A, x i ≠ 0) (hy : ∀ i ∈ A, y i ≠ 0)
    (hS : ∀ j < N, Sx.coeff j = ∑ i ∈ A, y i * x i ^ j) (hN : 2 * A.card ≤ N) (hG : Generates Sx G l N)
    (hmin : ∀ H k, Generates Sx H k N → l ≤ k) :
    l = A.card ∧ G.natDegree = A.card ∧ ∀ z, G.eval z = 0 ↔ ∃ i ∈ A, z = (x i)⁻¹ := by
  classical
  have hle : l ≤ A.card := hmin _ _ (locatorPoly_generates h0 hS)
  have hroot : ∀ i ∈ A, G.eval (x i)⁻¹ = 0 := by
    have := powerSums_unique (y := fun i => y i * x i ^ l * G.eval (x i)⁻¹) (N := N - l) hx (by omega) fun j hj => by
      have := hG.vanish (l + j) (by omega) (by omega)
      rw [coeff_mul_powerSums h0 hS hG.degree (by omega) (by omega)] at this
      rw [← this]
      exact Finset.sum_congr rfl fun i _ => by rw [pow_add]; ring
    intro i hi
    exact (mul_eq_zero.1 (this i hi)).resolve_left (mul_ne_zero (hy i hi) (pow_ne_zero _ (h0 i hi)))
  have hG0 : G ≠ 0 := by rintro rfl; simpa using hG.head
  have hdeg : G.natDegree ≤ l := Polynomial.natDegree_le_iff_coeff_eq_zero.2 fun i hi => hG.degree i hi
  let T : Finset K := A.image fun i => (x i)⁻¹
  have hT : T.card = A.card := Finset.card_image_of_injOn fun a ha b hb hab => hx ha hb (inv_inj.1 hab)
  have hsub : T.val ≤ G.roots := by
    rw [Multiset.le_iff_subset T.nodup]
    intro z hz
    obtain ⟨i, hi, rfl⟩ := Finset.mem_image.1 hz
    exact (Polynomial.mem_roots hG0).2 (hroot i hi)
  have hcard := Multiset.card_le_card hsub
  have hcard' := Polynomial.card_roots' G
  rw [Finset.card_val, hT] at hcard
  have heq : T.val = G.roots := Multiset.eq_of_le_of_card_le hsub (by rw [Finset.card_val, hT]; omega)
  refine ⟨by omega, by omega, fun z => ⟨fun hz => ?_, ?_⟩⟩
  · have : z ∈ T.val := by rw [heq]; exact (Polynomial.mem_roots hG0).2 hz
    obtain ⟨i, hi, rfl⟩ := Finset.mem_image.1 this
    exact ⟨i, hi, rfl⟩
  · rintro ⟨i, hi, rfl⟩
    exact hroot i hi

/-- As many distinct roots as the degree allows are simple: the derivative does not vanish there (R203). -/
theorem derivative_ne_zero {G : Polynomial K} {T : Finset K} (hG : G ≠ 0) (hdeg : G.natDegree ≤ T.card)
    (hroot : ∀ z ∈ T, G.eval z = 0) : ∀ z ∈ T, (Polynomial.derivative G).eval z ≠ 0 := by
  classical
  have hsub : T.val ≤ G.roots := by
    rw [Multiset.le_iff_subset T.nodup]
    exact fun z hz => (Polynomial.mem_roots hG).2 (hroot z hz)
  have heq : T.val = G.roots :=
    Multiset.eq_of_le_of_card_le hsub (le_trans (Polynomial.card_roots' G) (by simpa using hdeg))
  intro z hz h0
  have hdouble : 1 < G.rootMultiplicity z := by
    rw [Polynomial.one_lt_rootMultiplicity_iff_isRoot hG]
    exact ⟨hroot z hz, h0⟩
  have : G.roots.count z = 1 := by rw [← heq]; exact Multiset.count_eq_one_of_mem T.nodup hz
  rw [Polynomial.count_roots] at this
  omega

/-- The evaluator: the product cut off below `X ^ N` (R203). -/
noncomputable def evaluator (Sx G : Polynomial K) (N : Nat) : Polynomial K :=
  ∑ s ∈ Finset.range N, C ((G * Sx).coeff s) * X ^ s

theorem coeff_evaluator (Sx G : Polynomial K) (N s : Nat) :
    (evaluator Sx G N).coeff s = if s < N then (G * Sx).coeff s else 0 := by
  rw [evaluator, Polynomial.finsetSum_coeff]
  simp only [Polynomial.coeff_C_mul_X_pow]
  rw [Finset.sum_ite_eq]; simp

/-- Forney's formula: a recurrence of length `A.card` that vanishes at the inverse locators makes the sequence the power sums
of the locators, weighted by the values of the evaluator over those of the derivative (R203). -/
theorem forney {Sx G : Polynomial K} (hx : Set.InjOn x A) (h0 : ∀ i ∈ A, x i ≠ 0) (hG : Generates Sx G A.card N)
    (hroot : ∀ i ∈ A, G.eval (x i)⁻¹ = 0) (hneg : ∀ z : K, -z = z)
    (hy : ∀ i ∈ A, y i = x i * ((evaluator Sx G N).eval (x i)⁻¹ / (Polynomial.derivative G).eval (x i)⁻¹)) :
    ∀ j < N, Sx.coeff j = ∑ i ∈ A, y i * x i ^ j := by
  classical
  have hG0 : G ≠ 0 := by rintro rfl; simpa using hG.head
  have hdeg : G.natDegree ≤ A.card := Polynomial.natDegree_le_iff_coeff_eq_zero.2 fun i hi => hG.degree i hi
  -- the cofactor of each root
  have hcof : ∀ i, ∃ q : Polynomial K, i ∈ A → G = (1 - C (x i) * X) * q := by
    intro i
    by_cases hi : i ∈ A
    · obtain ⟨q, hq⟩ := Polynomial.dvd_iff_isRoot.2 (hroot i hi)
      refine ⟨C (-(x i)⁻¹) * q, fun _ => ?_⟩
      rw [hq, ← mul_assoc]
      congr 1
      rw [sub_mul, one_mul, mul_assoc, mul_comm X, ← mul_assoc, ← C.map_mul, mul_neg, mul_inv_cancel₀ (h0 i hi)]
      simp only [map_neg, map_one]; ring
    · exact ⟨0, fun h => absurd h hi⟩
  choose q hq using hcof
  have hfac : ∀ i ∈ A, (1 - C (x i) * X : Polynomial K) ≠ 0 := by
    intro i hi hz
    have := hq i hi
    rw [hz, zero_mul] at this
    exact hG0 this
  have hq0 : ∀ i ∈ A, q i ≠ 0 := by
    intro i hi hz
    have := hq i hi
    rw [hz, mul_zero] at this
    exact hG0 this
  have hfdeg : ∀ i ∈ A, (1 - C (x i) * X : Polynomial K).natDegree = 1 := by
    intro i hi
    rw [show (1 - C (x i) * X : Polynomial K) = C (-(x i)) * X + C 1 by simp; ring]
    exact Polynomial.natDegree_linear (neg_ne_zero.2 (h0 i hi))
  have hqdeg : ∀ i ∈ A, (q i).natDegree < A.card := by
    intro i hi
    have := Polynomial.natDegree_mul (hfac i hi) (hq0 i hi)
    rw [← hq i hi, hfdeg i hi] at this
    omega
  have hqother : ∀ i ∈ A, ∀ k ∈ A, i ≠ k → (q i).eval (x k)⁻¹ = 0 := by
    intro i hi k hk hne
    have := hroot k hk
    rw [hq i hi, Polynomial.eval_mul] at this
    refine (mul_eq_zero.1 this).resolve_left ?_
    simp only [Polynomial.eval_sub, Polynomial.eval_one, Polynomial.eval_mul, Polynomial.eval_C, Polynomial.eval_X]
    rw [← ne_eq, sub_ne_zero]
    intro he
    exact hne (hx hi hk (by rw [← div_eq_mul_inv] at he; exact (div_eq_one_iff_eq (h0 k hk)).1 he.symm))
  have hder : ∀ i ∈ A, (Polynomial.derivative G).eval (x i)⁻¹ = x i * (q i).eval (x i)⁻¹ := by
    intro i hi
    conv_lhs => rw [hq i hi]
    simp [Polynomial.derivative_mul, h0 i hi, hneg]
  have hqself : ∀ i ∈ A, (q i).eval (x i)⁻¹ ≠ 0 := by
    intro i hi
    have hT : (A.image fun i => (x i)⁻¹).card = A.card :=
      Finset.card_image_of_injOn fun a ha b hb hab => hx ha hb (inv_inj.1 hab)
    have := derivative_ne_zero (T := A.image fun i => (x i)⁻¹) hG0 (by rw [hT]; exact hdeg) (by
      intro z hz
      obtain ⟨k, hk, rfl⟩ := Finset.mem_image.1 hz
      exact hroot k hk) _ (Finset.mem_image_of_mem _ hi)
    rw [hder i hi] at this
    exact right_ne_zero_of_mul this
  -- the evaluator is the interpolation through the cofactors
  have homega : evaluator Sx G N = ∑ i ∈ A, C (y i) * q i := by
    refine Polynomial.eq_of_degrees_lt_of_eval_index_eq (s := A) (v := fun i => (x i)⁻¹)
      (fun a ha b hb hab => hx ha hb (inv_inj.1 hab)) ?_ ?_ fun k hk => ?_
    · rw [Polynomial.degree_lt_iff_coeff_zero]
      intro s hs
      rw [coeff_evaluator]
      split
      · next h => exact hG.vanish s hs h
      · rfl
    · rw [Polynomial.degree_lt_iff_coeff_zero]
      intro s hs
      rw [Polynomial.finsetSum_coeff]
      refine Finset.sum_eq_zero fun i hi => ?_
      rw [Polynomial.coeff_C_mul, Polynomial.coeff_eq_zero_of_natDegree_lt (lt_of_lt_of_le (hqdeg i hi) hs), mul_zero]
    · rw [Polynomial.eval_finsetSum, Finset.sum_eq_single_of_mem k hk]
      · rw [Polynomial.eval_mul, Polynomial.eval_C, hy k hk, hder k hk]
        field_simp [h0 k hk, hqself k hk]
      · intro i hi hne
        rw [Polynomial.eval_mul, hqother i hi k hk hne, mul_zero]
  -- both sequences agree below N
  let T : Polynomial K := ∑ j ∈ Finset.range N, C (∑ i ∈ A, y i * x i ^ j) * X ^ j
  have hTcoeff : ∀ j, T.coeff j = if j < N then ∑ i ∈ A, y i * x i ^ j else 0 := by
    intro j
    simp only [T, Polynomial.finsetSum_coeff, Polynomial.coeff_C_mul_X_pow]
    rw [Finset.sum_ite_eq]; simp
  have hgeo : ∀ z : K, (1 - C z * X) * ∑ j ∈ Finset.range N, C (z ^ j) * X ^ j = 1 - C (z ^ N) * X ^ N := by
    intro z
    have := mul_geom_sum (C z * X) N
    have h2 : ∑ j ∈ Finset.range N, C (z ^ j) * X ^ j = ∑ j ∈ Finset.range N, (C z * X) ^ j :=
      Finset.sum_congr rfl fun j _ => by rw [mul_pow, C.map_pow]
    rw [h2, C.map_pow, ← mul_pow]
    linear_combination -this
  have hT : T = ∑ i ∈ A, C (y i) * ∑ j ∈ Finset.range N, C (x i ^ j) * X ^ j := by
    simp only [T, map_sum, Finset.sum_mul, Finset.mul_sum]
    rw [Finset.sum_comm]
    exact Finset.sum_congr rfl fun i _ => Finset.sum_congr rfl fun j _ => by rw [C.map_mul]; ring
  have hGT : G * T = evaluator Sx G N - X ^ N * ∑ i ∈ A, C (y i * x i ^ N) * q i := by
    rw [hT, homega, Finset.mul_sum, Finset.mul_sum, ← Finset.sum_sub_distrib]
    refine Finset.sum_congr rfl fun i hi => ?_
    conv_lhs => rw [hq i hi]
    rw [show (1 - C (x i) * X) * q i * (C (y i) * ∑ j ∈ Finset.range N, C (x i ^ j) * X ^ j) =
      C (y i) * q i * ((1 - C (x i) * X) * ∑ j ∈ Finset.range N, C (x i ^ j) * X ^ j) by ring, hgeo, C.map_mul]
    ring
  have hdvd : X ^ N ∣ G * (T - Sx) := by
    rw [Polynomial.X_pow_dvd_iff]
    intro s hs
    rw [mul_sub, Polynomial.coeff_sub, hGT, Polynomial.coeff_sub, coeff_evaluator, if_pos hs, mul_comm (X ^ N),
      Polynomial.coeff_mul_X_pow', if_neg (by omega)]
    ring
  have hdvd' : X ^ N ∣ T - Sx := by
    refine Polynomial.prime_X.pow_dvd_of_dvd_mul_left N ?_ hdvd
    rw [Polynomial.X_dvd_iff, hG.head]
    exact one_ne_zero
  intro j hj
  have := Polynomial.X_pow_dvd_iff.1 hdvd' j hj
  rw [Polynomial.coeff_sub, hTcoeff, if_pos hj] at this
  exact (sub_eq_zero.1 this).symm

/-- A shortest recurrence leaves no weight 0. -/
theorem weights_ne_zero {Sx : Polynomial K} (h0 : ∀ i ∈ A, x i ≠ 0) (hS : ∀ j < N, Sx.coeff j = ∑ i ∈ A, y i * x i ^ j)
    (hmin : ∀ H k, Generates Sx H k N → A.card ≤ k) : ∀ i ∈ A, y i ≠ 0 := by
  classical
  intro i hi hz
  have := hmin _ _ (locatorPoly_generates (A := A.erase i) (y := y) (fun k hk => h0 k (Finset.mem_of_mem_erase hk)) fun j hj => by
    rw [hS j hj, ← Finset.add_sum_erase A _ hi, hz, zero_mul, zero_add])
  have := Finset.card_erase_lt_of_mem hi
  omega

end
end Sys2Proof.Algebra
end

