-- ==== Sys2Proof/Laws/LocateErrors.lean ====
section
/-! SUPPORT. The shared searches in the model of the field (R200 to R203): what a successful location means, that few errors are
located, and the magnitude by Forney's formula. -/

namespace Sys2Proof.Algebra

open Machine (Built xorSum bm rootPositions polyDegree locateErrors rsMagnitude rsEvaluator locatorDerivative Located)
open Polynomial (X C)

section
variable {F : Machine.Field} {P : Nat} {K : Type} [Field K] (M : Model F P K)

/-- The locator of position `i` in a word of `n` positions. -/
def Model.loc (M : Model F P K) (n i : Nat) : K := M.root ^ (n - 1 - i)

theorem loc_ne_zero (h : Built F.m P F.tables) (n i : Nat) : M.loc n i ≠ 0 := pow_ne_zero _ (M.root_ne_zero h)

theorem loc_injOn (h : Built F.m P F.tables) {n : Nat} (hn : n ≤ F.order) {A : Finset Nat} (hA : ∀ i ∈ A, i < n) :
    Set.InjOn (M.loc n) A := by
  intro a ha b hb hab
  have h1 := hA a ha
  have h2 := hA b hb
  have := M.root_pow_injective h (by omega) (by omega) hab
  omega

omit [Field K] in
theorem polyEval_lt (h : Built F.m P F.tables) (l : List Nat) (d x : Nat) : F.polyEval l d x < F.size :=
  xorSum_lt fun v hv => by obtain ⟨i, -, rfl⟩ := List.mem_map.1 hv; exact mul_lt h _ _

theorem val_locator (h : Built F.m P F.tables) (n i : Nat) : M.val (F.locator n i) = M.loc n i := M.val_alpha h _

theorem low_natDegree {lam : List Nat} (hl : ∀ v ∈ lam, v < F.size) (h0 : lam.getD 0 0 = 1) :
    (M.low lam).natDegree = polyDegree lam := by
  obtain ⟨-, h1, h2⟩ := polyDegree_spec (c := lam) (by rw [h0]; omega)
  refine le_antisymm (Polynomial.natDegree_le_iff_coeff_eq_zero.2 fun i hi => ?_) (Polynomial.le_natDegree_of_ne_zero ?_)
  · rw [coeff_low, h2 i hi, M.val_zero]
  · rw [coeff_low, ne_eq, M.val_eq_zero (getD_lt hl _)]; exact h1

theorem low_eval (h : Built F.m P F.tables) {lam : List Nat} (hl : ∀ v ∈ lam, v < F.size) (h0 : lam.getD 0 0 = 1) {z : Nat}
    (hz : z < F.size) : M.val (F.polyEval lam (polyDegree lam) z) = (M.low lam).eval (M.val z) := by
  rw [M.val_polyEval h hl _ hz, Polynomial.eval_eq_sum_range, low_natDegree M hl h0]
  exact Finset.sum_congr rfl fun i _ => by rw [coeff_low]

/-- What locating errors answers, in the model: the locator and the set of its roots' positions. -/
structure Locates (S : List Nat) (Ns t n : Nat) (lam : List Nat) (A : Finset Nat) : Prop where
  inside : ∀ i ∈ A, i < n
  few : A.card ≤ t
  lamLt : ∀ v ∈ lam, v < F.size
  lamHead : lam.getD 0 0 = 1
  degree : polyDegree lam = A.card
  generates : Generates (M.low S) (M.low lam) A.card Ns
  shortest : ∀ G l, Generates (M.low S) G l Ns → A.card ≤ l
  roots : ∀ i ∈ A, (M.low lam).eval (M.loc n i)⁻¹ = 0

/-- A successful location (R201, R202). -/
theorem locateErrors_found (h : Built F.m P F.tables) {S : List Nat} (hS : ∀ v ∈ S, v < F.size) {Ns t n d : Nat}
    {lam pos : List Nat} (hf : locateErrors F S Ns t n = .ok (.found lam d pos)) :
    d = polyDegree lam ∧ Locates M S Ns t n lam pos.toFinset ∧ pos.Nodup := by
  obtain ⟨lam', len, h1, -, h3, h4⟩ := bm_ok h hS Ns
  obtain ⟨g1, g2⟩ := bm_shortest M h hS h1
  simp only [locateErrors, h1, rootPositions_ok M h] at hf
  split at hf
  · simp at hf
  · next hd =>
    split at hf
    · simp at hf
    · next hlen =>
      simp only [Except.ok.injEq, Located.found.injEq] at hf
      obtain ⟨rfl, rfl, hpos⟩ := hf
      have hlen' : pos.length = polyDegree lam' := by rw [← hpos]; exact not_not.1 hlen
      have hnd : pos.Nodup := by rw [← hpos]; exact List.Nodup.filter _ List.nodup_range
      have hcard : pos.toFinset.card = polyDegree lam' := by rw [List.toFinset_card_of_nodup hnd, hlen']
      have hll : len = pos.toFinset.card := by omega
      have hmem : ∀ i, i ∈ pos.toFinset ↔ i < n ∧ F.polyEval lam' (polyDegree lam') (locatorInv F n i) = 0 := by
        intro i; rw [List.mem_toFinset, ← hpos]; simp
      refine ⟨rfl, ⟨fun i hi => ((hmem i).1 hi).1, by omega, h3, h4, hcard.symm, hll ▸ g1, fun G l hG => hll ▸ g2 G l hG,
        fun i hi => ?_⟩, hnd⟩
      have := low_eval M h h3 h4 (locatorInv_lt h n i)
      rw [((hmem i).1 hi).2, M.val_zero, val_locatorInv M h] at this
      exact this.symm

omit [Field K] in
/-- Locating errors always answers (R207). -/
theorem locateErrors_ok (h : Built F.m P F.tables) {S : List Nat} (hS : ∀ v ∈ S, v < F.size) {Ns t n : Nat} :
    ∃ o, locateErrors F S Ns t n = .ok o := by
  obtain ⟨K, _, ⟨M⟩⟩ := exists_model h
  obtain ⟨lam, len, h1, -, -, -⟩ := bm_ok h hS Ns
  simp only [locateErrors, h1, rootPositions_ok M h]
  split
  · exact ⟨_, rfl⟩
  · split
    · exact ⟨_, rfl⟩
    · exact ⟨_, rfl⟩

/-- The positions of few errors are located (R205, R250). -/
theorem locateErrors_of_sums (h : Built F.m P F.tables) {S : List Nat} (hS : ∀ v ∈ S, v < F.size) {Ns t n : Nat}
    (hn : n ≤ F.order) {A : Finset Nat} (hA : ∀ i ∈ A, i < n) (ht : A.card ≤ t) (hN : 2 * A.card ≤ Ns) {y : Nat → K}
    (hy : ∀ i ∈ A, y i ≠ 0) (hsum : ∀ j < Ns, M.val (S.getD j 0) = ∑ i ∈ A, y i * M.loc n i ^ j) :
    ∃ lam, locateErrors F S Ns t n = .ok (.found lam A.card ((List.range n).filter fun i => decide (i ∈ A))) := by
  obtain ⟨lam, len, h1, -, h3, h4⟩ := bm_ok h hS Ns
  obtain ⟨g1, g2⟩ := bm_shortest M h hS h1
  obtain ⟨e1, e2, e3⟩ := shortest_roots (loc_injOn M h hn hA) (fun i _ => loc_ne_zero M h n i) hy
    (fun j hj => by rw [coeff_low]; exact hsum j hj) hN g1 g2
  rw [low_natDegree M h3 h4] at e2
  have hfilter : ((List.range n).filter fun i => decide (F.polyEval lam (polyDegree lam) (locatorInv F n i) = 0)) =
      (List.range n).filter fun i => decide (i ∈ A) := by
    refine List.filter_congr fun i hi => ?_
    have hi := List.mem_range.1 hi
    rw [decide_eq_decide, ← M.val_eq_zero (polyEval_lt h _ _ _), low_eval M h h3 h4 (locatorInv_lt h n i), e3, val_locatorInv M h]
    constructor
    · rintro ⟨k, hk, he⟩
      have hk' := hA k hk
      have := M.root_pow_injective h (by omega) (by omega) (inv_inj.1 he)
      obtain rfl : i = k := by omega
      exact hk
    · exact fun hi => ⟨i, hi, rfl⟩
  have hcard : ((List.range n).filter fun i => decide (i ∈ A)).length = A.card := by
    rw [← List.toFinset_card_of_nodup (List.Nodup.filter _ List.nodup_range)]
    congr 1
    ext i
    simp only [List.mem_toFinset, List.mem_filter, List.mem_range, decide_eq_true_eq]
    exact ⟨fun hi => hi.2, fun hi => ⟨hA i hi, hi⟩⟩
  refine ⟨lam, ?_⟩
  simp only [locateErrors, h1, rootPositions_ok M h]
  rw [if_neg (by omega), hfilter, hcard, e2, if_neg (by simp)]

end
end Sys2Proof.Algebra
end

