-- ==== Sys2Proof/Laws/BchGenerator.lean ====
section
/-! SUPPORT. The BCH generator is the product of the distinct root factors of its cosets (R242), so its multiples are exactly
the binary words whose syndromes are zero (R248). -/

namespace Sys2Proof.Algebra

open Machine (Built xorSum clmul bitsNumber cosetWalk coset minimalPoly bchGenStep bchGenerator bchCode)
open Polynomial (X C)

section
variable {F : Machine.Field} {P : Nat} {K : Type} [Field K] (M : Model F P K)

/-! ## Cosets and doubling -/

theorem two_pow_m_mod (F : Machine.Field) (a : Nat) : 2 ^ (F.m * a) ≡ 1 [MOD F.order] := by
  have : 2 ^ F.m ≡ 1 [MOD F.order] := by
    have h1 : 2 ^ F.m = F.order + 1 := by
      have := Nat.two_pow_pos F.m
      unfold Machine.Field.order; omega
    rw [h1]; simp [Nat.ModEq]
  rw [pow_mul]
  simpa using this.pow a

/-- Every exponent of the walk is a doubling of its start. -/
theorem cosetWalk_doubles {Q i : Nat} : ∀ (k z : Nat) (acc : List Nat), (∃ a, z = 2 ^ a * i % Q) →
    (∀ y ∈ acc, ∃ a, y = 2 ^ a * i % Q) → ∀ y ∈ cosetWalk Q k z acc, ∃ a, y = 2 ^ a * i % Q := by
  intro k
  induction k with
  | zero => intro z acc _ hacc; exact hacc
  | succ k ih =>
    intro z acc hz hacc
    rw [cosetWalk]
    split
    · exact hacc
    · obtain ⟨a, ha⟩ := hz
      refine ih _ _ ⟨a + 1, ?_⟩ fun y hy => ?_
      · rw [ha, pow_succ', mul_assoc, Nat.mul_mod_mod]
      · rcases List.mem_append.1 hy with hy | hy
        · exact hacc y hy
        · rw [List.mem_singleton.1 hy]; exact ⟨a, ha⟩

theorem coset_doubles {i : Nat} (hi : i < F.order) : ∀ y ∈ coset F i, ∃ a, y = 2 ^ a * i % F.order :=
  cosetWalk_doubles F.order i [] ⟨0, by rw [pow_zero, one_mul, Nat.mod_eq_of_lt hi]⟩ (by simp)

/-- Exponents closed under doubling. -/
def DoublingClosed (F : Machine.Field) (R : Nat → Prop) : Prop := ∀ y, R y → R (2 * y % F.order)

theorem doubling_pow {R : Nat → Prop} (hR : DoublingClosed F R) {i : Nat} (hi : i < F.order) (h : R i) (a : Nat) :
    R (2 ^ a * i % F.order) := by
  induction a with
  | zero => rwa [pow_zero, one_mul, Nat.mod_eq_of_lt hi]
  | succ a ih =>
    have := hR _ ih
    rwa [Nat.mul_mod_mod, ← mul_assoc, ← pow_succ'] at this

theorem coset_subset {R : Nat → Prop} (hR : DoublingClosed F R) {i : Nat} (hi : i < F.order) (h : R i) :
    ∀ y ∈ coset F i, R y := by
  intro y hy
  obtain ⟨a, rfl⟩ := coset_doubles hi y hy
  exact doubling_pow hR hi h a

/-- A coset that meets a closed set lies in it with its start. -/
theorem coset_start (h : Built F.m P F.tables) {R : Nat → Prop} (hR : DoublingClosed F R) {i y : Nat} (hi : i < F.order)
    (hy : y ∈ coset F i) (hRy : R y) : R i := by
  obtain ⟨a, rfl⟩ := coset_doubles hi y hy
  have hm : 1 ≤ F.m := by have := h.two_le; omega
  have := doubling_pow hR (Nat.mod_lt _ h.order_pos) hRy (F.m * a - a)
  rw [Nat.mul_mod_mod, ← mul_assoc, ← pow_add, Nat.sub_add_cancel (Nat.le_mul_of_pos_left a hm)] at this
  have he : 2 ^ (F.m * a) * i ≡ i [MOD F.order] := by simpa using (two_pow_m_mod F a).mul_right i
  rwa [he, Nat.mod_eq_of_lt hi] at this

/-! ## The generator as a product -/

include M in
theorem num_minimalPoly (h : Built F.m P F.tables) {i : Nat} (hi : i < F.order) :
    M.num (minimalPoly F (coset F i)) = ((coset F i).map fun y => X - C (M.root ^ y)).prod := by
  obtain ⟨h1, h2, h3, -⟩ := coset_spec h hi
  have hnum : M.num (minimalPoly F (coset F i)) = M.poly (F.polyOfRoots ((coset F i).map F.alpha)) :=
    M.num_bitsNumber (polyOfRoots_binary M h h1 h2 h3)
  rw [hnum, (M.poly_polyOfRoots h (by
    intro v hv; obtain ⟨y, -, rfl⟩ := List.mem_map.1 hv; exact alpha_lt h y)).2, List.map_map]
  exact congrArg List.prod (List.map_congr_left fun y _ => by simp [M.val_alpha h])

/-- The exponents of the generator's roots: distinct, with `1 .. 2t` among them, and the least closed under doubling (R242). -/
theorem bchGenerator_prod (h : Built F.m P F.tables) {t : Nat} (ht : 2 * t ≤ F.order - 1) :
    ∃ Z : List Nat, Z.Nodup ∧ (∀ y ∈ Z, y < F.order) ∧ (∀ i, 1 ≤ i → i ≤ 2 * t → i ∈ Z) ∧
      (∀ R, DoublingClosed F R → (∀ i, 1 ≤ i → i ≤ 2 * t → R i) → ∀ y ∈ Z, R y) ∧
      M.num (bchGenerator F t) = (Z.map fun y => X - C (M.root ^ y)).prod := by
  have key : ∀ (is : List Nat) (st : List Nat × Nat), (∀ i ∈ is, i < F.order) → st.1.Nodup → (∀ y ∈ st.1, y < F.order) →
      (∀ y ∈ st.1, 2 * y % F.order ∈ st.1) → M.num st.2 = (st.1.map fun y => X - C (M.root ^ y)).prod →
      ∃ Z : List Nat, Z.Nodup ∧ (∀ y ∈ Z, y < F.order) ∧ (∀ i ∈ is, i ∈ Z) ∧ (∀ y ∈ st.1, y ∈ Z) ∧
        (∀ R, DoublingClosed F R → (∀ y ∈ st.1, R y) → (∀ i ∈ is, R i) → ∀ y ∈ Z, R y) ∧
        M.num (is.foldl (bchGenStep F) st).2 = (Z.map fun y => X - C (M.root ^ y)).prod := by
    intro is
    induction is with
    | nil => intro st _ h1 h2 _ h4; exact ⟨st.1, h1, h2, by simp, fun y hy => hy, fun R _ hR _ => hR, h4⟩
    | cons i is ih =>
      intro st hlt h1 h2 h3 h4
      have hi := hlt i List.mem_cons_self
      have hlt' : ∀ j ∈ is, j < F.order := fun j hj => hlt j (List.mem_cons_of_mem _ hj)
      rw [List.foldl_cons]
      by_cases hc : i ∈ st.1
      · have hst : bchGenStep F st i = st := by simp [bchGenStep, hc]
        rw [hst]
        obtain ⟨Z, z1, z2, z3, z4, z5, z6⟩ := ih st hlt' h1 h2 h3 h4
        exact ⟨Z, z1, z2, fun j hj => (List.mem_cons.1 hj).elim (fun e => e ▸ z4 i hc) (z3 j), z4,
          fun R hR ha hb => z5 R hR ha fun j hj => hb j (List.mem_cons_of_mem _ hj), z6⟩
      · have hst : bchGenStep F st i = (st.1 ++ coset F i, clmul st.2 (minimalPoly F (coset F i))) := by
          simp [bchGenStep, hc]
        obtain ⟨c1, c2, c3, c4⟩ := coset_spec h hi
        obtain ⟨Z, z1, z2, z3, z4, z5, z6⟩ := ih (bchGenStep F st i) hlt' (by
            rw [hst]
            refine List.nodup_append.2 ⟨h1, c1, ?_⟩
            rintro a ha b hb rfl
            exact hc (coset_start h (R := (· ∈ st.1)) h3 hi hb ha))
          (by rw [hst]; exact fun y hy => (List.mem_append.1 hy).elim (h2 y) (c2 y))
          (by
            rw [hst]
            exact fun y hy => (List.mem_append.1 hy).elim (fun hy => List.mem_append_left _ (h3 y hy))
              (fun hy => List.mem_append_right _ (c3 y hy)))
          (by rw [hst, M.num_clmul, h4, num_minimalPoly M h hi, List.map_append, List.prod_append])
        rw [hst] at z4 z5
        refine ⟨Z, z1, z2, fun j hj => ?_, fun y hy => z4 y (List.mem_append_left _ hy), fun R hR ha hb => ?_, z6⟩
        · rcases List.mem_cons.1 hj with rfl | hj
          · exact z4 j (List.mem_append_right _ c4)
          · exact z3 j hj
        · refine z5 R hR (fun y hy => ?_) fun j hj => hb j (List.mem_cons_of_mem _ hj)
          rcases List.mem_append.1 hy with hy | hy
          · exact ha y hy
          · exact coset_subset hR hi (hb i List.mem_cons_self) y hy
  have hrange : ∀ i, i ∈ List.range' Config.bchFcr (2 * t) ↔ 1 ≤ i ∧ i ≤ 2 * t := by
    intro i
    rw [List.mem_range'_1]
    simp only [Config.bchFcr]
    omega
  obtain ⟨Z, z1, z2, z3, -, z5, z6⟩ := key (List.range' Config.bchFcr (2 * t)) ([], 1) (by
    intro i hi
    have := (hrange i).1 hi
    have := h.order_pos
    omega) (by simp) (by simp) (by simp) (by simp [Model.num])
  exact ⟨Z, z1, z2, fun i h1 h2 => z3 i ((hrange i).2 ⟨h1, h2⟩),
    fun R hR hh => z5 R hR (by simp) fun i hi => hh i ((hrange i).1 hi).1 ((hrange i).1 hi).2, z6⟩

/-! ## Binary words -/

/-- The number of a bit word has the word's polynomial (R244). -/
theorem numPoly_bits (w : List Bool) : numPoly (bitsNumber (w.map Bool.toNat)) = bitPoly w := by
  have key : ∀ (w : List Bool) (acc : Nat), numPoly ((w.map Bool.toNat).foldl (fun acc c => 2 * acc + c) acc) =
      numPoly acc * X ^ w.length + bitPoly w := by
    intro w
    induction w with
    | nil => intro acc; simp [bitPoly]
    | cons b w ih =>
      intro acc
      rw [List.map_cons, List.foldl_cons, ih, numPoly_double_add acc (by cases b <;> simp)]
      cases b <;> simp [bitPoly, pow_succ] <;> ring
  rw [bitsNumber, key w 0]
  simp

/-- `BCode(N)` in polynomials (R244). -/
theorem bchCode_iff_dvd {g : Nat} {w : List Bool} : bchCode g w ↔ numPoly g ∣ bitPoly w := by
  rw [← numPoly_bits, bchCode]
  constructor
  · rintro ⟨q, hq⟩
    rw [hq, numPoly_clmul]
    exact dvd_mul_left _ _
  · rintro ⟨f, hf⟩
    obtain ⟨q, hq, hqf⟩ := natPoly_surjective (m := f.natDegree + 1) (f := f)
      (lt_of_le_of_lt Polynomial.degree_le_natDegree (by exact_mod_cast Nat.lt_succ_self _))
    refine ⟨q, numPoly_injective ?_⟩
    rw [numPoly_clmul, hf, ← hqf, natPoly_eq_numPoly hq, mul_comm]

/-- A binary word is a multiple of the generator exactly when it vanishes at `alpha^1 .. alpha^(2t)` (R248). -/
theorem bchCode_iff_roots (h : Built F.m P F.tables) {t : Nat} (ht : 2 * t ≤ F.order - 1) {w : List Bool} :
    bchCode (bchGenerator F t) w ↔
      ∀ i, 1 ≤ i → i ≤ 2 * t → ((bitPoly w).map M.bitHom).eval (M.root ^ i) = 0 := by
  have := M.charP
  obtain ⟨Z, z1, z2, z3, z4, z5⟩ := bchGenerator_prod M h ht
  rw [bchCode_iff_dvd, ← Polynomial.map_dvd_map' M.bitHom,
    show (numPoly (bchGenerator F t)).map M.bitHom = (Z.map fun y => X - C (M.root ^ y)).prod from z5]
  constructor
  · intro hd i h1 h2
    refine Polynomial.eval_eq_zero_of_dvd_of_eval_eq_zero hd ?_
    rw [Polynomial.eval_list_prod, List.prod_eq_zero_iff, List.map_map]
    exact List.mem_map.2 ⟨i, z3 i h1 h2, by simp⟩
  · intro hz
    have hclosed : DoublingClosed F fun y => ((bitPoly w).map M.bitHom).eval (M.root ^ y) = 0 := by
      intro y hy
      rw [M.root_pow_mod h, mul_comm, pow_mul]
      have : ((bitPoly w).map M.bitHom).map (frobenius K 2) = (bitPoly w).map M.bitHom := by
        rw [Polynomial.map_map]
        congr 1
        exact RingHom.ext_zmod _ _
      have he := Polynomial.eval_map (frobenius K 2) (frobenius K 2 (M.root ^ y)) (p := (bitPoly w).map M.bitHom)
      rw [this, Polynomial.eval₂_at_apply, hy, map_zero, frobenius_def] at he
      exact he
    have hall := z4 _ hclosed hz
    rw [← List.prod_toFinset _ z1]
    refine Finset.prod_dvd_of_coprime (fun a ha b hb hab => ?_) fun y hy => ?_
    · refine Polynomial.isCoprime_X_sub_C_of_isUnit_sub (IsUnit.mk0 _ (sub_ne_zero.2 fun he => hab ?_))
      exact M.root_pow_injective h (z2 a (by simpa using ha)) (z2 b (by simpa using hb)) he
    · exact Polynomial.dvd_iff_isRoot.2 (hall y (by simpa using hy))

end
end Sys2Proof.Algebra
end

