-- ==== Sys2Proof/Laws/BitWords.lean ====
section
/-! SUPPORT. Bit streams of byte words: flips, prefixes, equality, and the bits of a number laid out in bytes (R11, R246). -/

namespace Sys2Proof.Algebra

open Machine (bitStream byteBits flipBit bitAt bytesMsbFirst)

theorem bitAt_bytes (count v i : ℕ) (hi : i < 8 * count) : bitAt (bytesMsbFirst count v) i = v.testBit (8 * count - 1 - i) := by
  rw [bitAt, bytesMsbFirst, List.getD_eq_getElem?_getD, List.getElem?_map, List.getElem?_range (by omega)]
  simp only [Option.map_some, Option.getD_some]
  rw [BitVec.getLsbD, BitVec.toNat_ofNat, Nat.testBit_mod_two_pow, Nat.testBit_and, Nat.testBit_shiftRight]
  have h1 : 7 - i % 8 < 8 := by omega
  have h2 : Nat.testBit 0xFF (7 - i % 8) = true := by
    have : i % 8 < 8 := by omega
    generalize i % 8 = j at this
    interval_cases j <;> rfl
  simp only [h1, h2, decide_true, Bool.true_and, Bool.and_true]
  congr 1; omega

theorem bitStream_flip (D : List Byte) (i : ℕ) : bitStream (flipBit D i) = (bitStream D).modify i not := by
  induction D generalizing i with
  | nil => simp [flipBit, bitStream]
  | cons b D ih =>
    by_cases h : i < 8
    · have h8 : i / 8 = 0 := by omega
      rw [flipBit, h8]
      simp only [List.modify_zero_cons, bitStream_cons]
      interval_cases i <;> simp [byteBits]
    · have h8 : i / 8 = (i - 8) / 8 + 1 := by omega
      rw [flipBit, h8, List.modify_succ_cons, bitStream_cons, bitStream_cons]
      have := ih (i - 8)
      rw [flipBit, show (i - 8) % 8 = i % 8 by omega] at this
      rw [this]
      have h9 : i = (i - 8) + 1 + 1 + 1 + 1 + 1 + 1 + 1 + 1 := by omega
      conv_rhs => rw [h9]
      simp only [byteBits, List.cons_append, List.nil_append, List.modify_succ_cons]


theorem byteBits_inj {a b : Byte} (h : byteBits a = byteBits b) : a = b := by
  simp only [byteBits, List.cons.injEq, and_true] at h
  obtain ⟨h7, h6, h5, h4, h3, h2, h1, h0⟩ := h
  apply BitVec.eq_of_getLsbD_eq
  intro i hi
  interval_cases i <;> assumption

theorem bitStream_inj {D E : List Byte} (hl : D.length = E.length) (h : bitStream D = bitStream E) : D = E := by
  induction D generalizing E with
  | nil => cases E <;> simp_all
  | cons a D ih =>
    cases E with
    | nil => simp at hl
    | cons b E =>
      rw [bitStream_cons, bitStream_cons] at h
      obtain ⟨h1, h2⟩ := List.append_inj h (by simp)
      rw [byteBits_inj h1, ih (by simpa using hl) h2]

theorem bitStream_take (D : List Byte) (k : ℕ) : bitStream (D.take k) = (bitStream D).take (8 * k) := by
  induction D generalizing k with
  | nil => simp [bitStream]
  | cons a D ih =>
    cases k with
    | zero => simp [bitStream]
    | succ k =>
      rw [List.take_succ_cons, bitStream_cons, bitStream_cons, ih, show 8 * (k + 1) = (byteBits a).length + 8 * k by simp; omega, List.take_length_add_append]

end Sys2Proof.Algebra
end

