-- ==== Sys2Proof/Laws/RsCapacity.lean ====
section
/-! SUPPORT. The RS decoder is a bounded-distance decoder (R203 to R206): Forney's magnitudes, the corrected word is a code
word, code words lie far apart, and a code word within the capacity is found. -/

namespace Sys2Proof.Algebra

open Machine (Built xorSum bm rootPositions polyDegree locateErrors rsMagnitude rsEvaluator locatorDerivative Located rsCorrect
  rsSyndromes rsHorner rsDecode rsCodeMember Decoded symbolByte distance)
open Polynomial (X C)

section
variable {F : Machine.Field} {P : Nat} {K : Type} [Field K] (M : Model F P K)

/-! ## Syndromes -/

theorem poly_eval_root (c : List Nat) (j : Nat) :
    (M.poly c).eval (M.root ^ j) = ∑ i ∈ Finset.range c.length, M.val (c.getD i 0) * M.loc c.length i ^ j := by
  rw [Model.poly, eval_polyHigh, List.length_map]
  refine Finset.sum_congr rfl fun i hi => ?_
  have hi := Finset.mem_range.1 hi
  rw [Model.loc, ← pow_mul, ← pow_mul, mul_comm j]
  simp [List.getD_eq_getElem?_getD, hi]

theorem rsSyndromes_lt (h : Built F.m P F.tables) {c : List Nat} (hc : ∀ v ∈ c, v < F.size) (r : Nat) :
    ∀ v ∈ rsSyndromes F r c, v < F.size := by
  obtain ⟨K, _, ⟨M⟩⟩ := exists_model h
  intro v hv
  obtain ⟨j, -, rfl⟩ := List.mem_map.1 hv
  exact (M.val_rsHorner h (alpha_lt h _) hc).1

theorem val_rsSyndrome (h : Built F.m P F.tables) {c : List Nat} (hc : ∀ v ∈ c, v < F.size) {r j : Nat} (hj : j < r) :
    M.val ((rsSyndromes F r c).getD j 0) = ∑ i ∈ Finset.range c.length, M.val (c.getD i 0) * M.loc c.length i ^ j := by
  have : (rsSyndromes F r c).getD j 0 = rsHorner F (F.alpha (Config.rsFcr + j)) c := by
    simp [rsSyndromes, List.getD_eq_getElem?_getD, hj]
  rw [this, (M.val_rsHorner h (alpha_lt h _) hc).2, M.val_alpha h, ← poly_eval_root]
  simp [Config.rsFcr]

theorem rsCodeMember_iff (h : Built F.m P F.tables) {c : List Nat} (hc : ∀ v ∈ c, v < F.size) {r : Nat} :
    rsCodeMember F r c ↔ ∀ j < r, ∑ i ∈ Finset.range c.length, M.val (c.getD i 0) * M.loc c.length i ^ j = 0 := by
  have hlt := rsSyndromes_lt h hc r
  constructor
  · intro hm j hj
    rw [← val_rsSyndrome M h hc hj]
    have : (rsSyndromes F r c).getD j 0 ∈ rsSyndromes F r c := by
      rw [List.getD_eq_getElem _ _ (by simpa [rsSyndromes] using hj)]; exact List.getElem_mem _
    rw [hm _ this, M.val_zero]
  · intro hz v hv
    obtain ⟨j, hj, rfl⟩ := List.mem_iff_getElem.1 hv
    have hj' : j < r := by simpa [rsSyndromes] using hj
    have := hz j hj'
    rw [← val_rsSyndrome M h hc hj', List.getD_eq_getElem _ _ hj, M.val_eq_zero (hlt _ hv)] at this
    exact this

/-! ## The positions where two words differ -/

/-- The positions at which two words differ. -/
def diffSet (c w : List Nat) : Finset Nat := (Finset.range c.length).filter fun i => (c)[i]? ≠ w[i]?

theorem diffSet_card (c w : List Nat) : (diffSet c w).card = distance c w := by
  rw [distance, ← List.toFinset_card_of_nodup (List.Nodup.filter _ List.nodup_range)]
  congr 1
  ext i
  simp [diffSet]

theorem diffSet_inside {c w : List Nat} : ∀ i ∈ diffSet c w, i < c.length := fun i hi => by
  simpa using (Finset.mem_filter.1 hi).1

theorem diff_ne_zero {c w : List Nat} (hl : c.length = w.length) (hc : ∀ v ∈ c, v < F.size) (hw : ∀ v ∈ w, v < F.size) :
    ∀ i ∈ diffSet c w, M.val (c.getD i 0) + M.val (w.getD i 0) ≠ 0 := by
  intro i hi h0
  have hlt := diffSet_inside i hi
  have hne := (Finset.mem_filter.1 hi).2
  rw [List.getElem?_eq_getElem hlt, List.getElem?_eq_getElem (hl ▸ hlt)] at hne
  rw [List.getD_eq_getElem _ _ hlt, List.getD_eq_getElem _ _ (hl ▸ hlt), ← M.sub_eq, sub_eq_zero] at h0
  exact hne (congrArg some (M.injective _ _ (hc _ (List.getElem_mem _)) (hw _ (List.getElem_mem _)) h0))

/-- The power sums of the difference of two words. -/
theorem diff_sums {c w : List Nat} (hl : c.length = w.length) (j : Nat) :
    ∑ i ∈ diffSet c w, (M.val (c.getD i 0) + M.val (w.getD i 0)) * M.loc c.length i ^ j =
      ∑ i ∈ Finset.range c.length, M.val (c.getD i 0) * M.loc c.length i ^ j +
      ∑ i ∈ Finset.range w.length, M.val (w.getD i 0) * M.loc w.length i ^ j := by
  rw [← hl, ← Finset.sum_add_distrib]
  refine (Finset.sum_subset (Finset.filter_subset _ _) fun i hi hni => ?_).trans
    (Finset.sum_congr rfl fun i _ => by rw [add_mul])
  have : (c)[i]? = w[i]? := by
    by_contra hne
    exact hni (Finset.mem_filter.2 ⟨hi, hne⟩)
  rw [List.getD_eq_getElem?_getD, List.getD_eq_getElem?_getD, this, M.add_self, zero_mul]

omit [Field K] in
/-- Code words at most `r` positions apart are equal (R206). -/
theorem rsCode_unique (h : Built F.m P F.tables) {c w : List Nat} (hl : c.length = w.length) (hn : c.length ≤ F.order)
    (hc : ∀ v ∈ c, v < F.size) (hw : ∀ v ∈ w, v < F.size) {r : Nat} (h1 : rsCodeMember F r c) (h2 : rsCodeMember F r w)
    (hd : distance c w ≤ r) : c = w := by
  obtain ⟨K, _, ⟨M⟩⟩ := exists_model h
  rw [rsCodeMember_iff M h hc] at h1
  rw [rsCodeMember_iff M h hw] at h2
  have := powerSums_unique (N := r) (loc_injOn M h hn diffSet_inside) (by rw [diffSet_card]; exact hd)
    fun j hj => by rw [diff_sums M hl, h1 j hj, h2 j hj, add_zero]
  refine List.ext_getElem? fun i => ?_
  by_contra hne
  by_cases hi : i < c.length
  · have hi' : i ∈ diffSet c w := Finset.mem_filter.2 ⟨Finset.mem_range.2 hi, hne⟩
    exact diff_ne_zero M hl hc hw i hi' (this i hi')
  · rw [List.getElem?_eq_none (by omega), List.getElem?_eq_none (by omega)] at hne
    exact hne rfl

/-! ## Magnitudes -/

theorem val_evaluator (h : Built F.m P F.tables) {S lam : List Nat} (hS : ∀ v ∈ S, v < F.size)
    (hlam : ∀ v ∈ lam, v < F.size) (h0 : lam.getD 0 0 = 1) (s : Nat) :
    rsEvaluator F S lam (polyDegree lam) s < F.size ∧
    M.val (rsEvaluator F S lam (polyDegree lam) s) = (M.low lam * M.low S).coeff s := by
  constructor
  · refine xorSum_lt fun v hv => ?_
    obtain ⟨a, -, rfl⟩ := List.mem_map.1 hv
    split
    · exact mul_lt h _ _
    · exact size_pos F
  · rw [rsEvaluator, M.val_xorSum_range, mul_comm, Polynomial.coeff_mul,
      Finset.Nat.sum_antidiagonal_eq_sum_range_succ (fun x y => (M.low S).coeff x * (M.low lam).coeff y)]
    refine Finset.sum_congr rfl fun a _ => ?_
    rw [coeff_low, coeff_low]
    split
    · rw [M.val_mul h (getD_lt hS _) (getD_lt hlam _)]
    · next hd =>
      rw [(polyDegree_spec (c := lam) (by rw [h0]; omega)).2.2 _ (by omega), M.val_zero, mul_zero]

theorem val_derivative (h : Built F.m P F.tables) {lam : List Nat} (hlam : ∀ v ∈ lam, v < F.size) (h0 : lam.getD 0 0 = 1)
    (hd : 1 ≤ polyDegree lam) {z : Nat} (hz : z < F.size) :
    M.val (F.polyEval (locatorDerivative lam (polyDegree lam)) (polyDegree lam - 1) z) =
      (Polynomial.derivative (M.low lam)).eval (M.val z) := by
  have hDl : ∀ v ∈ locatorDerivative lam (polyDegree lam), v < F.size := by
    intro v hv
    obtain ⟨k, -, rfl⟩ := List.mem_map.1 hv
    split
    · exact getD_lt hlam _
    · exact size_pos F
  have hdeg := low_natDegree M hlam h0
  rw [M.val_polyEval h hDl _ hz, Polynomial.eval_eq_sum_range' (n := polyDegree lam - 1 + 1)]
  · refine Finset.sum_congr rfl fun k hk => ?_
    have hk : k < polyDegree lam := by have := Finset.mem_range.1 hk; omega
    have : (locatorDerivative lam (polyDegree lam)).getD k 0 = if k % 2 = 0 then lam.getD (k + 1) 0 else 0 := by
      simp [locatorDerivative, List.getD_eq_getElem?_getD, hk]
    rw [this, Polynomial.coeff_derivative, coeff_low]
    congr 1
    have hpar : ((k : K) + 1) = if k % 2 = 0 then 1 else 0 := by
      have : ((k + 1 : Nat) : K) = if k % 2 = 0 then 1 else 0 := by
        conv_lhs => rw [← Nat.div_add_mod (k + 1) 2]
        push_cast
        rw [M.char_two, zero_mul, zero_add]
        split
        · rw [show (k + 1) % 2 = 1 by omega]; simp
        · rw [show (k + 1) % 2 = 0 by omega]; simp
      rw [← this]; push_cast; rfl
    rw [hpar]
    split <;> simp
  · have := Polynomial.natDegree_derivative_lt (p := M.low lam) (by omega)
    omega

/-- The magnitude at a located position (R203). -/
theorem val_rsMagnitude (h : Built F.m P F.tables) {r t n : Nat} {S lam : List Nat} (hr : 1 ≤ r) (hn : n ≤ F.order)
    (hS : ∀ v ∈ S, v < F.size) {A : Finset Nat} (hL : Locates M S r t n lam A) {i : Nat} (hi : i ∈ A) :
    ∃ y, rsMagnitude F r S lam (polyDegree lam) (F.locator n i) = .ok y ∧ y < F.size ∧
      M.val y = M.loc n i * ((evaluator (M.low S) (M.low lam) r).eval (M.loc n i)⁻¹ /
        (Polynomial.derivative (M.low lam)).eval (M.loc n i)⁻¹) := by
  classical
  have hd1 : 1 ≤ polyDegree lam := by rw [hL.degree]; exact Finset.card_pos.2 ⟨i, hi⟩
  have hxi := locatorInv_lt h n i
  have hvxi : M.val (locatorInv F n i) = (M.loc n i)⁻¹ := val_locatorInv M h n i
  have hder : (Polynomial.derivative (M.low lam)).eval (M.loc n i)⁻¹ ≠ 0 := by
    have hT : (A.image fun i => (M.loc n i)⁻¹).card = A.card :=
      Finset.card_image_of_injOn fun a ha b hb hab => loc_injOn M h hn hL.inside ha hb (inv_inj.1 hab)
    refine derivative_ne_zero (T := A.image fun i => (M.loc n i)⁻¹) ?_ ?_ ?_ _ (Finset.mem_image_of_mem _ hi)
    · intro hz
      have := hL.generates.head
      rw [hz] at this; simp at this
    · rw [hT, low_natDegree M hL.lamLt hL.lamHead, hL.degree]
    · intro z hz
      obtain ⟨k, hk, rfl⟩ := Finset.mem_image.1 hz
      exact hL.roots k hk
  have hden := val_derivative M h hL.lamLt hL.lamHead hd1 hxi
  rw [hvxi] at hden
  have hden0 : F.polyEval (locatorDerivative lam (polyDegree lam)) (polyDegree lam - 1) (locatorInv F n i) ≠ 0 := by
    intro hz
    rw [hz, M.val_zero] at hden
    exact hder hden.symm
  have hOm : ∀ v ∈ (List.range r).map (rsEvaluator F S lam (polyDegree lam)), v < F.size := by
    intro v hv
    obtain ⟨s, -, rfl⟩ := List.mem_map.1 hv
    exact (val_evaluator M h hS hL.lamLt hL.lamHead s).1
  have hnum : M.val (F.polyEval ((List.range r).map (rsEvaluator F S lam (polyDegree lam))) (r - 1) (locatorInv F n i)) =
      (evaluator (M.low S) (M.low lam) r).eval (M.loc n i)⁻¹ := by
    rw [M.val_polyEval h hOm _ hxi, hvxi, evaluator, Polynomial.eval_finsetSum, Nat.sub_add_cancel hr]
    refine Finset.sum_congr rfl fun s hs => ?_
    have hs := Finset.mem_range.1 hs
    have : ((List.range r).map (rsEvaluator F S lam (polyDegree lam))).getD s 0 = rsEvaluator F S lam (polyDegree lam) s := by
      simp [List.getD_eq_getElem?_getD, hs]
    rw [this, (val_evaluator M h hS hL.lamLt hL.lamHead s).2]
    simp
  obtain ⟨q, hq, hqlt, hqv⟩ := M.div_ok h (polyEval_lt h ((List.range r).map (rsEvaluator F S lam (polyDegree lam))) (r - 1)
    (locatorInv F n i)) hden0 (polyEval_lt h _ _ _)
  refine ⟨_, by simp only [rsMagnitude, inv_locator M h, hq]; rfl, mul_lt h _ _, ?_⟩
  rw [M.val_mul h (pow_lt h _ _) hqlt, M.val_pow h (locator_lt h n i), val_locator M h, hqv, hnum, hden]
  congr 1
  have ho : 1 < F.order := by
    have := h.two_le
    have := Nat.pow_le_pow_right (n := 2) (by omega) this
    unfold Machine.Field.order; omega
  rw [show (1 + F.order - Config.rsFcr % F.order) % F.order = 1 by
    simp only [Config.rsFcr, Nat.zero_mod, Nat.sub_zero, Nat.add_mod_right]; exact Nat.mod_eq_of_lt ho, pow_one]

/-! ## The corrected word -/

omit [Field K] in
/-- Correcting distinct positions adds each its magnitude (R204). -/
theorem rsCorrect_spec {r n d : Nat} {S lam : List Nat} (mag : Nat → Nat) :
    ∀ (pos e : List Nat), pos.Nodup → (∀ i ∈ pos, rsMagnitude F r S lam d (F.locator n i) = .ok (mag i)) →
    ∃ e', rsCorrect F r n S lam d pos e = .ok e' ∧ e'.length = e.length ∧
      ∀ i, e'[i]? = if i ∈ pos then e[i]?.map fun v => v ^^^ mag i else e[i]? := by
  intro pos
  induction pos with
  | nil => intro e _ _; exact ⟨e, rfl, rfl, by simp⟩
  | cons a pos ih =>
    intro e hn hm
    obtain ⟨e', h1, h2, h3⟩ := ih (e.modify a fun v => v ^^^ mag a) (List.nodup_cons.1 hn).2
      fun i hi => hm i (List.mem_cons_of_mem _ hi)
    refine ⟨e', by simp only [rsCorrect, hm a List.mem_cons_self, h1], by simpa using h2, fun i => ?_⟩
    rw [h3 i, List.getElem?_modify]
    have ha := (List.nodup_cons.1 hn).1
    by_cases hia : a = i
    · subst hia; simp [ha]
    · have : i ≠ a := fun hh => hia hh.symm
      simp [hia, this]

omit [Field K] in
/-- A located pattern is corrected to a code word within the capacity (R204, R206). -/
theorem rsCorrect_member (h : Built F.m P F.tables) {r t : Nat} {c lam pos : List Nat} {d : Nat} (hr : 1 ≤ r)
    (hn : c.length ≤ F.order) (hc : ∀ v ∈ c, v < F.size)
    (hf : locateErrors F (rsSyndromes F r c) r t c.length = .ok (.found lam d pos)) :
    ∃ e, rsCorrect F r c.length (rsSyndromes F r c) lam d pos c = .ok e ∧ e.length = c.length ∧ (∀ v ∈ e, v < F.size) ∧
      rsCodeMember F r e ∧ distance c e ≤ t := by
  obtain ⟨K, _, ⟨M⟩⟩ := exists_model h
  classical
  have hS := rsSyndromes_lt h hc r
  obtain ⟨rfl, hL, hnd⟩ := locateErrors_found M h hS hf
  have hmag : ∀ i, ∃ y, i ∈ pos → rsMagnitude F r (rsSyndromes F r c) lam (polyDegree lam) (F.locator c.length i) = .ok y ∧
      y < F.size ∧ M.val y = M.loc c.length i * ((evaluator (M.low (rsSyndromes F r c)) (M.low lam) r).eval
        (M.loc c.length i)⁻¹ / (Polynomial.derivative (M.low lam)).eval (M.loc c.length i)⁻¹) := by
    intro i
    by_cases hi : i ∈ pos
    · obtain ⟨y, hy⟩ := val_rsMagnitude M h hr hn hS hL (List.mem_toFinset.2 hi)
      exact ⟨y, fun _ => hy⟩
    · exact ⟨0, fun hh => absurd hh hi⟩
  choose mag hmag using hmag
  obtain ⟨e, h1, h2, h3⟩ := rsCorrect_spec (r := r) (n := c.length) (d := polyDegree lam) mag pos c hnd fun i hi => (hmag i hi).1
  have helt : ∀ v ∈ e, v < F.size := by
    intro v hv
    obtain ⟨i, hi⟩ := List.mem_iff_getElem?.1 hv
    rw [h3 i] at hi
    split at hi
    · next hp =>
      obtain ⟨u, hu, rfl⟩ := Option.map_eq_some_iff.1 hi
      exact xor_lt (hc _ (List.mem_of_getElem? hu)) (hmag i hp).2.1
    · exact hc _ (List.mem_of_getElem? hi)
  refine ⟨e, h1, h2, helt, ?_, ?_⟩
  · rw [rsCodeMember_iff M h helt]
    intro j hj
    have hsum := forney (Sx := M.low (rsSyndromes F r c)) (G := M.low lam) (N := r)
      (y := fun i => M.val (mag i)) (x := M.loc c.length) (A := pos.toFinset) (loc_injOn M h hn hL.inside)
      (fun i _ => loc_ne_zero M h _ i) hL.generates hL.roots M.neg_eq
      (fun i hi => (hmag i (List.mem_toFinset.1 hi)).2.2) j hj
    rw [coeff_low, val_rsSyndrome M h hc hj] at hsum
    have hpt : ∀ i ∈ Finset.range c.length, M.val (e.getD i 0) * M.loc c.length i ^ j =
        M.val (c.getD i 0) * M.loc c.length i ^ j + (if i ∈ pos.toFinset then M.val (mag i) * M.loc c.length i ^ j else 0) := by
      intro i hi
      have hi := Finset.mem_range.1 hi
      rw [List.getD_eq_getElem?_getD, h3 i, List.getD_eq_getElem?_getD]
      by_cases hp : i ∈ pos
      · rw [if_pos hp, if_pos (List.mem_toFinset.2 hp), List.getElem?_eq_getElem hi]
        simp only [Option.map_some, Option.getD_some, M.map_xor, add_mul]
      · rw [if_neg hp, if_neg (by simpa using hp), add_zero]
    rw [h2, Finset.sum_congr rfl hpt, Finset.sum_add_distrib, ← Finset.sum_filter,
      show (Finset.range c.length).filter (· ∈ pos.toFinset) = pos.toFinset by
        ext i
        simp only [Finset.mem_filter, Finset.mem_range]
        exact ⟨fun hh => hh.2, fun hh => ⟨hL.inside i hh, hh⟩⟩, ← hsum, M.add_self]
  · rw [← diffSet_card]
    refine le_trans (Finset.card_le_card fun i hi => ?_) hL.few
    by_contra hp
    refine (Finset.mem_filter.1 hi).2 ?_
    rw [h3 i, if_neg (by simpa using hp)]

omit [Field K] in
/-- The RS decoder finds the code word within the capacity (R206). -/
theorem rsDecode_near (h : Built F.m P F.tables) {r : Nat} {c w : List Nat} (hr : 1 ≤ r) (hl : c.length = w.length)
    (hn : c.length ≤ F.order) (hc : ∀ v ∈ c, v < F.size) (hw : ∀ v ∈ w, v < F.size) (hm : rsCodeMember F r w)
    (hd : distance c w ≤ r / 2) :
    (rsCodeMember F r c ∧ rsDecode F r c = .ok (.clean ((w.take (w.length - r)).map symbolByte))) ∨
    (¬ rsCodeMember F r c ∧ rsDecode F r c = .ok (.corrected ((w.take (w.length - r)).map symbolByte))) := by
  obtain ⟨K, _, ⟨M⟩⟩ := exists_model h
  by_cases hcm : rsCodeMember F r c
  · refine .inl ⟨hcm, ?_⟩
    obtain rfl := rsCode_unique h hl hn hc hw hcm hm (by omega)
    simp only [rsDecode]
    rw [if_pos (by simpa [rsCodeMember] using hcm)]
  · refine .inr ⟨hcm, ?_⟩
    have hS := rsSyndromes_lt h hc r
    obtain ⟨lam, hf⟩ := locateErrors_of_sums M h (S := rsSyndromes F r c) (Ns := r) (t := r / 2) hS hn (A := diffSet c w)
      diffSet_inside (by rw [diffSet_card]; exact hd) (by rw [diffSet_card]; omega) (diff_ne_zero M hl hc hw) fun j hj => by
        rw [val_rsSyndrome M h hc hj, diff_sums M hl, (rsCodeMember_iff M h hw).1 hm j hj, add_zero]
    obtain ⟨e, h1, h2, h3, h4, h5⟩ := rsCorrect_member h hr hn hc hf
    have hew : e = w := by
      refine rsCode_unique h (h2.trans hl) (by omega) h3 hw h4 hm ?_
      rw [← diffSet_card]
      refine le_trans (Finset.card_le_card (t := diffSet c e ∪ diffSet c w) fun i hi => ?_)
        (le_trans (Finset.card_union_le _ _) (by rw [diffSet_card, diffSet_card]; omega))
      have hi' := diffSet_inside i hi
      rw [h2] at hi'
      have hne := (Finset.mem_filter.1 hi).2
      rw [Finset.mem_union]
      by_cases hce : (c)[i]? = e[i]?
      · exact .inr (Finset.mem_filter.2 ⟨Finset.mem_range.2 hi', by rw [hce]; exact hne⟩)
      · exact .inl (Finset.mem_filter.2 ⟨Finset.mem_range.2 hi', hce⟩)
    subst hew
    simp only [rsDecode]
    rw [if_neg (by simpa [rsCodeMember] using hcm), hf]
    simp only [h1, h2]

omit [Field K] in
/-- What the RS decoder answers comes from a code word within the capacity (R206). -/
theorem rsDecode_answers (h : Built F.m P F.tables) {r : Nat} {c : List Nat} (hr : 1 ≤ r) (hn : c.length ≤ F.order)
    (hc : ∀ v ∈ c, v < F.size) :
    rsDecode F r c = .ok .uncorrectable ∨
    ∃ w, w.length = c.length ∧ (∀ v ∈ w, v < F.size) ∧ rsCodeMember F r w ∧ distance c w ≤ r / 2 := by
  obtain ⟨K, _, ⟨M⟩⟩ := exists_model h
  obtain ⟨o, hloc⟩ := locateErrors_ok h (rsSyndromes_lt h hc r) (Ns := r) (t := r / 2) (n := c.length)
  by_cases hcm : rsCodeMember F r c
  · refine .inr ⟨c, rfl, hc, hcm, ?_⟩
    simp [distance]
  · cases o with
    | failed =>
      left
      simp only [rsDecode]
      rw [if_neg (by simpa [rsCodeMember] using hcm), hloc]
    | found lam d pos =>
      obtain ⟨e, h1, h2, h3, h4, h5⟩ := rsCorrect_member h hr hn hc hloc
      exact .inr ⟨e, h2, h3, h4, h5⟩

end
end Sys2Proof.Algebra
end

