-- ==== Sys2Proof/Laws/BchCapacity.lean ====
section
/-! SUPPORT. The BCH encoder writes code words (R246) and its decoder is a bounded-distance decoder (R249 to R251). -/

namespace Sys2Proof.Algebra

open Machine (Built xorSum bm locateErrors Located bchSyndrome bchSyndromes bchGenerator bchCode bchDecode bchCodeword
  bchRemainder codeBits bitStream flipBit bitAt bytesMsbFirst bytesFor intDegree distance Decoded divide)
open Polynomial (X C)

section
variable {F : Machine.Field} {P : Nat}

/-- A syndrome is the word's value at a power of alpha (R248). -/
theorem bchSyndrome_eval {F : Machine.Field} {P : ℕ} (h : Built F.m P F.tables) {K : Type} [Field K] (M : Model F P K) (bits : List Bool) (j : ℕ) :
   M.val (bchSyndrome F bits j) = ((bitPoly bits).map M.bitHom).eval (M.root ^ (j + 1)) := by
  rw [bchSyndrome, M.val_xorSum]
  have key : ∀ (l : List Bool) (off n : ℕ), off + l.length = n →
     ((((l.zipIdx off).map fun bi : Bool × ℕ => if bi.1 then F.alpha ((j + 1) * (n - 1 - bi.2)) else 0).map M.val)).sum = ((bitPoly l).map M.bitHom).eval (M.root ^ (j+1)) := by
    intro l
    induction l with
    | nil => intro off n _; simp [bitPoly]
    | cons b l ih =>
      intro off n hn
      rw [List.zipIdx_cons, List.map_cons, List.map_cons, List.sum_cons, ih (off + 1) n (by simp at hn; omega)]
      rw [bitPoly, Polynomial.map_add, Polynomial.eval_add]
      congr 1
      cases b
      · simp
      · have : n - 1 - off = l.length := by simp at hn; omega
        simp [M.val_alpha h, this, pow_mul]
  exact key bits 0 bits.length (by simp)

/-- The generator has positive degree, and its low bits and leading term make it up (R243, R246). -/
theorem gen_degree {F : Machine.Field} {P : ℕ} (h : Built F.m P F.tables) {t : ℕ} (ht1 : 1 ≤ t) (ht : 2 * t ≤ F.order - 1) :
   1 ≤ intDegree (bchGenerator F t) ∧ divisor (intDegree (bchGenerator F t)) (bchGenerator F t % 2 ^ intDegree (bchGenerator F t)) = numPoly (bchGenerator F t) := by
  obtain ⟨K, _, ⟨M⟩⟩ := exists_model h
  obtain ⟨h0, hr⟩ := bchGenerator_root M h ht
  constructor
  · by_contra hc
    have hz : intDegree (bchGenerator F t) = 0 := by omega
    have : bchGenerator F t = 1 := by
      have h1 := Nat.lt_log2_self (n := bchGenerator F t)
      rw [show (bchGenerator F t).log2 = 0 from hz] at h1
      omega
    have hr := hr 1 le_rfl (by omega)
    rw [this] at hr
    simp [Model.num] at hr
  · set g := bchGenerator F t
    ext k
    rw [divisor, Polynomial.coeff_add, Polynomial.coeff_X_pow, coeff_natPoly, coeff_numPoly, Nat.testBit_mod_two_pow]
    have hlt : g < 2 ^ (intDegree g + 1) := Nat.lt_log2_self
    rcases Nat.lt_trichotomy k (intDegree g) with hk | hk | hk
    · simp [hk, Nat.ne_of_lt hk]
    · rw [hk]; simp [intDegree, Nat.testBit_log2 h0]
    · have h1 : ¬ k < intDegree g := by omega
      have h2 : g.testBit k = false := Nat.testBit_lt_two_pow (lt_of_lt_of_le hlt (Nat.pow_le_pow_right (by omega) hk))
      simp [h1, h2]; omega

/-- The code bits of an encoded payload as a polynomial (R244, R246). -/
theorem code_bits (g p : ℕ) (D : List Byte) : 
   bitPoly (codeBits (bchCodeword g p D) (8 * D.length + p)) = bitPoly (bitStream D) * Polynomial.X ^ p + natPoly p (bchRemainder g p D) := by
  have hlt : bchRemainder g p D < 2 ^ p := divide_lt (Nat.mod_lt _ (Nat.two_pow_pos p)) (Nat.two_pow_pos p) _
  set rem := bchRemainder g p D
  have hsplit : codeBits (bchCodeword g p D) (8 * D.length + p) = bitStream D ++ (List.range p).map fun i => rem.testBit (p - 1 - i) := by
    apply List.ext_getElem?
    intro i
    rw [codeBits, List.getElem?_take]
    split
    · next hi =>
      rw [getElem?_bitStream _ (by simp; unfold bytesFor; omega)]
      by_cases hk : i < 8 * D.length
      · rw [List.getElem?_append_left (by simpa using hk), getElem?_bitStream _ hk, bchCodeword, bitAt, bitAt, List.getD_append _ _ _ _ (by omega)]
      · rw [List.getElem?_append_right (by simp; omega), Machine.bitStream_length, List.getElem?_map, List.getElem?_range (by omega)]
        simp only [Option.map_some]
        have : bitAt (bchCodeword g p D) i = bitAt (bytesMsbFirst (bytesFor p) (rem <<< (8 * bytesFor p - p))) (i - 8 * D.length) := by
          rw [bchCodeword, bitAt, bitAt, List.getD_append_right _ _ _ _ (by omega)]
          congr 2; omega
          omega
        rw [this, bitAt_bytes _ _ _ (by unfold bytesFor; omega), Nat.testBit_shiftLeft]
        have h1 : 8 * bytesFor p - 1 - (i - 8 * D.length) ≥ 8 * bytesFor p - p := by unfold bytesFor; omega
        simp only [h1, decide_true, Bool.true_and]
        congr 2; unfold bytesFor; omega
    · next hi =>
      rw [List.getElem?_eq_none]; simp; omega
  rw [hsplit, bitPoly_append, List.length_map, List.length_range]
  congr 1
  have : ∀ (p rem : ℕ), bitPoly ((List.range p).map fun i => rem.testBit (p - 1 - i)) = natPoly p rem := by
    intro p rem
    induction p with
    | zero => simp [bitPoly, natPoly]
    | succ p ih =>
      rw [List.range_succ_eq_map, List.map_cons, bitPoly, List.length_map, List.length_map, List.length_range, List.map_map]
      have : ((fun i => rem.testBit (p + 1 - 1 - i)) ∘ Nat.succ) = fun i => rem.testBit (p - 1 - i) := by
        funext i; simp only [Function.comp]; congr 1; omega
      rw [this, ih, natPoly, natPoly, Finset.sum_range_succ, add_comm]
      simp
  exact this p rem


/-- The code bits `BCH.ENC` writes are a word of `BCode(N)` (R246). -/
theorem bchCodeword_member (h : Built F.m P F.tables) {t : Nat} (ht1 : 1 ≤ t) (ht : 2 * t ≤ F.order - 1) (D : List Byte) :
    bchCode (bchGenerator F t) (codeBits (bchCodeword (bchGenerator F t) (intDegree (bchGenerator F t)) D)
      (8 * D.length + intDegree (bchGenerator F t))) := by
  obtain ⟨h1, hdiv⟩ := gen_degree h ht1 ht
  rw [bchCode_iff_dvd, code_bits]
  have hdv := divide_poly (poly := bchGenerator F t % 2 ^ intDegree (bchGenerator F t))
    (n := intDegree (bchGenerator F t)) h1 (bitStream D) 0
  have hn0 : natPoly (intDegree (bchGenerator F t)) 0 = 0 := by ext k; simp [coeff_natPoly]
  rw [hn0, zero_mul, zero_add, hdiv, add_comm] at hdv
  exact hdv

section
variable {K : Type} [Field K] (M : Model F P K)

/-- Bits as elements. -/
def bitWord (w : List Bool) : List Nat := w.map Bool.toNat

theorem bitWord_lt (h : Built F.m P F.tables) (w : List Bool) : ∀ v ∈ bitWord w, v < F.size := by
  intro v hv
  obtain ⟨b, -, rfl⟩ := List.mem_map.1 hv
  have := one_lt_size h
  cases b <;> simp <;> omega

theorem bitWord_length (w : List Bool) : (bitWord w).length = w.length := List.length_map _

theorem bitWord_getElem? (w : List Bool) (i : Nat) : (bitWord w)[i]? = (w[i]?).map Bool.toNat := List.getElem?_map

theorem bitWord_ne (a b : List Bool) (i : Nat) : (bitWord a)[i]? = (bitWord b)[i]? ↔ a[i]? = b[i]? := by
  rw [bitWord_getElem?, bitWord_getElem?]
  constructor
  · intro h
    refine Option.map_injective (fun x y hxy => ?_) h
    cases x <;> cases y <;> simp_all
  · intro h; rw [h]

theorem bitWord_distance (a b : List Bool) : distance (bitWord a) (bitWord b) = distance a b := by
  rw [distance, distance, bitWord_length]
  congr 1
  exact List.filter_congr fun i _ => by rw [decide_eq_decide, not_iff_not, bitWord_ne]

include M in
theorem bitPoly_map (w : List Bool) : (bitPoly w).map M.bitHom = M.poly (bitWord w) := by
  induction w with
  | nil => simp [bitPoly, Model.poly, polyHigh, bitWord]
  | cons b w ih =>
    rw [bitPoly, Polynomial.map_add, ih, show bitWord (b :: w) = b.toNat :: bitWord w from rfl, Model.poly, Model.poly,
      List.map_cons, polyHigh]
    cases b <;> simp [bitWord]

/-- The value of a binary word at a power of alpha (R248). -/
theorem bitPoly_eval_root (w : List Bool) (i : Nat) : ((bitPoly w).map M.bitHom).eval (M.root ^ i) =
    ∑ k ∈ Finset.range w.length, M.val ((bitWord w).getD k 0) * M.loc w.length k ^ i := by
  rw [bitPoly_map M, poly_eval_root, bitWord_length]

theorem bchSyndromes_lt (h : Built F.m P F.tables) (t : Nat) (w : List Bool) : ∀ v ∈ bchSyndromes F t w, v < F.size := by
  intro v hv
  obtain ⟨j, -, rfl⟩ := List.mem_map.1 hv
  refine xorSum_lt fun v hv => ?_
  obtain ⟨b, -, rfl⟩ := List.mem_map.1 hv
  split
  · exact alpha_lt h _
  · exact size_pos F

theorem val_bchSyndromes (h : Built F.m P F.tables) {t j : Nat} (hj : j < 2 * t) (w : List Bool) :
    M.val ((bchSyndromes F t w).getD j 0) =
      ∑ k ∈ Finset.range w.length, M.val ((bitWord w).getD k 0) * M.loc w.length k ^ (j + 1) := by
  have : (bchSyndromes F t w).getD j 0 = bchSyndrome F w j := by
    simp [bchSyndromes, List.getD_eq_getElem?_getD, hj]
  rw [this, bchSyndrome_eval h M, bitPoly_eval_root]

theorem bchCode_iff_sums (h : Built F.m P F.tables) {t : Nat} (ht : 2 * t ≤ F.order - 1) {w : List Bool} :
    bchCode (bchGenerator F t) w ↔ ∀ j < 2 * t,
      ∑ k ∈ Finset.range w.length, M.val ((bitWord w).getD k 0) * M.loc w.length k ^ (j + 1) = 0 := by
  rw [bchCode_iff_roots M h ht]
  simp only [bitPoly_eval_root]
  constructor
  · exact fun hh j hj => hh (j + 1) (by omega) (by omega)
  · intro hh i h1 h2
    obtain ⟨j, rfl⟩ : ∃ j, i = j + 1 := ⟨i - 1, by omega⟩
    exact hh j (by omega)

omit [Field K] in
/-- A word is in the code exactly when its syndromes are zero (R248). -/
theorem bchCode_iff_syndromes (h : Built F.m P F.tables) {t : Nat} (ht : 2 * t ≤ F.order - 1) {w : List Bool} :
    bchCode (bchGenerator F t) w ↔ ∀ v ∈ bchSyndromes F t w, v = 0 := by
  obtain ⟨K, _, ⟨M⟩⟩ := exists_model h
  rw [bchCode_iff_sums M h ht]
  constructor
  · intro hz v hv
    obtain ⟨j, hj, rfl⟩ := List.mem_iff_getElem.1 hv
    have hj' : j < 2 * t := by simpa [bchSyndromes] using hj
    have := hz j hj'
    rw [← val_bchSyndromes M h hj', List.getD_eq_getElem _ _ hj, M.val_eq_zero (bchSyndromes_lt h t w _ hv)] at this
    exact this
  · intro hz j hj
    rw [← val_bchSyndromes M h hj]
    have : (bchSyndromes F t w).getD j 0 ∈ bchSyndromes F t w := by
      rw [List.getD_eq_getElem _ _ (by simpa [bchSyndromes] using hj)]; exact List.getElem_mem _
    rw [hz _ this, M.val_zero]

omit [Field K] in
/-- Code words at most `2t` positions apart are equal (R251). -/
theorem bchCode_unique (h : Built F.m P F.tables) {t : Nat} (ht : 2 * t ≤ F.order - 1) {c w : List Bool}
    (hl : c.length = w.length) (hn : c.length ≤ F.order) (h1 : bchCode (bchGenerator F t) c)
    (h2 : bchCode (bchGenerator F t) w) (hd : distance c w ≤ 2 * t) : c = w := by
  obtain ⟨K, _, ⟨M⟩⟩ := exists_model h
  rw [bchCode_iff_sums M h ht] at h1 h2
  have hl' : (bitWord c).length = (bitWord w).length := by rw [bitWord_length, bitWord_length, hl]
  have hA : ∀ i ∈ diffSet (bitWord c) (bitWord w), i < c.length := fun i hi => by
    have := diffSet_inside i hi; rwa [bitWord_length] at this
  have := powerSums_unique (N := 2 * t) (A := diffSet (bitWord c) (bitWord w)) (x := M.loc c.length)
    (y := fun i => (M.val ((bitWord c).getD i 0) + M.val ((bitWord w).getD i 0)) * M.loc c.length i)
    (loc_injOn M h hn hA) (by rw [diffSet_card, bitWord_distance]; exact hd) fun j hj => by
      have := diff_sums M hl' (j + 1)
      rw [bitWord_length, bitWord_length, h1 j hj, h2 j hj, add_zero] at this
      rw [← this]
      exact Finset.sum_congr rfl fun i _ => by rw [pow_succ]; ring
  refine List.ext_getElem? fun i => ?_
  by_contra hne
  by_cases hi : i < c.length
  · have hi' : i ∈ diffSet (bitWord c) (bitWord w) := Finset.mem_filter.2
      ⟨Finset.mem_range.2 (by rwa [bitWord_length]), fun he => hne ((bitWord_ne c w i).1 he)⟩
    exact diff_ne_zero M hl' (bitWord_lt h c) (bitWord_lt h w) i hi'
      ((mul_eq_zero.1 (this i hi')).resolve_right (loc_ne_zero M h _ i))
  · rw [List.getElem?_eq_none (by omega), List.getElem?_eq_none (by omega)] at hne
    exact hne rfl

/-- Flip the bits at the given positions. -/
def flipBits (pos : List Nat) (w : List Bool) : List Bool := pos.foldl (fun w i => w.modify i not) w

theorem flipBits_length (pos : List Nat) (w : List Bool) : (flipBits pos w).length = w.length := by
  induction pos generalizing w with
  | nil => rfl
  | cons a pos ih => rw [flipBits, List.foldl_cons]; exact (ih _).trans (List.length_modify ..)

theorem flipBits_getElem? {pos : List Nat} (hn : pos.Nodup) (w : List Bool) (i : Nat) :
    (flipBits pos w)[i]? = if i ∈ pos then (w[i]?).map not else w[i]? := by
  induction pos generalizing w with
  | nil => simp [flipBits]
  | cons a pos ih =>
    rw [flipBits, List.foldl_cons]
    rw [show List.foldl (fun w i => w.modify i not) (w.modify a not) pos = flipBits pos (w.modify a not) from rfl,
      ih (List.nodup_cons.1 hn).2, List.getElem?_modify]
    have ha := (List.nodup_cons.1 hn).1
    by_cases hia : a = i
    · subst hia; simp [ha]
    · have : i ≠ a := fun hh => hia hh.symm
      simp [hia, this]

/-- Flipping located bits of the bytes flips them in the code bits (R249). -/
theorem codeBits_flip (pos : List Nat) (D : List Byte) (N : Nat) :
    codeBits (pos.foldl flipBit D) N = flipBits pos (codeBits D N) := by
  induction pos generalizing D with
  | nil => rfl
  | cons a pos ih =>
    rw [List.foldl_cons, ih, flipBits, flipBits, List.foldl_cons, codeBits, bitStream_flip, List.take_modify]
    rfl

omit [Field K] in
/-- A located pattern, flipped, is a code word within the capacity (R249, R251). -/
theorem flipBits_member (h : Built F.m P F.tables) {t : Nat} (ht : 2 * t ≤ F.order - 1) {w : List Bool}
    (hn : w.length ≤ F.order) {lam pos : List Nat} {d : Nat}
    (hf : locateErrors F (bchSyndromes F t w) (2 * t) t w.length = .ok (.found lam d pos)) :
    bchCode (bchGenerator F t) (flipBits pos w) ∧ distance w (flipBits pos w) ≤ t := by
  classical
  obtain ⟨K, _, ⟨M⟩⟩ := exists_model h
  have := M.charP
  obtain ⟨rfl, hL, hnd⟩ := locateErrors_found M h (bchSyndromes_lt h t w) hf
  set n := w.length with hnw
  have hx0 : ∀ i, M.loc n i ≠ 0 := loc_ne_zero M h n
  have hinj := loc_injOn M h hn hL.inside
  let y : Nat → K := fun i => M.loc n i * ((evaluator (M.low (bchSyndromes F t w)) (M.low lam) (2 * t)).eval (M.loc n i)⁻¹ /
    (Polynomial.derivative (M.low lam)).eval (M.loc n i)⁻¹)
  have hsum := forney (y := y) hinj (fun i _ => hx0 i) hL.generates hL.roots M.neg_eq fun i _ => rfl
  have hy0 := weights_ne_zero (fun i _ => hx0 i) hsum hL.shortest
  let z : Nat → K := fun i => y i * (M.loc n i)⁻¹
  have hyz : ∀ i, y i = z i * M.loc n i := fun i => by simp only [z]; rw [inv_mul_cancel_right₀ (hx0 i)]
  -- syndromes as power sums of the received bits, and their squares
  have hS : ∀ j < 2 * t, ∑ k ∈ Finset.range n, M.val ((bitWord w).getD k 0) * M.loc n k ^ (j + 1) =
      ∑ i ∈ pos.toFinset, z i * M.loc n i ^ (j + 1) := by
    intro j hj
    rw [hnw, ← val_bchSyndromes M h hj w, ← coeff_low, hsum j hj]
    exact Finset.sum_congr rfl fun i _ => by rw [hyz, pow_succ]; ring
  have hbit : ∀ k, M.val ((bitWord w).getD k 0) ^ 2 = M.val ((bitWord w).getD k 0) := by
    intro k
    rw [List.getD_eq_getElem?_getD, bitWord_getElem?]
    rcases w[k]? with _ | b
    · simp
    · cases b <;> simp
  have hsq : ∀ j < t, ∑ i ∈ pos.toFinset, (z i ^ 2 + z i) * (M.loc n i ^ 2) * (M.loc n i ^ 2) ^ j = 0 := by
    intro j hj
    have h1 := congrArg (frobenius K 2) (hS j (by omega))
    have h2 := hS (2 * j + 1) (by omega)
    rw [map_sum, map_sum] at h1
    simp only [frobenius_def, mul_pow, hbit, ← pow_mul] at h1
    rw [show 2 * j + 1 + 1 = (j + 1) * 2 by omega, h1] at h2
    have h3 := M.add_self (∑ i ∈ pos.toFinset, z i * M.loc n i ^ ((j + 1) * 2))
    nth_rw 1 [← h2] at h3
    rw [← Finset.sum_add_distrib] at h3
    rw [← h3]
    refine Finset.sum_congr rfl fun i _ => ?_
    rw [← pow_mul, show (j + 1) * 2 = 2 + 2 * j by omega, pow_add]; ring
  have hz1 : ∀ i ∈ pos.toFinset, z i = 1 := by
    have hu := powerSums_unique (N := t) (A := pos.toFinset) (x := fun i => M.loc n i ^ 2)
      (y := fun i => (z i ^ 2 + z i) * M.loc n i ^ 2) (fun a ha b hb hab => hinj ha hb (by
        have : frobenius K 2 (M.loc n a) = frobenius K 2 (M.loc n b) := hab
        exact frobenius_inj K 2 this)) hL.few hsq
    intro i hi
    have h1 := (mul_eq_zero.1 (hu i hi)).resolve_right (pow_ne_zero _ (hx0 i))
    have hzi : z i ≠ 0 := mul_ne_zero (hy0 i hi) (inv_ne_zero (hx0 i))
    rw [pow_two, ← mul_add_one, mul_eq_zero] at h1
    have := h1.resolve_left hzi
    rw [← M.sub_eq, sub_eq_zero] at this
    exact this
  constructor
  · rw [bchCode_iff_sums M h ht]
    intro j hj
    have hpt : ∀ k ∈ Finset.range n, M.val ((bitWord (flipBits pos w)).getD k 0) * M.loc n k ^ (j + 1) =
        M.val ((bitWord w).getD k 0) * M.loc n k ^ (j + 1) + (if k ∈ pos.toFinset then M.loc n k ^ (j + 1) else 0) := by
      intro k hk
      have hk := Finset.mem_range.1 hk
      rw [List.getD_eq_getElem?_getD, bitWord_getElem?, flipBits_getElem? hnd, List.getD_eq_getElem?_getD, bitWord_getElem?]
      by_cases hp : k ∈ pos
      · rw [if_pos hp, if_pos (List.mem_toFinset.2 hp), List.getElem?_eq_getElem hk]
        cases w[k] <;> simp [M.add_self]
      · rw [if_neg hp, if_neg (by simpa using hp), add_zero]
    rw [flipBits_length, ← hnw, Finset.sum_congr rfl hpt, Finset.sum_add_distrib, ← Finset.sum_filter,
      show (Finset.range n).filter (· ∈ pos.toFinset) = pos.toFinset by
        ext i
        simp only [Finset.mem_filter, Finset.mem_range]
        exact ⟨fun hh => hh.2, fun hh => ⟨hL.inside i hh, hh⟩⟩, hS j hj,
      Finset.sum_congr rfl fun i hi => by rw [hz1 i hi, one_mul], M.add_self]
  · rw [← bitWord_distance, ← diffSet_card]
    refine le_trans (Finset.card_le_card fun i hi => ?_) hL.few
    by_contra hp
    refine (Finset.mem_filter.1 hi).2 ?_
    rw [bitWord_ne, flipBits_getElem? hnd, if_neg (by simpa using hp)]

omit [Field K] in
/-- The BCH decoder finds the code word within the capacity (R251). -/
theorem bchDecode_near (h : Built F.m P F.tables) {t p k : Nat} (ht : 2 * t ≤ F.order - 1) {D : List Byte} {w : List Bool}
    (hD : 8 * k + p ≤ 8 * D.length) (hl : w.length = 8 * k + p) (hn : 8 * k + p ≤ F.order)
    (hm : bchCode (bchGenerator F t) w) (hd : distance (codeBits D (8 * k + p)) w ≤ t) :
    ∃ out : List Byte, out.length = k ∧ bitStream out = w.take (8 * k) ∧
    ((bchCode (bchGenerator F t) (codeBits D (8 * k + p)) ∧ bchDecode F t p k D = .ok (.clean out)) ∨
    (¬ bchCode (bchGenerator F t) (codeBits D (8 * k + p)) ∧ bchDecode F t p k D = .ok (.corrected out))) := by
  obtain ⟨K, _, ⟨M⟩⟩ := exists_model h
  have hcl : (codeBits D (8 * k + p)).length = 8 * k + p := by simp [codeBits]; omega
  set c := codeBits D (8 * k + p) with hc
  have hout : ∀ E : List Byte, E.length = D.length → codeBits E (8 * k + p) = w →
      (E.take k).length = k ∧ bitStream (E.take k) = w.take (8 * k) := by
    intro E hE hEw
    refine ⟨by simp; omega, ?_⟩
    rw [bitStream_take, ← hEw, codeBits, List.take_take, min_eq_left (by omega)]
  by_cases hcm : bchCode (bchGenerator F t) c
  · have hcw := bchCode_unique h ht (hcl.trans hl.symm) (by omega) hcm hm (by omega)
    refine ⟨D.take k, (hout D rfl (hc ▸ hcw)).1, (hout D rfl (hc ▸ hcw)).2, .inl ⟨hcm, ?_⟩⟩
    simp only [bchDecode]
    rw [if_pos]
    simpa [← hc] using (bchCode_iff_syndromes h ht).1 hcm
  · have hS := bchSyndromes_lt h t c
    have hl' : (bitWord c).length = (bitWord w).length := by rw [bitWord_length, bitWord_length, hcl, hl]
    have hcb : (bitWord c).length = 8 * k + p := by rw [bitWord_length, hcl]
    have hwb : (bitWord w).length = 8 * k + p := by rw [bitWord_length, hl]
    obtain ⟨lam, hf⟩ := locateErrors_of_sums M h (S := bchSyndromes F t c) (Ns := 2 * t) (t := t) (n := 8 * k + p) hS hn
      (A := diffSet (bitWord c) (bitWord w)) (fun i hi => hcb ▸ diffSet_inside i hi)
      (by rw [diffSet_card, bitWord_distance]; exact hd) (by rw [diffSet_card, bitWord_distance]; omega)
      (y := fun i => (M.val ((bitWord c).getD i 0) + M.val ((bitWord w).getD i 0)) * M.loc (8 * k + p) i)
      (fun i hi => mul_ne_zero (diff_ne_zero M hl' (bitWord_lt h c) (bitWord_lt h w) i hi) (loc_ne_zero M h _ i))
      fun j hj => by
        have h1 := diff_sums M hl' (j + 1)
        have h2 := (bchCode_iff_sums M h ht).1 hm j hj
        rw [hl] at h2
        rw [hcb, hwb, h2, add_zero] at h1
        rw [val_bchSyndromes M h hj, hcl, ← h1]
        exact Finset.sum_congr rfl fun i _ => by rw [pow_succ]; ring
    obtain ⟨f1, f2⟩ := flipBits_member h ht (by rw [hcl]; exact hn) (by rw [hcl]; exact hf)
    generalize (List.range (8 * k + p)).filter (fun i => decide (i ∈ diffSet (bitWord c) (bitWord w))) = pos at hf f1 f2
    have hfw : flipBits pos c = w := by
      refine bchCode_unique h ht ((flipBits_length _ _).trans (hcl.trans hl.symm)) (by rw [flipBits_length, hcl]; exact hn) f1 hm ?_
      rw [← bitWord_distance, ← diffSet_card]
      rw [← bitWord_distance, ← diffSet_card] at f2 hd
      refine le_trans (Finset.card_le_card (t := diffSet (bitWord c) (bitWord (flipBits pos c)) ∪ diffSet (bitWord c) (bitWord w))
        fun i hi => ?_) (le_trans (Finset.card_union_le _ _) (by omega))
      have hi' := diffSet_inside i hi
      rw [bitWord_length, flipBits_length, ← bitWord_length] at hi'
      have hne := (Finset.mem_filter.1 hi).2
      rw [Finset.mem_union]
      by_cases hce : (bitWord c)[i]? = (bitWord (flipBits pos c))[i]?
      · exact .inr (Finset.mem_filter.2 ⟨Finset.mem_range.2 hi', by rw [hce]; exact hne⟩)
      · exact .inl (Finset.mem_filter.2 ⟨Finset.mem_range.2 hi', hce⟩)
    have hlen : ∀ (pos : List Nat) (D : List Byte), (pos.foldl flipBit D).length = D.length := by
      intro pos
      induction pos with
      | nil => intro D; rfl
      | cons a pos ih => intro D; rw [List.foldl_cons, ih]; exact List.length_modify ..
    obtain ⟨o1, o2⟩ := hout (pos.foldl flipBit D) (hlen _ _) ((codeBits_flip _ _ _).trans hfw)
    refine ⟨_, o1, o2, .inr ⟨hcm, ?_⟩⟩
    simp only [bchDecode]
    rw [if_neg, ← hc, hf]
    rw [← hc]
    simpa using fun hh => hcm ((bchCode_iff_syndromes h ht).2 hh)

omit [Field K] in
/-- What the BCH decoder answers comes from a code word within the capacity (R251). -/
theorem bchDecode_answers (h : Built F.m P F.tables) {t p k : Nat} (ht : 2 * t ≤ F.order - 1) {D : List Byte}
    (hD : 8 * k + p ≤ 8 * D.length) (hn : 8 * k + p ≤ F.order) :
    bchDecode F t p k D = .ok .uncorrectable ∨
    ∃ w : List Bool, w.length = 8 * k + p ∧ bchCode (bchGenerator F t) w ∧ distance (codeBits D (8 * k + p)) w ≤ t := by
  have hcl : (codeBits D (8 * k + p)).length = 8 * k + p := by simp [codeBits]; omega
  by_cases hcm : bchCode (bchGenerator F t) (codeBits D (8 * k + p))
  · refine .inr ⟨_, hcl, hcm, ?_⟩
    simp [distance]
  · obtain ⟨o, hloc⟩ := locateErrors_ok h (bchSyndromes_lt h t (codeBits D (8 * k + p))) (Ns := 2 * t) (t := t) (n := 8 * k + p)
    cases o with
    | failed =>
      left
      simp only [bchDecode]
      rw [if_neg, hloc]
      simpa using fun hh => hcm ((bchCode_iff_syndromes h ht).2 hh)
    | found lam d pos =>
      obtain ⟨f1, f2⟩ := flipBits_member h ht (by rw [hcl]; exact hn) (by rw [hcl]; exact hloc)
      exact .inr ⟨_, (flipBits_length _ _).trans hcl, f1, f2⟩

end
end
end Sys2Proof.Algebra
end

