-- ==== Sys2Proof/Laws/CrcCriterion.lean ====
section
/-! SUPPORT. When a CRC error pattern goes undetected (R166): divisibility by the generator as polynomials, and the remainder
it is about. -/

namespace Sys2Proof.Algebra

open Machine (divide bitStream streamNumber polyDivides)
open Polynomial (X)

theorem streamNumber_eq_zero {D : List Byte} (h : streamNumber D = 0) : bitPoly (bitStream D) = 0 := by
  rw [← numPoly_bits, show Machine.bitsNumber ((bitStream D).map Bool.toNat) = 0 from h, numPoly_zero]

theorem polyDivides_iff {g a : Nat} : polyDivides g a ↔ numPoly g ∣ numPoly a := by
  constructor
  · rintro ⟨q, rfl⟩
    rw [numPoly_clmul]
    exact dvd_mul_left _ _
  · rintro ⟨f, hf⟩
    obtain ⟨q, hq, hqf⟩ := natPoly_surjective (m := f.natDegree + 1) (f := f)
      (lt_of_le_of_lt Polynomial.degree_le_natDegree (by exact_mod_cast Nat.lt_succ_self _))
    refine ⟨q, numPoly_injective ?_⟩
    rw [numPoly_clmul, hf, ← hqf, natPoly_eq_numPoly hq, mul_comm]

theorem numPoly_generator {n poly : Nat} (hp : poly < 2 ^ n) : numPoly (2 ^ n ^^^ poly) = divisor n poly := by
  rw [numPoly_xor, divisor, natPoly_eq_numPoly hp]
  congr 1
  have := numPoly_shiftLeft 1 n
  rwa [numPoly_one, one_mul, Nat.one_shiftLeft] at this

theorem numPoly_degree_lt {n r : Nat} (hr : r < 2 ^ n) : (numPoly r).degree < n := by
  rw [Polynomial.degree_lt_iff_coeff_zero]
  intro k hk
  rw [coeff_numPoly, Nat.testBit_lt_two_pow (lt_of_lt_of_le hr (Nat.pow_le_pow_right (by omega) hk))]
  rfl

theorem divisor_degree {n poly : Nat} (hp : poly < 2 ^ n) : (divisor n poly).degree = n := by
  rw [divisor, natPoly_eq_numPoly hp, Polynomial.degree_add_eq_left_of_degree_lt]
  · exact Polynomial.degree_X_pow n
  · rw [Polynomial.degree_X_pow]; exact numPoly_degree_lt hp

/-- The plain remainder of a stream is `r` exactly when `G(x)` divides `E(x) * x^n + r(x)` (R166, R169). -/
theorem divide_eq_iff {n poly r : Nat} (hn : 1 ≤ n) (hp : poly < 2 ^ n) (hr : r < 2 ^ n) (E : List Byte) :
    divide n poly 0 (bitStream E) = r ↔ polyDivides (2 ^ n ^^^ poly) (streamNumber E <<< n ^^^ r) := by
  have hR : divide n poly 0 (bitStream E) < 2 ^ n := divide_lt hp (Nat.two_pow_pos n) _
  have hd := divide_poly (poly := poly) hn (bitStream E) 0
  rw [natPoly_eq_numPoly hR, natPoly_eq_numPoly (Nat.two_pow_pos n), numPoly_zero, zero_mul, zero_add] at hd
  rw [polyDivides_iff, numPoly_generator hp, numPoly_xor, numPoly_shiftLeft,
    show numPoly (streamNumber E) = bitPoly (bitStream E) from numPoly_bits _]
  generalize divide n poly 0 (bitStream E) = R at hR hd ⊢
  constructor
  · rintro rfl
    rwa [add_comm]
  · intro h
    have hsum : numPoly R + bitPoly (bitStream E) * X ^ n + (bitPoly (bitStream E) * X ^ n + numPoly r) =
        numPoly (R ^^^ r) := by
      rw [numPoly_xor]
      linear_combination double_eq_zero (bitPoly (bitStream E) * X ^ n)
    have h0 := Polynomial.eq_zero_of_dvd_of_degree_lt (hsum ▸ dvd_add hd h)
      (by rw [divisor_degree hp]; exact numPoly_degree_lt (Nat.xor_lt_two_pow hR hr))
    have : R ^^^ r = 0 := by
      by_contra hne
      exact numPoly_ne_zero hne h0
    simpa using this

/-- With `poly[0]` = 1 the factor `x^n` does not matter to divisibility by `G(x)` (R166). -/
theorem polyDivides_shift {n poly a : Nat} (hn : 1 ≤ n) (h1 : poly % 2 = 1) :
    polyDivides (2 ^ n ^^^ poly) (a <<< n) ↔ polyDivides (2 ^ n ^^^ poly) a := by
  rw [polyDivides_iff, polyDivides_iff, numPoly_shiftLeft]
  refine ⟨fun h => IsCoprime.dvd_of_dvd_mul_right (IsCoprime.pow_right ?_) h, fun h => h.mul_right _⟩
  refine ((Polynomial.prime_X.coprime_iff_not_dvd).2 fun hX => ?_).symm
  have := Polynomial.X_dvd_iff.1 hX
  rw [coeff_numPoly, Nat.testBit_xor, Nat.testBit_two_pow_of_ne (by omega)] at this
  simp [Nat.testBit_zero, h1] at this

end Sys2Proof.Algebra
end

