-- ==== Sys2Proof/Laws/PerInstr.lean ====
section
/-! SUPPORT. Statements made per command: the fields of each command's word (R90, R91, R92). -/

namespace Sys2Proof.Laws.Encoding

/-- The word of a command has no bit set above its unit and function, and those two fields are the command's own. -/
def Statement (i : Instr) : Prop :=
  fieldZero (encode i) = 0 ∧ fieldUnit (encode i) = i.unit ∧ fieldFn (encode i) = i.fn ∧ i.unit < 4 ∧ i.fn < 7

theorem gfBuild : Statement .gfBuild := by unfold Statement; decide
theorem gfMul : Statement .gfMul := by unfold Statement; decide
theorem gfInv : Statement .gfInv := by unfold Statement; decide
theorem gfPow : Statement .gfPow := by unfold Statement; decide
theorem gfLog : Statement .gfLog := by unfold Statement; decide
theorem gfAlog : Statement .gfAlog := by unfold Statement; decide
theorem crcCfg : Statement .crcCfg := by unfold Statement; decide
theorem crcEnc : Statement .crcEnc := by unfold Statement; decide
theorem crcDec : Statement .crcDec := by unfold Statement; decide
theorem rsCfg : Statement .rsCfg := by unfold Statement; decide
theorem rsEnc : Statement .rsEnc := by unfold Statement; decide
theorem rsDec : Statement .rsDec := by unfold Statement; decide
theorem bchCfg : Statement .bchCfg := by unfold Statement; decide
theorem bchEnc : Statement .bchEnc := by unfold Statement; decide
theorem bchDec : Statement .bchDec := by unfold Statement; decide

end Sys2Proof.Laws.Encoding
end

