-- ==== Sys2Proof/Laws/RsCode.lean ====
section
/-! SUPPORT. The RS code words are the encoder's outputs (R192, R194, R206). -/

namespace Sys2Proof.Algebra

open Machine (Built rsGenerator rsParity rsParityStep rsCodeword rsCode rsCodeMember symbols symbolByte distance rsGenerator_length
  rsParityStep_length rsParity_length)
open Polynomial (X C)

section
theorem mulRoot_head {F : Machine.Field} {g : List Nat} {a : Nat} (h : g.head? = some 1) : (F.mulRoot g a).head? = some 1 := by
  cases g with
  | nil => simp at h
  | cons x l => simp at h; subst h; simp [Machine.Field.mulRoot]

theorem polyOfRoots_head {F : Machine.Field} (roots : List Nat) : (F.polyOfRoots roots).head? = some 1 := by
  have : ∀ g : List Nat, g.head? = some 1 → (roots.foldl F.mulRoot g).head? = some 1 := by
    induction roots with
    | nil => intro g h; exact h
    | cons a l ih => intro g h; exact ih _ (mulRoot_head h)
  exact this [1] rfl

/-- The generator is monic of degree `r`, with symbols for coefficients (R192). -/
theorem rsGen_facts {F : Machine.Field} {P} (h : Built F.m P F.tables) (r : Nat) :
   (rsGenerator F r).length = r + 1 ∧ (rsGenerator F r).head? = some 1 ∧ (∀ c ∈ rsGenerator F r, c < F.size) := by
  refine ⟨by simp, polyOfRoots_head _, ?_⟩
  obtain ⟨K, _, ⟨M⟩⟩ := exists_model h
  refine (M.poly_polyOfRoots h ?_).1
  intro v hv
  obtain ⟨j, -, rfl⟩ := List.mem_map.1 hv
  exact alpha_lt h _

/-- The parity has symbols for values and completes the payload to a multiple of the generator (R194). -/
theorem parity_facts {F : Machine.Field} {P} (h : Built F.m P F.tables) {K : Type} [Field K] (M : Model F P K) {r : Nat} (hr : 1 ≤ r)
   {u : List Nat} (hu : ∀ v ∈ u, v < F.size) :
   (∀ v ∈ rsParity F (rsGenerator F r) r u, v < F.size) ∧
   M.poly (rsGenerator F r) ∣ M.poly u * X ^ r + M.poly (rsParity F (rsGenerator F r) r u) := by
  obtain ⟨hl, hh, hlt⟩ := rsGen_facts h r
  have key : ∀ (u w par : List Nat), (∀ v ∈ u, v < F.size) → par.length = r → (∀ v ∈ par, v < F.size) →
     M.poly (rsGenerator F r) ∣ M.poly w * X ^ r + M.poly par →
     (∀ v ∈ u.foldl (rsParityStep F (rsGenerator F r)) par, v < F.size) ∧
     M.poly (rsGenerator F r) ∣ M.poly (w ++ u) * X ^ r + M.poly (u.foldl (rsParityStep F (rsGenerator F r)) par) := by
    intro u
    induction u with
    | nil => intro w par _ h1 h2 h3; exact ⟨h2, by simpa using h3⟩
    | cons a u ih =>
      intro w par hu h1 h2 h3
      obtain ⟨h4, h5⟩ := M.poly_rsParityStep h hr hl hh hlt h1 h2 (hu a List.mem_cons_self)
      have := ih (w ++ [a]) (rsParityStep F (rsGenerator F r) par a) (fun v hv => hu v (List.mem_cons_of_mem _ hv))
        (rsParityStep_length hl h1 hr a) h4 ?_
      · simpa using this
      · rw [h5]
        have : M.poly (w ++ [a]) = M.poly w * X + C (M.val a) := by
          simp [Model.poly, polyHigh_concat]
        rw [this]
        have hdouble : ∀ f : Polynomial K, f + f = 0 := by
          intro f; rw [← two_mul, show (2 : Polynomial K) = C 2 from (map_ofNat C 2).symm, M.char_two]; simp
        obtain ⟨q, hq⟩ := h3
        refine ⟨X * q + C (M.val a + M.val (par.headD 0)), ?_⟩
        linear_combination X * hq + hdouble (C (M.val a) * X ^ r)
  have := key u [] (List.replicate r 0) hu (by simp) (by intro v hv; rw [(List.mem_replicate.1 hv).2]; exact size_pos F) ?_
  · simpa [rsParity] using this
  · have hz : ∀ r, M.poly (List.replicate r 0) = 0 := by
      intro r
      induction r with
      | zero => simp [Model.poly, polyHigh]
      | succ r ih => simp only [Model.poly, List.replicate_succ, List.map_cons, polyHigh] at ih ⊢; rw [ih]; simp
    rw [hz]; simp [Model.poly, polyHigh]

/-- The symbols of an encoded payload (R195). -/
theorem sym_codeword {F : Machine.Field} {P} (h : Built F.m P F.tables) (hm : F.m ≤ 8) {r : Nat} (hr : 1 ≤ r) {D : List Byte} (hD : ∀ b ∈ D, b.toNat < F.size) :
   symbols (rsCodeword F (rsGenerator F r) r D) = symbols D ++ rsParity F (rsGenerator F r) r (symbols D) := by
  obtain ⟨K, _, ⟨M⟩⟩ := exists_model h
  have hu : ∀ v ∈ symbols D, v < F.size := by intro v hv; obtain ⟨b, hb, rfl⟩ := List.mem_map.1 hv; exact hD b hb
  have hp := (parity_facts h M hr hu).1
  have : ∀ l : List Nat, (∀ v ∈ l, v < F.size) → symbols (l.map symbolByte) = l := by
    intro l hl
    rw [symbols, List.map_map]
    conv_rhs => rw [← List.map_id l]
    refine List.map_congr_left fun v hv => ?_
    have := hl v hv
    have h2 : F.size ≤ 2 ^ 8 := Nat.pow_le_pow_right (by omega) hm
    simp [symbolByte]; omega
  rw [rsCodeword, symbols, List.map_append]
  exact congrArg _ (this _ hp)


/-- An encoded payload is a code word (R194, R206). -/
theorem rsCodeword_member {F : Machine.Field} {P} (h : Built F.m P F.tables) (hm : F.m ≤ 8) {r : Nat} (hr : 1 ≤ r)
    {D : List Byte} (hD : ∀ b ∈ D, b.toNat < F.size) : rsCode F r (rsCodeword F (rsGenerator F r) r D) := by
  obtain ⟨K, _, ⟨M⟩⟩ := exists_model h
  have hu : ∀ v ∈ symbols D, v < F.size := by intro v hv; obtain ⟨b, hb, rfl⟩ := List.mem_map.1 hv; exact hD b hb
  obtain ⟨p1, p2⟩ := parity_facts h M hr hu
  have hsy := sym_codeword h hm hr hD
  have hlt : ∀ v ∈ symbols D ++ rsParity F (rsGenerator F r) r (symbols D), v < F.size :=
    fun v hv => (List.mem_append.1 hv).elim (hu v) (p1 v)
  refine ⟨fun b hb => hlt _ (hsy ▸ List.mem_map_of_mem hb), ?_⟩
  rw [hsy, rsCodeMember_iff M h hlt]
  intro j hj
  rw [← poly_eval_root]
  have : M.poly (symbols D ++ rsParity F (rsGenerator F r) r (symbols D)) =
      M.poly (symbols D) * X ^ r + M.poly (rsParity F (rsGenerator F r) r (symbols D)) := by
    rw [Model.poly, List.map_append, polyHigh_append, List.length_map, rsParity_length (rsGenerator_length F _) hr]; rfl
  rw [this]
  refine Polynomial.eval_eq_zero_of_dvd_of_eval_eq_zero p2 ?_
  rw [rsGenerator, (M.poly_polyOfRoots h (by intro v hv; obtain ⟨j, -, rfl⟩ := List.mem_map.1 hv; exact alpha_lt h _)).2]
  rw [Polynomial.eval_list_prod, List.prod_eq_zero_iff]
  simp only [List.map_map, List.mem_map, List.mem_range]
  exact ⟨j, hj, by simp [M.val_alpha h, Config.rsFcr]⟩

theorem symbols_inj {D E : List Byte} (h : symbols D = symbols E) : D = E :=
  List.map_injective_iff.2 (fun _ _ hab => BitVec.eq_of_toNat_eq hab) h

theorem symbols_distance (D E : List Byte) : distance (symbols D) (symbols E) = distance D E := by
  rw [distance, distance, show (symbols D).length = D.length from List.length_map _]
  congr 1
  refine List.filter_congr fun i _ => ?_
  rw [decide_eq_decide, not_iff_not, symbols, symbols, List.getElem?_map, List.getElem?_map]
  exact ⟨fun he => Option.map_injective (fun _ _ hab => BitVec.eq_of_toNat_eq hab) he, fun he => by rw [he]⟩

theorem symbols_lt {F : Machine.Field} {D : List Byte} (hD : ∀ b ∈ D, b.toNat < F.size) : ∀ v ∈ symbols D, v < F.size := by
  intro v hv; obtain ⟨b, hb, rfl⟩ := List.mem_map.1 hv; exact hD b hb

/-- `Code(n)` is exactly the set of the encoder's outputs for `n - r` symbols (R206). -/
theorem rsCode_iff_codeword {F : Machine.Field} {P} (h : Built F.m P F.tables) (hm : F.m ≤ 8) {r : Nat} (hr : 1 ≤ r)
    {W : List Byte} (hW : r < W.length) (hn : W.length ≤ F.order) :
    rsCode F r W ↔ ∃ u : List Byte, u.length + r = W.length ∧ (∀ b ∈ u, b.toNat < F.size) ∧
      W = rsCodeword F (rsGenerator F r) r u := by
  constructor
  · intro hc
    have hu : ∀ b ∈ W.take (W.length - r), b.toNat < F.size := fun b hb => hc.1 b (List.mem_of_mem_take hb)
    refine ⟨W.take (W.length - r), by simp; omega, hu, ?_⟩
    set V := rsCodeword F (rsGenerator F r) r (W.take (W.length - r)) with hV
    have hVc := rsCodeword_member h hm hr hu
    have hVl : V.length = W.length := by
      rw [hV, rsCodeword, List.length_append, List.length_map, rsParity_length (rsGenerator_length F _) hr]; simp; omega
    refine symbols_inj (rsCode_unique h ?_ ?_ (symbols_lt hc.1) (symbols_lt hVc.1) hc.2 hVc.2 ?_)
    · simp [symbols, hVl]
    · simpa [symbols] using hn
    · rw [symbols_distance, distance]
      refine le_trans (List.Subperm.length_le (List.subperm_of_subset (List.Nodup.filter _ List.nodup_range)
        (l₂ := List.range' (W.length - r) r) fun i hi => ?_)) (by simp)
      simp only [List.mem_filter, List.mem_range, decide_eq_true_eq] at hi
      rw [List.mem_range'_1]
      refine ⟨?_, by omega⟩
      by_contra hlt
      refine hi.2 ?_
      rw [hV, rsCodeword, List.getElem?_append_left (by simp; omega), List.getElem?_take, if_pos (by omega)]
  · rintro ⟨u, -, hu, rfl⟩
    exact rsCodeword_member h hm hr hu

end
end Sys2Proof.Algebra
end

