-- ==== Sys2Proof/Tests/Slice0.lean ====
section
/-! SUPPORT. The model's own tests. Expected values are those of spec/95_test_vectors.md (named by their V-… id) or are worked
from the rule named; the witnesses at the end meet the hypotheses of the obligations. -/

namespace Sys2Proof.Tests

open Sys2Proof Sys2Proof.Machine

-- one theorem at a time: many kernel evaluations at once take a thread each
set_option Elab.async false

/-! ## Well-formedness: one ill-formed access per check -/

theorem test_access_misaligned :
    (PortAccess.regRead 0x0D).wellFormed = false ∧ (PortAccess.regRead 0x0D).problem = some .misalignedRegister := by decide

theorem test_access_register_width :
    ({ isWrite := true, width := 8, offset := 0x0C, data := 1 } : PortAccess).problem = some .registerWidth := by decide

theorem test_access_buffer_width :
    ({ isWrite := false, width := 32, offset := 0x2000, data := 0 } : PortAccess).problem = some .bufferWidth := by decide

theorem test_access_outside :
    ({ isWrite := false, width := 8, offset := 0x6000, data := 0 } : PortAccess).problem = some .outsideSpace := by decide

theorem test_script_ill_formed :
    PortAccess.scriptWellFormed [.regWrite 0x0C 1, .regRead 0x2] = false ∧
    PortAccess.scriptWellFormed [.regWrite 0x0C 1, .regRead 0x14, .ibufWrite 8191 0xFF, .obufRead 8191] = true := by decide

theorem test_every_command_well_formed : ∀ i : Instr, i.wellFormed = true := fun _ => rfl

/-! ## Decoding: words written out bit by bit from R90 and R92 (V-ENC-1) -/

theorem test_decode_gf :
    decode 0b00000000000000000000000000000001 = .ok .gfBuild ∧ decode 0b00000000000000000000000000000010 = .ok .gfMul ∧
    decode 0b00000000000000000000000000000011 = .ok .gfInv ∧ decode 0b00000000000000000000000000000100 = .ok .gfPow ∧
    decode 0b00000000000000000000000000000101 = .ok .gfLog ∧ decode 0b00000000000000000000000000000110 = .ok .gfAlog := by
  decide

theorem test_decode_crc :
    decode 0b00000000000000000000000000010000 = .ok .crcCfg ∧ decode 0b00000000000000000000000000010001 = .ok .crcEnc ∧
    decode 0b00000000000000000000000000010010 = .ok .crcDec := by decide

theorem test_decode_rs :
    decode 0b00000000000000000000000000100000 = .ok .rsCfg ∧ decode 0b00000000000000000000000000100001 = .ok .rsEnc ∧
    decode 0b00000000000000000000000000100010 = .ok .rsDec := by decide

theorem test_decode_bch :
    decode 0b00000000000000000000000000110000 = .ok .bchCfg ∧ decode 0b00000000000000000000000000110001 = .ok .bchEnc ∧
    decode 0b00000000000000000000000000110010 = .ok .bchDec := by decide

theorem test_decode_illegal :
    decode 0x00000000 = .error .unassignedFunction ∧ decode 0x00000007 = .error .unassignedFunction ∧
    decode 0x00000013 = .error .unassignedFunction ∧ decode 0x00000040 = .error .reservedUnit ∧
    decode 0x000000FF = .error .reservedUnit ∧ decode 0x00000101 = .error .nonZeroHighBits ∧
    decode 0x80000001 = .error .nonZeroHighBits := by decide

theorem test_table_word :
    decodeTableWord 32 0x31 = some .bchEnc ∧ decodeTableWord 32 0x33 = none ∧ decodeTableWord 32 (2 ^ 32 + 1) = none := by decide

/-! ## The states the tests run on -/

/-- The tables of GF(8), P = 0xB (V-GF-1). -/
def gf8 : Tables where
  log := [none, some 0, some 1, some 3, some 2, some 6, some 4, some 5]
  alog := [some 1, some 2, some 4, some 3, some 6, some 7, some 5, some 1]

/-- The tables of GF(16), P = 0x13 (V-GF-1). -/
def gf16 : Tables where
  log := [none, some 0, some 1, some 4, some 2, some 8, some 5, some 10, some 3, some 14, some 9, some 7, some 6, some 13,
    some 11, some 12]
  alog := [some 1, some 2, some 4, some 8, some 3, some 6, some 12, some 11, some 5, some 10, some 7, some 14, some 15,
    some 13, some 9, some 1]

/-- The tables of GF(32), P = 0x25 (V-GF-1). -/
def gf32 : Tables where
  log := [none, some 0, some 1, some 18, some 2, some 5, some 19, some 11, some 3, some 29, some 6, some 27, some 20, some 8,
    some 12, some 23] ++ [some 4, some 10, some 30, some 17, some 7, some 22, some 28, some 26, some 21, some 25, some 9,
    some 16, some 13, some 14, some 24, some 15]
  alog := [some 1, some 2, some 4, some 8, some 16, some 5, some 10, some 20, some 13, some 26, some 17, some 7, some 14,
    some 28, some 29, some 31] ++ [some 27, some 19, some 3, some 6, some 12, some 24, some 21, some 15, some 30, some 25,
    some 23, some 11, some 22, some 9, some 18, some 1]

/-- A state with a byte sequence as the input. -/
def input (s : State) (D : List Byte) : State := { s with ibuf := Memory.ofBytes D, ilen := BitVec.ofNat 32 D.length }

/-- GF(8) built. -/
def field8 : State := { State.reset with gfM := 3, gfPoly := 0xB, tables := some gf8 }

/-- GF(16) built. -/
def field16 : State := { State.reset with gfM := 4, gfPoly := 0x13, tables := some gf16 }

/-- GF(32) built. -/
def field32 : State := { State.reset with gfM := 5, gfPoly := 0x25, tables := some gf32 }

/-- The CRC unit under the source's configuration (V-SRC-1). -/
def crc16 : State := { State.reset with crcWidth := 16, crcPoly := 0x1021, crcInit := 0xFFFF, crcValid := true }

/-- GF(16) with RS r = 4 (V-RS-1), BCH t = 1 (V-BCH-2) and the CRC unit all valid. -/
def unit16 : State :=
  { crc16 with
    gfM := 4, gfPoly := 0x13, tables := some gf16, rsR := 4, rsGen := some [1, 15, 3, 1, 12]
    bchT := 1, bchGen := some 0x13, bchP := some 4 }

/-- GF(32) with BCH t = 2 (V-BCH-2). -/
def bch32 : State := { field32 with bchT := 2, bchGen := some 0x769, bchP := some 10 }

/-- GF(8) with RS r = 2 (V-RS-1). -/
def rs8 : State := { field8 with rsR := 2, rsGen := some [1, 3, 2] }

/-- The words of the ASCII strings of the vectors. -/
def digits : List Byte := [0x31, 0x32, 0x33, 0x34, 0x35, 0x36, 0x37, 0x38, 0x39]

/-- "TEST". -/
def testBytes : List Byte := [0x54, 0x45, 0x53, 0x54]

/-- One view of the next state. -/
def after (i : Instr) (s : State) {α : Type} (f : State → α) : Option α := (nextState (exec i s)).map f

/-- A view of the next state says that there is one. -/
theorem next_of_after {i : Instr} {s : State} {α : Type} {f : State → α} {v : α} (h : after i s f = some v) :
    ∃ t, exec i s = .next t ∧ f t = v := by
  unfold after at h
  cases he : exec i s with
  | next t => exact ⟨t, rfl, by simpa [nextState, he] using h⟩
  | fault f => simp [nextState, he] at h
  | refused r => simp [nextState, he] at h

/-! ## Commands, at most two tests each -/

/-- R291: the nine numbers of `STATUS.CODE`. -/
theorem test_code_numbers :
    [Code.ok, .errConfig, .errInvalidPoly, .errEmpty, .errDiv0, .errNotConfigured, .errLength, .errOperand, .errIllegalCmd].map
      (fun c => { State.reset with code := c }.statusWord) = [0, 1, 2, 3, 4, 5, 6, 7, 8] := by decide

/-- V-GF-1, m = 3. -/
theorem test_gfBuild : after .gfBuild { State.reset with gfM := 3, gfPoly := 0xB } (fun t => (t.statusWord, t.tables)) =
    some (0x100, some gf8) := by decide +kernel

/-- V-GF-3: (4, 0x12) ends its loop with `x` = 8; the flags of all three units fall. -/
theorem test_gfBuild_rejects : after .gfBuild { unit16 with gfPoly := 0x12 } State.statusWord = some 0x202 := by decide +kernel

/-- V-GF-4. -/
theorem test_gfMul : after .gfMul { field16 with opa := 7, opb := 9 } (fun t => (t.statusWord, t.res)) = some (0x100, 10) := by
  decide +kernel

/-- V-GF-4: `OPB` = 0xFFFFFFFF. -/
theorem test_gfMul_operand : after .gfMul { field16 with opa := 1, opb := 0xFFFFFFFF, res := 77 }
    (fun t => (t.statusWord, t.res)) = some (0x107, 77) := by decide +kernel

/-- V-GF-4. -/
theorem test_gfInv : after .gfInv { field16 with opa := 15 } (fun t => (t.statusWord, t.res)) = some (0x100, 8) := by
  decide +kernel

/-- V-GF-4: the inverse of 0. -/
theorem test_gfInv_zero : after .gfInv { field16 with res := 77 } (fun t => (t.statusWord, t.res)) = some (0x104, 77) := by
  decide +kernel

/-- V-GF-4: an exponent above 2^m. -/
theorem test_gfPow : after .gfPow { field16 with opa := 6, opb := 1000000 } State.res = some 6 := by decide +kernel

/-- V-GF-4: 0 to the power 0. -/
theorem test_gfPow_zero : after .gfPow field16 State.res = some 1 := by decide +kernel

/-- V-GF-4. -/
theorem test_gfLog : after .gfLog { field16 with opa := 9 } State.res = some 14 := by decide +kernel

/-- V-GF-4: the range check precedes the check for 0, and 16 is no element. -/
theorem test_gfLog_codes : after .gfLog { field16 with opa := 16 } State.code = some .errOperand ∧
    after .gfLog field16 State.code = some .errDiv0 := by decide +kernel

/-- V-GF-4: index Q. -/
theorem test_gfAlog : after .gfAlog { field16 with opa := 15 } State.res = some 1 := by decide +kernel

/-- V-GF-4. -/
theorem test_gfAlog_operand : after .gfAlog { field16 with opa := 16 } State.code = some .errOperand := by decide +kernel

/-- V-CRC-16: width 32 with all three values full. -/
theorem test_crcCfg : after .crcCfg
    { State.reset with crcWidth := 32, crcPoly := 0xFFFFFFFF, crcInit := 0xFFFFFFFF, crcXorout := 0xFFFFFFFF } State.statusWord = some 0x200 := by decide +kernel

/-- V-CRC-16: a polynomial that does not fit the width. -/
theorem test_crcCfg_rejects : after .crcCfg { crc16 with crcWidth := 8, crcPoly := 0x100, crcInit := 0 }
    State.statusWord = some 0x001 := by decide +kernel

/-- V-CRC-2. -/
theorem test_crcEnc : after .crcEnc (input crc16 digits) State.res = some 0x29B1 := by decide +kernel

/-- V-CRC-6: a width that is no multiple of 8. -/
theorem test_crcEnc_width5 : after .crcEnc (input
    { State.reset with crcWidth := 5, crcPoly := 5, crcInit := 0x1F, crcXorout := 0x1F, crcValid := true } digits) State.res = some 0x10 := by decide +kernel

/-- V-SRC-1. -/
theorem test_crcDec : after .crcDec (input { crc16 with opa := 0x8CCA } testBytes) (fun t => (t.result.word, t.res)) =
    some (0x4, 0x8CCA) := by decide +kernel

/-- V-CRC-16: bit 16 of `OPA` makes the compare fail. -/
theorem test_crcDec_all_bits : after .crcDec (input { crc16 with opa := 0x18CCA } testBytes) (fun t => (t.result.word, t.res)) =
    some (0x0, 0x8CCA) := by decide +kernel

/-- V-RS-1. -/
theorem test_rsCfg : after .rsCfg { field16 with rsR := 4 } (fun t => (t.statusWord, t.rsGen)) =
    some (0x500, some [0x01, 0x0F, 0x03, 0x01, 0x0C]) := by decide +kernel

/-- V-RS-13: r above Q - 1. -/
theorem test_rsCfg_rejects : after .rsCfg { rs8 with rsR := 7 } State.statusWord = some 0x101 := by decide +kernel

/-- V-RS-2. -/
theorem test_rsEnc : after .rsEnc (input unit16 [1, 2, 3]) (fun t => (t.olen, t.obuf.readRange 0 7)) =
    some (7, some [0x01, 0x02, 0x03, 0x0E, 0x08, 0x04, 0x02]) := by decide +kernel

/-- V-RS-13: 0x10 is no element of GF(16). -/
theorem test_rsEnc_operand : after .rsEnc (input unit16 [1, 2, 0x10]) (fun t => (t.code, t.olen)) = some (.errOperand, 0) := by
  decide +kernel

/-- V-RS-7: two errors, one in the parity. -/
theorem test_rsDec : after .rsDec (input unit16 [1, 2, 0x0A, 4, 5, 6, 7, 8, 9, 0x0A, 0x0B, 3, 3, 8, 0x0C])
    (fun t => (t.result.word, t.olen, t.obuf.readRange 0 11)) =
    some (0x1, 11, some [1, 2, 3, 4, 5, 6, 7, 8, 9, 0x0A, 0x0B]) := by decide +kernel

/-- V-RS-9: the degree of the locator is below the register length. -/
theorem test_rsDec_gives_up : after .rsDec (input { rs8 with olen := 9 } [0, 0, 1, 2])
    (fun t => (t.result.word, t.olen, t.code)) = some (0x2, 0, .ok) := by decide +kernel

/-- V-BCH-2. -/
theorem test_bchCfg : after .bchCfg { field32 with bchT := 2 } (fun t => (t.statusWord, t.bchGen, t.bchP)) =
    some (0x900, some 0x769, some 10) := by decide +kernel

/-- V-BCH-2: p = 8 leaves no room for a payload byte. -/
theorem test_bchCfg_rejects : after .bchCfg { unit16 with bchT := 2 } (fun t => (t.statusWord, t.bchP)) =
    some (0x701, none) := by decide +kernel

/-- V-BCH-3: ten parity bits and six pad bits. -/
theorem test_bchEnc : after .bchEnc (input bch32 [0xA5]) (fun t => (t.olen, t.obuf.readRange 0 3)) =
    some (3, some [0xA5, 0xFF, 0xC0]) := by decide +kernel

/-- V-BCH-12: 8 * 2 + 4 bits do not fit GF(16). -/
theorem test_bchEnc_length : after .bchEnc (input unit16 [1, 2]) State.code = some .errLength := by decide +kernel

/-- V-BCH-6: two errors. -/
theorem test_bchDec : after .bchDec (input bch32 [0xB5, 0xFF, 0x40]) (fun t => (t.result.word, t.olen, t.obuf.readRange 0 1)) =
    some (0x1, 1, some [0xA5]) := by decide +kernel

/-- V-BCH-9: three errors and no root. -/
theorem test_bchDec_gives_up : after .bchDec (input bch32 [0x45, 0xFF, 0xC0]) (fun t => (t.result.word, t.olen)) =
    some (0x2, 0) := by decide +kernel

/-! ## Steps -/

/-- R62: what one step of the host leaves, seen through `f`. -/
def stepped (s : State) {α : Type} (f : State → α) : Option α := (nextState (step s)).map f

/-- V-RST-1: the first command after reset. -/
theorem test_step_reset : stepped (State.reset.withFetchWord 32 0x01) State.statusWord = some 0x001 ∧
    stepped (State.reset.withFetchWord 32 0x32) State.statusWord = some 0x005 ∧
    stepped (State.reset.withFetchWord 32 0x40) State.statusWord = some 0x008 := by decide +kernel

/-- V-HAZ-1: `WR RS_R, 4` clears `RS_VALID` though the value is the same. -/
theorem test_step_hazard : stepped { unit16 with crcValid := false, pending := [.regWrite 0x38 4] } State.statusWord = some 0x900 ∧
    stepped { unit16 with crcValid := false, pending := [.regWrite 0x24 0x13] } State.statusWord = some 0x000 := by
  decide +kernel

/-- R62: a byte written to the last index of `IBUF` is read back, and a read of `STATUS` returns it. -/
theorem test_step_buffer :
    stepped { State.reset with pending := [.ibufWrite 8191 0xA5] } (fun t => t.ibuf.read 8191) = some (some 0xA5) ∧
    stepped { State.reset with ibuf := [(8191, 0xA5)], pending := [.ibufRead 8191] } State.readData = some 0xA5 ∧
    stepped { unit16 with pending := [.regRead 0x04] } State.readData = some 0xF00 := by decide +kernel

/-- R60: a write to `OBUF` is ignored. -/
theorem test_step_obuf_write : stepped { State.reset with
    pending := [{ isWrite := true, width := 8, offset := 0x4000, data := 0xA5 }] } (fun t => t.obuf.read 0) = some none := by
  decide +kernel

/-! ## Witnesses: states and operands that meet the hypotheses of the obligations, clause by clause -/

/-- A new input that fits the buffer keeps the invariant. -/
theorem input_inv {s : State} (hi : s.Inv) {D : List Byte} (hD : D.length ≤ 8192) : (input s D).Inv where
  tablesBuilt := hi.tablesBuilt
  crcLegal := hi.crcLegal
  rsBuilt := hi.rsBuilt
  bchBuilt := hi.bchBuilt
  ibufWf := Memory.ofBytes_wf D
  ibufInside c hc := by
    have := Memory.cellsFrom_key_lt 0 D c hc
    simp only [Config.bufBytes]
    omega
  output := hi.output
  resultLegal := hi.resultLegal
  raisedResult := hi.raisedResult
  gaveUpOutput := hi.gaveUpOutput

/-- The field of the GF(16) states. -/
def F16 : Field := { m := 4, tables := gf16 }

theorem unit16_inv : unit16.Inv where
  tablesBuilt T hT := by obtain rfl := Option.some.inj hT; decide +kernel
  crcLegal _ := by decide +kernel
  rsBuilt g hg := by
    obtain rfl := Option.some.inj hg
    exact ⟨F16, rfl, by decide, by decide, by decide, by decide +kernel⟩
  bchBuilt g hg := by
    obtain rfl := Option.some.inj hg
    exact ⟨F16, rfl, by decide, by decide, by decide +kernel, by decide +kernel, by decide +kernel⟩
  ibufWf := by decide
  ibufInside c hc := by cases hc
  output := ⟨[], rfl, rfl, by decide⟩
  resultLegal := .inl rfl
  raisedResult h := absurd rfl h
  gaveUpOutput h := by cases h

theorem bch32_inv : bch32.Inv where
  tablesBuilt T hT := by obtain rfl := Option.some.inj hT; decide +kernel
  crcLegal h := by cases h
  rsBuilt g hg := by cases hg
  bchBuilt g hg := by
    obtain rfl := Option.some.inj hg
    exact ⟨{ m := 5, tables := gf32 }, rfl, by decide, by decide, by decide +kernel, by decide +kernel, by decide +kernel⟩
  ibufWf := by decide
  ibufInside c hc := by cases hc
  output := ⟨[], rfl, rfl, by decide⟩
  resultLegal := .inl rfl
  raisedResult h := absurd rfl h
  gaveUpOutput h := by cases h

/-- An input is read back whole. -/
theorem input_read (s : State) {D : List Byte} (hD : D.length ≤ 8192) :
    (input s D).ilen.toNat = D.length ∧ (input s D).ibuf.readRange 0 (input s D).ilen.toNat = some D := by
  have h : (input s D).ilen.toNat = D.length := by simp [input]; omega
  exact ⟨h, by rw [h]; exact Memory.readRange_ofBytes D⟩

/-- A state whose host has one access left. -/
def offered (a : PortAccess) : State := { State.reset with pending := [a] }

theorem witness_CommandWordsDecodeAsTabulated : decode 0x22 = .ok .rsDec := by decide

theorem witness_DecodeAndEncodeAgree : decode 0x32 = .ok .bchDec := by decide

theorem witness_IllegalWordsAndTheirCompletion :
    ((offered (.command 0x07)).pending = .command 0x07 :: [] ∧ decode 0x07 = .error .unassignedFunction) ∧
    ((offered (.command 0x40)).pending = .command 0x40 :: [] ∧ decode 0x40 = .error .reservedUnit) ∧
    ((offered (.command 0x100)).pending = .command 0x100 :: [] ∧ decode 0x100 = .error .nonZeroHighBits) := by decide

theorem witness_StepRunsTheDecodedCommand :
    decode 0x01 = .ok .gfBuild ∧ (offered (.command 0x01)).pending = .command 0x01 :: [] := by decide

theorem witness_StepMakesTheNextHostAccess :
    State.reset.pending = [] ∧
    (0x1FFC < 0x2000 ∧ 0x1FFC % 4 = 0 ∧ 0x1FFC ≠ 0 ∧ (offered (.regWrite 0x1FFC 5)).pending = .regWrite 0x1FFC 5 :: []) ∧
    (0 < 0x2000 ∧ 0 % 4 = 0 ∧ (offered (.regRead 0)).pending = .regRead 0 :: []) ∧
    (8191 < 8192 ∧ (offered (.ibufWrite 8191 0xFF)).pending = .ibufWrite 8191 0xFF :: []) ∧
    (8191 < 8192 ∧ (offered (.ibufRead 8191)).pending = .ibufRead 8191 :: []) ∧
    (0 < 8192 ∧ (offered (.obufRead 0)).pending = .obufRead 0 :: []) ∧
    (8191 < 8192 ∧ (offered ⟨true, 8, 0x4000 + 8191, 0x1FF⟩).pending =
      { isWrite := true, width := 8, offset := 0x4000 + 8191, data := 0x1FF } :: []) := by decide

/-- A refused access and a defined one, at the end of the space. -/
theorem witness_UndefinedAccessesAreRefused :
    (offered (.obufRead 8192)).pending = .obufRead 8192 :: [] ∧ 0x6000 ≤ (PortAccess.obufRead 8192).offset ∧
    (offered (.obufRead 8191)).pending = .obufRead 8191 :: [] ∧ ¬ 0x6000 ≤ (PortAccess.obufRead 8191).offset := by decide

theorem witness_ConfigurationWritesClearFlags :
    (Reg.gfPoly = Reg.gfM ∨ Reg.gfPoly = Reg.gfPoly) ∧
    (Reg.crcXorout = Reg.crcWidth ∨ Reg.crcXorout = Reg.crcPoly ∨ Reg.crcXorout = Reg.crcInit ∨ Reg.crcXorout = Reg.crcXorout) ∧
    (Reg.ilen = Reg.opa ∨ Reg.ilen = Reg.opb ∨ Reg.ilen = Reg.ilen) ∧ Reg.opb ≠ Reg.ilen ∧ Reg.opb ≠ Reg.status := by decide

theorem witness_ReadOnlyAndReservedIgnoreWrites :
    (Reg.bchP = Reg.status ∨ Reg.bchP = Reg.result ∨ Reg.bchP = Reg.res ∨ Reg.bchP = Reg.olen ∨ Reg.bchP = Reg.bchP) ∧
    0x44 ≤ 0x44 ∧ (0x1FFD < 0x2000 ∧ 0x1FFD % 4 ≠ 0 ∧ (offered (.regWrite 0x1FFD 0)).pending = .regWrite 0x1FFD 0 :: []) := by
  decide

theorem witness_HostReadsReturnWhatIsHeld :
    unit16.readReg .status = some 0xF00 ∧ { State.reset with bchP := none }.readReg .bchP = none ∧
    ((input unit16 [7]).buffer .ibuf).read 0 = some 7 ∧ ((input unit16 [7]).buffer .ibuf).read 1 = none := by decide +kernel

/-- The last three are the cycle tests (corner cases of R122): `x` = 0 at `i` = 4, `x` = 1 at `i` = 5, and no return to 1. -/
theorem witness_GfBuildOutcome :
    buildTables field8.gfM.toNat field8.gfPoly.toNat = .ok gf8 ∧
    buildTables State.reset.gfM.toNat State.reset.gfPoly.toNat = .error .errConfig ∧
    ({ field8 with gfM := 1 }.gfM.toNat < 2 ∧ 16 < { field8 with gfM := 17 }.gfM.toNat) ∧
    (2 ≤ { field8 with gfM := 16 }.gfM.toNat ∧ { field8 with gfM := 16 }.gfM.toNat ≤ 16 ∧
      { field8 with gfM := 16 }.gfPoly.toNat >>> { field8 with gfM := 16 }.gfM.toNat ≠ 1) ∧
    (2 ≤ field16.gfM.toNat ∧ field16.gfM.toNat ≤ 16) ∧
    (4 < 2 ^ field16.gfM.toNat - 1 ∧ alphaPower field16.gfM.toNat { field16 with gfPoly := 0x10 }.gfPoly.toNat 4 = 0) ∧
    (5 < 2 ^ field16.gfM.toNat - 1 ∧ 0 < 5 ∧ alphaPower field16.gfM.toNat { field16 with gfPoly := 0x1F }.gfPoly.toNat 5 = 1) ∧
    alphaPower field16.gfM.toNat { field16 with gfPoly := 0x12 }.gfPoly.toNat (2 ^ field16.gfM.toNat - 1) ≠ 1 := by decide +kernel

theorem witness_TablesAreInverseBijections : unit16.Inv ∧ unit16.tables = some gf16 := ⟨unit16_inv, rfl⟩

/-- The clauses of the GF results at the largest element, 15, and at the first number that is none, 16. -/
theorem witness_GfMulResult :
    State.reset.gfValid = false ∧ field16.field = some F16 ∧ 2 ^ F16.m ≤ { field16 with opb := 16 }.opb.toNat ∧
    ({ field16 with opa := 15, opb := 15 }.opa.toNat < 2 ^ F16.m ∧ { field16 with opa := 15, opb := 15 }.opb.toNat < 2 ^ F16.m) := by
  decide

theorem witness_GfInvResult :
    State.reset.gfValid = false ∧ field16.field = some F16 ∧ 2 ^ F16.m ≤ { field16 with opa := 16 }.opa.toNat ∧
    field16.opa.toNat = 0 ∧ ({ field16 with opa := 15 }.opa.toNat < 2 ^ F16.m ∧ { field16 with opa := 15 }.opa.toNat ≠ 0) := by
  decide

theorem witness_GfPowResult :
    State.reset.gfValid = false ∧ field16.field = some F16 ∧ 2 ^ F16.m ≤ { field16 with opa := 16 }.opa.toNat ∧
    { field16 with opa := 15 }.opa.toNat < 2 ^ F16.m := by decide

theorem witness_GfLogResult :
    State.reset.gfValid = false ∧ field16.field = some F16 ∧ 2 ^ F16.m ≤ { field16 with opa := 16 }.opa.toNat ∧
    field16.opa.toNat = 0 ∧ ({ field16 with opa := 15 }.opa.toNat < 2 ^ F16.m ∧ { field16 with opa := 15 }.opa.toNat ≠ 0 ∧
      F16.tables.log[{ field16 with opa := 15 }.opa.toNat]? = some (some 12)) := by decide

theorem witness_GfAlogResult :
    State.reset.gfValid = false ∧ field16.field = some F16 ∧ 2 ^ F16.m ≤ { field16 with opa := 16 }.opa.toNat ∧
    ({ field16 with opa := 15 }.opa.toNat < 2 ^ F16.m ∧ F16.tables.alog[{ field16 with opa := 15 }.opa.toNat]? = some (some 1)) := by
  decide

theorem witness_GfMulIsThePolynomialProduct : unit16.Inv ∧ unit16.field = some F16 ∧ 15 < 2 ^ unit16.gfM.toNat :=
  ⟨unit16_inv, rfl, by decide⟩

theorem witness_FieldLawsHold : unit16.Inv ∧ unit16.field = some F16 ∧ 15 < F16.size := ⟨unit16_inv, rfl, by decide⟩

theorem witness_BitStreamIsMostSignificantFirst : 15 < 8 * [(0xA5 : Byte), 0x5A].length := by decide

theorem witness_CrcCfgOutcome :
    (1 ≤ crc16.crcWidth.toNat ∧ crc16.crcWidth.toNat ≤ 32 ∧ crc16.crcPoly.toNat < 2 ^ crc16.crcWidth.toNat ∧
      crc16.crcInit.toNat < 2 ^ crc16.crcWidth.toNat ∧ crc16.crcXorout.toNat < 2 ^ crc16.crcWidth.toNat) ∧
    ¬(1 ≤ { crc16 with crcWidth := 33 }.crcWidth.toNat ∧ { crc16 with crcWidth := 33 }.crcWidth.toNat ≤ 32) := by decide

/-- The clauses of the CRC results at the lengths 0, 1, 8192 and 8193. -/
theorem witness_CrcEncResult :
    State.reset.crcValid = false ∧ crc16.crcValid = true ∧ crc16.ilen.toNat = 0 ∧ 8192 < { crc16 with ilen := 8193 }.ilen.toNat ∧
    (1 ≤ (input crc16 [7]).ilen.toNat ∧ (input crc16 [7]).ilen.toNat ≤ 8192 ∧
      (input crc16 [7]).ibuf.readRange 0 (input crc16 [7]).ilen.toNat = some [7]) ∧
    ((input crc16 (List.replicate 8192 0)).ilen.toNat = 8192 ∧ (input crc16 (List.replicate 8192 0)).ibuf.readRange 0
      (input crc16 (List.replicate 8192 0)).ilen.toNat = some (List.replicate 8192 0)) := by
  refine ⟨rfl, rfl, rfl, by decide, by decide +kernel, ?_⟩
  have := input_read crc16 (D := List.replicate 8192 0) (by rw [List.length_replicate])
  rwa [List.length_replicate] at this

theorem witness_CrcDecResult :
    State.reset.crcValid = false ∧ crc16.crcValid = true ∧ crc16.ilen.toNat = 0 ∧ 8192 < { crc16 with ilen := 8193 }.ilen.toNat ∧
    (1 ≤ (input crc16 testBytes).ilen.toNat ∧ (input crc16 testBytes).ilen.toNat ≤ 8192 ∧
      (input crc16 testBytes).ibuf.readRange 0 (input crc16 testBytes).ilen.toNat = some testBytes) := by
  refine ⟨rfl, rfl, rfl, by decide, by decide +kernel⟩

theorem witness_CrcRoundTripMatches : ∃ t, exec .crcEnc (input crc16 testBytes) = .next t ∧ t.code = .ok :=
  next_of_after (f := State.code) (by decide +kernel)

/-- A CRC unit with the degenerate generator `x^16` (V-CRC-14). -/
def crcZero : State := { State.reset with crcWidth := 16, crcValid := true }

theorem crcZero_inv : crcZero.Inv where
  tablesBuilt _ hT := nomatch hT
  crcLegal _ := by decide
  rsBuilt _ hg := nomatch hg
  bchBuilt _ hg := nomatch hg
  ibufWf := by decide
  ibufInside _ hc := nomatch hc
  output := ⟨[], rfl, rfl, by decide⟩
  resultLegal := .inl rfl
  raisedResult h := absurd rfl h
  gaveUpOutput h := nomatch h

/-- Each clause of the statement on error patterns, at the largest remainder pattern, with `poly` odd and with `poly` = 0. -/
theorem witness_CrcErrorPatternsAdd :
    (testBytes.length = [(0 : Byte), 0x11, 2, 0x10].length ∧ unit16.Inv ∧ unit16.crcValid = true) ∧
    ((input unit16 testBytes).Inv ∧ (∃ t, exec .crcEnc (input unit16 testBytes) = .next t ∧ t.code = .ok) ∧
      (input unit16 testBytes).ibuf.readRange 0 (input unit16 testBytes).ilen.toNat = some testBytes ∧
      (0xFFFF : Word).toNat < 2 ^ (input unit16 testBytes).crcWidth.toNat ∧
      (streamNumber [0, 0, 0, 0] = 0 ∧ (0xFFFF : Word) ≠ 0) ∧ (input unit16 testBytes).crcPoly.toNat % 2 = 1) ∧
    ((input crcZero testBytes).Inv ∧ (∃ t, exec .crcEnc (input crcZero testBytes) = .next t ∧ t.code = .ok) ∧
      (input crcZero testBytes).ibuf.readRange 0 (input crcZero testBytes).ilen.toNat = some testBytes ∧
      (input crcZero testBytes).crcPoly.toNat = 0) :=
  ⟨⟨by decide, unit16_inv, rfl⟩,
    ⟨input_inv unit16_inv (by decide), next_of_after (f := State.code) (by decide +kernel), by decide +kernel, by decide,
      by decide, by decide⟩,
    ⟨input_inv crcZero_inv (by decide), next_of_after (f := State.code) (by decide +kernel), by decide +kernel, rfl⟩⟩

/-- Bit 31 is the last of the payload "TEST"; 0x8CCB differs from its remainder in bit 0, and the remainder clause holds for
`poly` = 0 as well. -/
theorem witness_CrcDetectsEverySingleBitFlip :
    ((input unit16 testBytes).Inv ∧ (∃ t, exec .crcEnc (input unit16 testBytes) = .next t ∧ (t.code, t.res) = (.ok, 0x8CCA)) ∧
      (input unit16 testBytes).ibuf.readRange 0 (input unit16 testBytes).ilen.toNat = some testBytes ∧
      (input unit16 testBytes).crcPoly.toNat ≠ 0 ∧ 31 < 8 * testBytes.length ∧ (0x8CCB : Word) ≠ 0x8CCA) ∧
    ((input crcZero testBytes).Inv ∧ (∃ t, exec .crcEnc (input crcZero testBytes) = .next t ∧ (t.code, t.res) = (.ok, 0)) ∧
      (1 : Word) ≠ 0) :=
  ⟨⟨input_inv unit16_inv (by decide), next_of_after (f := fun t => (t.code, t.res)) (by decide +kernel), by decide +kernel,
      by decide, by decide, by decide⟩,
    ⟨input_inv crcZero_inv (by decide), next_of_after (f := fun t => (t.code, t.res)) (by decide +kernel), by decide⟩⟩

/-- The clauses of `RS.CFG` in GF(16), where Q - 1 = 14, and in a field with m = 9. -/
theorem witness_RsCfgOutcome :
    State.reset.gfValid = false ∧ field16.field = some F16 ∧ { field16 with rsR := 0 }.rsR.toNat < 1 ∧
    2 ^ F16.m - 1 - 1 < { field16 with rsR := 15 }.rsR.toNat ∧
    (F16.m ≤ 8 ∧ 1 ≤ { field16 with rsR := 14 }.rsR.toNat ∧ { field16 with rsR := 14 }.rsR.toNat ≤ 2 ^ F16.m - 1 - 1) ∧
    ({ field16 with gfM := 9 }.field = some { m := 9, tables := gf16 } ∧ 8 < ({ m := 9, tables := gf16 } : Field).m) := by decide

theorem witness_RsGeneratorIsMonicOfDegreeR : unit16.Inv ∧ unit16.field = some F16 ∧ unit16.rsGen = some [1, 15, 3, 1, 12] :=
  ⟨unit16_inv, rfl, rfl⟩

/-- Eleven symbols, the longest payload of r = 4 in GF(16) (V-RS-2). -/
def eleven : List Byte := [1, 2, 3, 4, 5, 6, 7, 8, 9, 10, 11]

/-- The code word of `eleven` (V-RS-2). -/
def elevenWord : List Byte := [1, 2, 3, 4, 5, 6, 7, 8, 9, 10, 11, 3, 3, 12, 12]

theorem witness_RsEncResult :
    State.reset.rsValid = false ∧ unit16.field = some F16 ∧ unit16.rsGen = some [1, 15, 3, 1, 12] ∧ unit16.ilen.toNat = 0 ∧
    ({ unit16 with ilen := 12 }.ilen.toNat ≠ 0 ∧ 2 ^ F16.m - 1 < { unit16 with ilen := 12 }.ilen.toNat + unit16.rsR.toNat) ∧
    ((input unit16 eleven).ilen.toNat ≠ 0 ∧ (input unit16 eleven).ilen.toNat + unit16.rsR.toNat ≤ 2 ^ F16.m - 1 ∧
      (input unit16 eleven).ibuf.readRange 0 (input unit16 eleven).ilen.toNat = some eleven ∧ ∀ b ∈ eleven, b.toNat < 2 ^ F16.m) ∧
    ((input unit16 [15, 16]).ibuf.readRange 0 (input unit16 [15, 16]).ilen.toNat = some [15, 16] ∧
      ∃ b ∈ [(15 : Byte), 16], 2 ^ F16.m ≤ b.toNat) := by decide +kernel

theorem witness_RsCodewordsHaveZeroSyndromes :
    unit16.Inv ∧ unit16.field = some F16 ∧ unit16.rsGen = some [1, 15, 3, 1, 12] ∧ ∀ b ∈ [(15 : Byte)], b.toNat < F16.size :=
  ⟨unit16_inv, rfl, rfl, by decide⟩

theorem witness_RsCodeIsClosedUnderXor :
    unit16.Inv ∧ unit16.field = some F16 ∧ [1, 2, 3, 14, 8, 4, 2].length = [0, 0, 1, 15, 3, 1, 12].length ∧
    (∀ v ∈ [1, 2, 3, 14, 8, 4, 2], v < F16.size) ∧ (∀ v ∈ [0, 0, 1, 15, 3, 1, 12], v < F16.size) ∧
    rsCodeMember F16 unit16.rsR.toNat [1, 2, 3, 14, 8, 4, 2] ∧ rsCodeMember F16 unit16.rsR.toNat [0, 0, 1, 15, 3, 1, 12] :=
  ⟨unit16_inv, rfl, rfl, by decide, by decide, by unfold rsCodeMember; decide +kernel, by unfold rsCodeMember; decide +kernel⟩

/-- The clauses of `RS.DEC` at the lengths 0, r = 4, Q = 15 and Q + 1. -/
theorem witness_RsDecReturnsCleanWordsUnchanged :
    State.reset.rsValid = false ∧ unit16.field = some F16 ∧ unit16.rsGen = some [1, 15, 3, 1, 12] ∧ unit16.ilen.toNat = 0 ∧
    ({ unit16 with ilen := 4 }.ilen.toNat ≠ 0 ∧ { unit16 with ilen := 4 }.ilen.toNat ≤ unit16.rsR.toNat) ∧
    2 ^ F16.m - 1 < { unit16 with ilen := 16 }.ilen.toNat ∧
    (unit16.rsR.toNat < (input unit16 elevenWord).ilen.toNat ∧ (input unit16 elevenWord).ilen.toNat ≤ 2 ^ F16.m - 1 ∧
      (input unit16 elevenWord).ibuf.readRange 0 (input unit16 elevenWord).ilen.toNat = some elevenWord ∧
      (∀ b ∈ elevenWord, b.toNat < 2 ^ F16.m) ∧
      ∀ v ∈ rsSyndromes F16 unit16.rsR.toNat (elevenWord.map BitVec.toNat), v = 0) ∧
    (unit16.rsR.toNat < (input unit16 [16, 0, 0, 0, 0]).ilen.toNat ∧
      (input unit16 [16, 0, 0, 0, 0]).ibuf.readRange 0 (input unit16 [16, 0, 0, 0, 0]).ilen.toNat = some [16, 0, 0, 0, 0] ∧
      ∃ b ∈ [(16 : Byte), 0, 0, 0, 0], 2 ^ F16.m ≤ b.toNat) := by decide +kernel

/-- The hypotheses of `RsDecCorrectsOrGivesUp` other than the clauses' own. -/
def rsDecoding (s : State) (F : Field) (g : List Nat) (D : List Byte) (S lam : List Nat) (len : Nat) : Prop :=
  s.field = some F ∧ s.rsGen = some g ∧ s.rsR.toNat < s.ilen.toNat ∧ s.ilen.toNat ≤ 2 ^ F.m - 1 ∧
  s.ibuf.readRange 0 s.ilen.toNat = some D ∧ (∀ b ∈ D, b.toNat < 2 ^ F.m) ∧
  S = rsSyndromes F s.rsR.toNat (D.map BitVec.toNat) ∧ ¬(∀ v ∈ S, v = 0) ∧ bm F S s.rsR.toNat = .ok (lam, len)

/-- The field of the GF(8) states. -/
def F8 : Field := { m := 3, tables := gf8 }

/-- More errors than r = 1 corrects (V-RS-8): the degree is above 0. -/
theorem witness_RsDecCorrectsOrGivesUp_degree :
    rsDecoding (input { rs8 with rsR := 1, rsGen := some [1, 1] } [1, 2, 2, 0]) F8 [1, 1] [1, 2, 2, 0] [1] [1, 1] 1 ∧
    1 / 2 < polyDegree [1, 1] := by
  refine ⟨⟨?_, ?_, ?_, ?_, ?_, ?_, ?_, ?_, ?_⟩, ?_⟩ <;> decide +kernel

/-- V-RS-9: the degree is not the register length. -/
theorem witness_RsDecCorrectsOrGivesUp_length :
    rsDecoding (input rs8 [0, 0, 1, 2]) F8 [1, 3, 2] [0, 0, 1, 2] [3, 0] [1, 0, 0] 1 ∧ polyDegree [1, 0, 0] ≠ 1 := by
  refine ⟨⟨?_, ?_, ?_, ?_, ?_, ?_, ?_, ?_, ?_⟩, ?_⟩ <;> decide +kernel

/-- The one root belongs to a position that was not transmitted. -/
theorem witness_RsDecCorrectsOrGivesUp_roots :
    rsDecoding (input rs8 [0, 0, 5, 4]) F8 [1, 3, 2] [0, 0, 5, 4] [1, 5] [1, 5, 0] 1 ∧
    rootPositions F8 [1, 5, 0] 1 4 (List.range 4) = .ok [] ∧ ([] : List Nat).length ≠ polyDegree [1, 5, 0] := by
  refine ⟨⟨?_, ?_, ?_, ?_, ?_, ?_, ?_, ?_, ?_⟩, ?_⟩ <;> decide +kernel

/-- The word of `eleven` with two symbol errors (V-RS-7). -/
def elevenReceived : List Byte := [1, 2, 10, 4, 5, 6, 7, 8, 9, 10, 11, 3, 3, 8, 12]

/-- V-RS-7. -/
theorem witness_RsDecCorrectsOrGivesUp_corrects :
    rsDecoding (input unit16 elevenReceived) F16 [1, 15, 3, 1, 12] elevenReceived [13, 6, 6, 0] [1, 13, 13, 0, 0] 2 ∧
    polyDegree [1, 13, 13, 0, 0] ≤ unit16.rsR.toNat / 2 ∧ polyDegree [1, 13, 13, 0, 0] = 2 ∧
    rootPositions F16 [1, 13, 13, 0, 0] 2 15 (List.range 15) = .ok [2, 13] ∧
    rsCorrect F16 4 15 [13, 6, 6, 0] [1, 13, 13, 0, 0] 2 [2, 13] (elevenReceived.map BitVec.toNat) =
      .ok (elevenWord.map BitVec.toNat) := by
  refine ⟨⟨?_, ?_, ?_, ?_, ?_, ?_, ?_, ?_, ?_⟩, ?_, ?_, ?_, ?_⟩ <;> decide +kernel

/-- A code word, a word within the capacity of one and a word that is not (V-RS-7, V-RS-9 in spirit: its syndromes are 3, 0). -/
theorem witness_RsDecIsABoundedDistanceDecoder :
    (input unit16 elevenWord).Inv ∧ (input unit16 elevenWord).field = some F16 ∧
    (input unit16 elevenWord).rsGen = some [1, 15, 3, 1, 12] ∧ unit16.rsR.toNat < (input unit16 elevenWord).ilen.toNat ∧
    (input unit16 elevenWord).ilen.toNat ≤ 2 ^ F16.m - 1 ∧
    (input unit16 elevenWord).ibuf.readRange 0 (input unit16 elevenWord).ilen.toNat = some elevenWord ∧
    (∀ b ∈ elevenWord, b.toNat < 2 ^ F16.m) ∧
    (elevenWord.length = elevenWord.length ∧ rsCode F16 unit16.rsR.toNat elevenWord ∧
      distance elevenWord elevenWord ≤ unit16.rsR.toNat / 2) ∧
    ((List.replicate 15 (0 : Byte)).length = elevenWord.length ∧ rsCode F16 unit16.rsR.toNat (List.replicate 15 0) ∧
      elevenWord ≠ List.replicate 15 0) :=
  ⟨input_inv unit16_inv (by decide), rfl, rfl, by decide, by decide, by decide +kernel, by decide,
    ⟨rfl, ⟨by decide, by unfold rsCodeMember; decide +kernel⟩, by decide +kernel⟩,
    rfl, ⟨by decide, by unfold rsCodeMember; decide +kernel⟩, by decide⟩

/-- Two symbol errors, the capacity of r = 4 (V-RS-7). -/
theorem witness_RsDecCorrectsUpToCapacity :
    (input unit16 eleven).Inv ∧ (∃ t, exec .rsEnc (input unit16 eleven) = .next t ∧
      (t.code, t.obuf.readRange 0 t.olen.toNat) = (.ok, some elevenWord)) ∧
    (input unit16 eleven).ibuf.readRange 0 (input unit16 eleven).ilen.toNat = some eleven ∧
    elevenReceived.length = elevenWord.length ∧
    (∀ b ∈ elevenReceived, b.toNat < 2 ^ (input unit16 eleven).gfM.toNat) ∧
    distance elevenReceived elevenWord = 2 ∧ 2 ≤ (input unit16 eleven).rsR.toNat / 2 :=
  ⟨input_inv unit16_inv (by decide),
    next_of_after (f := fun t => (t.code, t.obuf.readRange 0 t.olen.toNat)) (by decide +kernel), by decide +kernel, rfl, by decide,
    by decide +kernel, by decide⟩

theorem witness_RsRoundTripReturnsThePayload :
    (input unit16 eleven).Inv ∧ (∃ t, exec .rsEnc (input unit16 eleven) = .next t ∧ t.code = .ok) ∧
    (input unit16 eleven).ibuf.readRange 0 (input unit16 eleven).ilen.toNat = some eleven :=
  ⟨input_inv unit16_inv (by decide), next_of_after (f := State.code) (by decide +kernel), by decide +kernel⟩

theorem witness_DivisionByZeroOnlyFromGfInvAndGfLog :
    unit16.Inv ∧ (∃ t, exec .gfInv unit16 = .next t ∧ t.code = .errDiv0) ∧ ∃ t, exec .gfLog unit16 = .next t ∧ t.code = .errDiv0 :=
  ⟨unit16_inv, next_of_after (f := State.code) (by decide +kernel), next_of_after (f := State.code) (by decide +kernel)⟩

/-- The field of the GF(32) states. -/
def F32 : Field := { m := 5, tables := gf32 }

/-- The clauses of `BCH.CFG`: t = 0, t = 16 in GF(32), t = 2 in GF(16) (p = 8), and t = 2 in GF(32) (V-BCH-2). -/
theorem witness_BchCfgOutcome :
    State.reset.gfValid = false ∧ (field32.field = some F32 ∧ field32.bchT.toNat < 1) ∧
    2 ^ F32.m - 1 - 1 < 2 * { field32 with bchT := 16 }.bchT.toNat ∧
    (field16.field = some F16 ∧ 2 ^ F16.m - 1 < (bchGenerator F16 { field16 with bchT := 2 }.bchT.toNat).log2 + 8) ∧
    (1 ≤ bch32.bchT.toNat ∧ 2 * bch32.bchT.toNat ≤ 2 ^ F32.m - 1 - 1 ∧
      (bchGenerator F32 bch32.bchT.toNat).log2 + 8 ≤ 2 ^ F32.m - 1) := by decide +kernel

/-- The clauses of `BCH.ENC` at the lengths 0, 2 and 3 (V-BCH-12). -/
theorem witness_BchEncResult :
    State.reset.bchValid = false ∧ bch32.field = some F32 ∧ bch32.bchGen = some 0x769 ∧ bch32.bchP = some 10 ∧
    bch32.ilen.toNat = 0 ∧
    ({ bch32 with ilen := 3 }.ilen.toNat ≠ 0 ∧ 2 ^ F32.m - 1 < 8 * { bch32 with ilen := 3 }.ilen.toNat + (10 : Word).toNat) ∧
    ((input bch32 [0xFF, 0xFF]).ilen.toNat ≠ 0 ∧ 8 * (input bch32 [0xFF, 0xFF]).ilen.toNat + (10 : Word).toNat ≤ 2 ^ F32.m - 1 ∧
      (input bch32 [0xFF, 0xFF]).ibuf.readRange 0 (input bch32 [0xFF, 0xFF]).ilen.toNat = some [0xFF, 0xFF]) := by
  decide +kernel

/-- The clauses of `BCH.DEC` at the lengths 0, 2, 5 and 3 (V-BCH-4, V-BCH-12). -/
theorem witness_BchDecReturnsCleanWordsUnchanged :
    State.reset.bchValid = false ∧ bch32.field = some F32 ∧ bch32.bchGen = some 0x769 ∧ bch32.bchP = some 10 ∧
    bch32.ilen.toNat = 0 ∧
    ({ bch32 with ilen := 2 }.ilen.toNat ≠ 0 ∧ { bch32 with ilen := 2 }.ilen.toNat ≤ ((10 : Word).toNat + 7) / 8) ∧
    2 ^ F32.m - 1 < 8 * ({ bch32 with ilen := 5 }.ilen.toNat - ((10 : Word).toNat + 7) / 8) + (10 : Word).toNat ∧
    (((10 : Word).toNat + 7) / 8 < (input bch32 [0xA5, 0xFF, 0xFF]).ilen.toNat ∧
      8 * ((input bch32 [0xA5, 0xFF, 0xFF]).ilen.toNat - ((10 : Word).toNat + 7) / 8) + (10 : Word).toNat ≤ 2 ^ F32.m - 1 ∧
      (input bch32 [0xA5, 0xFF, 0xFF]).ibuf.readRange 0 (input bch32 [0xA5, 0xFF, 0xFF]).ilen.toNat = some [0xA5, 0xFF, 0xFF] ∧
      ∀ v ∈ bchSyndromes F32 bch32.bchT.toNat ((bitStream [0xA5, 0xFF, 0xFF]).take 18), v = 0) := by decide +kernel

/-- The hypotheses of `BchDecLocatesOrGivesUp` other than the clauses' own. -/
def bchDecoding (s : State) (F : Field) (g : Nat) (p : Word) (D : List Byte) (S lam : List Nat) (k N len : Nat) : Prop :=
  s.field = some F ∧ s.bchGen = some g ∧ s.bchP = some p ∧ k = s.ilen.toNat - (p.toNat + 7) / 8 ∧ N = 8 * k + p.toNat ∧ 1 ≤ k ∧
  N ≤ 2 ^ F.m - 1 ∧ s.ibuf.readRange 0 s.ilen.toNat = some D ∧ S = bchSyndromes F s.bchT.toNat ((bitStream D).take N) ∧
  ¬(∀ v ∈ S, v = 0) ∧ bm F S (2 * s.bchT.toNat) = .ok (lam, len)

/-- A locator of degree 3, above t = 2. -/
theorem witness_BchDecLocatesOrGivesUp_degree :
    bchDecoding (input bch32 [0xC0, 0x02, 0x00]) F32 0x769 10 [0xC0, 0x02, 0x00] [0, 0, 5, 0] [1, 0, 0, 5, 0] 1 18 3 ∧
    bch32.bchT.toNat < polyDegree [1, 0, 0, 5, 0] := by
  refine ⟨⟨?_, ?_, ?_, ?_, ?_, ?_, ?_, ?_, ?_, ?_, ?_⟩, ?_⟩ <;> decide +kernel

/-- V-BCH-9: no root. -/
theorem witness_BchDecLocatesOrGivesUp_roots :
    bchDecoding (input bch32 [0x45, 0xFF, 0xC0]) F32 0x769 10 [0x45, 0xFF, 0xC0] [23, 24, 2, 7] [1, 23, 18, 0, 0] 1 18 2 ∧
    rootPositions F32 [1, 23, 18, 0, 0] 2 18 (List.range 18) = .ok [] ∧
    ([] : List Nat).length ≠ polyDegree [1, 23, 18, 0, 0] := by
  refine ⟨⟨?_, ?_, ?_, ?_, ?_, ?_, ?_, ?_, ?_, ?_, ?_⟩, ?_⟩ <;> decide +kernel

/-- V-BCH-6: two roots. -/
theorem witness_BchDecLocatesOrGivesUp_corrects :
    bchDecoding (input bch32 [0xB5, 0xFF, 0x40]) F32 0x769 10 [0xB5, 0xFF, 0x40] [31, 18, 15, 9] [1, 31, 31, 0, 0] 1 18 2 ∧
    polyDegree [1, 31, 31, 0, 0] ≤ bch32.bchT.toNat ∧ polyDegree [1, 31, 31, 0, 0] = 2 ∧
    rootPositions F32 [1, 31, 31, 0, 0] 2 18 (List.range 18) = .ok [3, 16] := by
  refine ⟨⟨?_, ?_, ?_, ?_, ?_, ?_, ?_, ?_, ?_, ?_, ?_⟩, ?_⟩ <;> decide +kernel

theorem witness_BchPadBitsAreZeroAndIgnored :
    (unit16.Inv ∧ unit16.field = some F16 ∧ unit16.bchGen = some 0x13 ∧ unit16.bchP = some 4 ∧
      8 * [(0xA5 : Byte)].length + (4 : Word).toNat ≤ 12) ∧
    ([(0xA5 : Byte), 0xB0].length = 1 + bytesFor 4 ∧ [(0xA5 : Byte), 0xBF].length = 1 + bytesFor 4 ∧
      codeBits [0xA5, 0xB0] (8 * 1 + 4) = codeBits [0xA5, 0xBF] (8 * 1 + 4)) :=
  ⟨⟨unit16_inv, rfl, rfl, rfl, by decide⟩, by decide⟩

/-- The code bits of `A5 B0` and of `00 00`, and a word one bit from the first (V-BCH-3, V-BCH-5). -/
theorem witness_BchDecIsABoundedDistanceDecoder :
    (input unit16 [0xA5, 0x90]).Inv ∧ (input unit16 [0xA5, 0x90]).field = some F16 ∧ unit16.bchGen = some 0x13 ∧
    unit16.bchP = some 4 ∧ (input unit16 [0xA5, 0x90]).ilen.toNat = 1 + ((4 : Word).toNat + 7) / 8 ∧ 12 = 8 * 1 + (4 : Word).toNat ∧
    1 ≤ 1 ∧ 12 ≤ 2 ^ F16.m - 1 ∧
    (input unit16 [0xA5, 0x90]).ibuf.readRange 0 (input unit16 [0xA5, 0x90]).ilen.toNat = some [0xA5, 0x90] ∧
    (((bitStream [0xA5, 0xB0]).take 12).length = 12 ∧ bchCode 0x13 ((bitStream [0xA5, 0xB0]).take 12) ∧
      distance ((bitStream [0xA5, 0x90]).take 12) ((bitStream [0xA5, 0xB0]).take 12) ≤ unit16.bchT.toNat) ∧
    (((bitStream [0, 0]).take 12).length = 12 ∧ bchCode 0x13 ((bitStream [0, 0]).take 12) ∧
      (bitStream [0xA5, 0xB0]).take 12 ≠ (bitStream [0, 0]).take 12) :=
  ⟨input_inv unit16_inv (by decide), rfl, rfl, rfl, by decide, by decide, le_refl 1, by decide, by decide +kernel,
    ⟨by decide, ⟨0xb9, by decide +kernel⟩, by decide +kernel⟩, by decide, ⟨0, by decide +kernel⟩, by decide⟩

/-- Two flipped code bits, the capacity of t = 2, and every pad bit flipped (V-BCH-6, V-BCH-4). -/
theorem witness_BchDecCorrectsUpToCapacity :
    (input bch32 [0xA5]).Inv ∧ (input bch32 [0xA5]).bchP = some 10 ∧ (∃ t, exec .bchEnc (input bch32 [0xA5]) = .next t ∧
      (t.code, t.obuf.readRange 0 t.olen.toNat) = (.ok, some [0xA5, 0xFF, 0xC0])) ∧
    (input bch32 [0xA5]).ibuf.readRange 0 (input bch32 [0xA5]).ilen.toNat = some [0xA5] ∧
    [(0xB5 : Byte), 0xFF, 0x7F].length = [(0xA5 : Byte), 0xFF, 0xC0].length ∧
    18 = 8 * (input bch32 [0xA5]).ilen.toNat + (10 : Word).toNat ∧
    distance ((bitStream [0xB5, 0xFF, 0x7F]).take 18) ((bitStream [0xA5, 0xFF, 0xC0]).take 18) = 2 ∧
    2 ≤ (input bch32 [0xA5]).bchT.toNat :=
  ⟨input_inv bch32_inv (by decide), rfl,
    next_of_after (f := fun t => (t.code, t.obuf.readRange 0 t.olen.toNat)) (by decide +kernel), by decide +kernel, rfl, by decide,
    by decide +kernel, by decide⟩

theorem witness_BchRoundTripReturnsThePayload :
    (input unit16 [0xA5]).Inv ∧ (∃ t, exec .bchEnc (input unit16 [0xA5]) = .next t ∧ t.code = .ok) ∧
    (input unit16 [0xA5]).ibuf.readRange 0 (input unit16 [0xA5]).ilen.toNat = some [0xA5] :=
  ⟨input_inv unit16_inv (by decide), next_of_after (f := State.code) (by decide +kernel), by decide +kernel⟩

theorem witness_CommandsWriteOnlyTheirRegisters :
    (∃ t, exec .gfMul { unit16 with opa := 7, opb := 9 } = .next t ∧ t.code = .ok) ∧ writesRes .bchCfg = false ∧
    writesOutput .gfMul = false ∧ Instr.gfMul ≠ .bchCfg ∧ Instr.gfMul ≠ .gfBuild :=
  ⟨next_of_after (f := State.code) (by decide +kernel), by decide⟩

theorem witness_ValidFlagsFollowConstruction :
    (∃ t, exec .gfBuild unit16 = .next t ∧ t.code = .ok) ∧ (∃ t, exec .crcCfg unit16 = .next t ∧ t.code = .ok) ∧
    (∃ t, exec .rsCfg unit16 = .next t ∧ t.code = .ok) ∧ (∃ t, exec .bchCfg unit16 = .next t ∧ t.code = .ok) ∧
    (∃ t, exec .gfMul unit16 = .next t ∧ t.code = .ok) ∧ (unit16.hostRegWrite 0x0C 1).bchValid = true :=
  ⟨next_of_after (f := State.code) (by decide +kernel), next_of_after (f := State.code) (by decide +kernel),
    next_of_after (f := State.code) (by decide +kernel), next_of_after (f := State.code) (by decide +kernel),
    next_of_after (f := State.code) (by decide +kernel), by decide +kernel⟩

/-- A raising construction command of each unit, and a raising command of the others. -/
theorem witness_RaisedCommandsChangeNothingElse :
    decode 0x00000007 = .error .unassignedFunction ∧
    (∃ t, exec .gfBuild { unit16 with gfPoly := 0x12 } = .next t ∧ t.code = .errInvalidPoly) ∧
    (∃ t, exec .crcCfg { unit16 with crcWidth := 0 } = .next t ∧ t.code = .errConfig) ∧
    (∃ t, exec .rsCfg { unit16 with rsR := 15 } = .next t ∧ t.code = .errConfig) ∧
    (∃ t, exec .bchCfg { unit16 with bchT := 2 } = .next t ∧ t.code = .errConfig) ∧
    (∃ t, exec .gfInv unit16 = .next t ∧ t.code = .errDiv0) :=
  ⟨by decide, next_of_after (f := State.code) (by decide +kernel), next_of_after (f := State.code) (by decide +kernel),
    next_of_after (f := State.code) (by decide +kernel), next_of_after (f := State.code) (by decide +kernel),
    next_of_after (f := State.code) (by decide +kernel)⟩

theorem witness_ResultDescribesTheLatestCommand :
    (∃ t, exec .gfInv unit16 = .next t ∧ t.code = .errDiv0) ∧
    (∃ t, exec .crcDec (input { unit16 with opa := 0x8CCA } testBytes) = .next t ∧ t.result = Result.ofMatch true) ∧
    (∃ t, exec .rsDec (input unit16 elevenWord) = .next t ∧ t.result = Result.clean) ∧
    (∃ t, exec .bchDec (input unit16 [0xA5, 0x90]) = .next t ∧ t.result = Result.repaired) :=
  ⟨next_of_after (f := State.code) (by decide +kernel), next_of_after (f := State.result) (by decide +kernel),
    next_of_after (f := State.result) (by decide +kernel), next_of_after (f := State.result) (by decide +kernel)⟩

/-- Each code a command can raise, raised. -/
theorem witness_CommandsRaiseOnlyTheirCodes :
    (∃ t, exec .rsCfg { unit16 with rsR := 15 } = .next t ∧ t.code = .errConfig) ∧
    (∃ t, exec .gfBuild { unit16 with gfPoly := 0x1F } = .next t ∧ t.code = .errInvalidPoly) ∧
    (∃ t, exec .crcEnc unit16 = .next t ∧ t.code = .errEmpty) ∧
    (∃ t, exec .rsEnc { unit16 with ilen := 12 } = .next t ∧ t.code = .errLength) ∧
    (∃ t, exec .gfMul State.reset = .next t ∧ t.code = .errNotConfigured) ∧
    (∃ t, exec .gfAlog { unit16 with opa := 16 } = .next t ∧ t.code = .errOperand) ∧
    (∃ t, exec .gfLog unit16 = .next t ∧ t.code = .errDiv0) :=
  ⟨next_of_after (f := State.code) (by decide +kernel), next_of_after (f := State.code) (by decide +kernel),
    next_of_after (f := State.code) (by decide +kernel), next_of_after (f := State.code) (by decide +kernel),
    next_of_after (f := State.code) (by decide +kernel), next_of_after (f := State.code) (by decide +kernel),
    next_of_after (f := State.code) (by decide +kernel)⟩

theorem witness_OutputBufferAfterCommands :
    (input unit16 eleven).Inv ∧ (∃ t, exec .rsEnc (input unit16 eleven) = .next t ∧ t.code = .ok) ∧
    (input unit16 [1, 2, 3, 4, 5]).Inv ∧
    (∃ t, exec .rsDec (input unit16 [1, 2, 3, 4, 5]) = .next t ∧ t.result.tag = .uncorrectable) ∧
    (∃ t, exec .gfMul (input unit16 eleven) = .next t ∧ t.code = .ok) ∧ writesOutput .gfMul = false :=
  ⟨input_inv unit16_inv (by decide), next_of_after (f := State.code) (by decide +kernel), input_inv unit16_inv (by decide),
    next_of_after (f := fun t => t.result.tag) (by decide +kernel), next_of_after (f := State.code) (by decide +kernel), rfl⟩

theorem witness_EveryCommandCompletes :
    (input unit16 eleven).Inv ∧ readsInput .rsEnc = true ∧ (input unit16 eleven).inputWritten :=
  ⟨input_inv unit16_inv (by decide), rfl, fun _ => by decide +kernel⟩

/-- The input range has one byte more than was written: each of the six commands stops, at lengths its checks accept. -/
theorem witness_UnwrittenInputStopsTheCommand :
    ({ input unit16 [1] with ilen := 2 }.Inv ∧ exec .crcEnc { input unit16 [1] with ilen := 2 } = .fault .unwrittenInput) ∧
    (1 < { input unit16 [1] with ilen := 2 }.ilen.toNat ∧ { input unit16 [1] with ilen := 2 }.ibuf.read 1 = none ∧
      unit16.crcValid = true ∧ { input unit16 [1] with ilen := 2 }.ilen.toNat ≤ 8192) ∧
    (unit16.field = some F16 ∧ unit16.rsGen = some [1, 15, 3, 1, 12] ∧
      { input unit16 [1] with ilen := 11 }.ilen.toNat + unit16.rsR.toNat ≤ 2 ^ F16.m - 1 ∧
      unit16.rsR.toNat < { input unit16 [1] with ilen := 15 }.ilen.toNat ∧
      { input unit16 [1] with ilen := 15 }.ilen.toNat ≤ 2 ^ F16.m - 1) ∧
    (unit16.bchGen = some 0x13 ∧ unit16.bchP = some 4 ∧
      8 * { unit16 with ilen := 1 }.ilen.toNat + (4 : Word).toNat ≤ 2 ^ F16.m - 1 ∧ unit16.ibuf.read 0 = none ∧
      ((4 : Word).toNat + 7) / 8 < { input unit16 [1] with ilen := 2 }.ilen.toNat ∧
      8 * ({ input unit16 [1] with ilen := 2 }.ilen.toNat - ((4 : Word).toNat + 7) / 8) + (4 : Word).toNat ≤ 2 ^ F16.m - 1) :=
  ⟨⟨{ input_inv unit16_inv (D := [1]) (by decide) with }, rfl⟩, by decide +kernel, by decide +kernel, by decide +kernel⟩

theorem witness_EveryStepKeepsTheInvariant :
    { unit16 with pending := [.command 0x01] }.Inv ∧ ∃ t, step { unit16 with pending := [.command 0x01] } = .next t ∧ t.code = .ok :=
  ⟨{ unit16_inv with }, next_of_after (i := .gfBuild) (s := unit16) (f := State.code) (by decide +kernel)⟩

theorem witness_ValidCodecsHaveTheirField :
    (unit16.rsValid = true → unit16.gfValid = true) ∧ (unit16.bchValid = true → unit16.gfValid = true) ∧
    ∃ t, step { unit16 with pending := [.command 0x01] } = .next t ∧ t.code = .ok :=
  ⟨fun _ => rfl, fun _ => rfl, next_of_after (i := .gfBuild) (s := unit16) (f := State.code) (by decide +kernel)⟩

end Sys2Proof.Tests
end

section
/-! PROOFS. The bit stream (00_scope.md, R11). -/

namespace Sys2Proof.Machine

/-- Settles O24: the length and the bits of a stream are those of the laws `bitStream_length` and
`getElem?_bitStream`, each an induction over the bytes; `bitAt` is R11's formula by definition. -/
theorem bitStreamIsMostSignificantFirst : Obligations.BitStreamIsMostSignificantFirst := by
  intro D
  constructor
  · exact bitStream_length D
  · intro i hi
    rw [Algebra.getElem?_bitStream D hi, bitAt]

end Sys2Proof.Machine
end

section
/-! PROOFS. The invariant (10_state.md, R28; 20_memory.md, R65, R72): it holds at reset and each operation on the state, and
so each step, keeps it. -/

namespace Sys2Proof.Machine

/-! ## The invariant under the operations on the state

An operation that leaves the fields of a clause alone keeps that clause as it stands: `{ hi with … }` names the others. -/

section Invariant
variable {s : State}

theorem State.Inv.raise (hi : s.Inv) (c : Code) : (s.raise c).Inv :=
  { hi with
    resultLegal := .inl rfl
    raisedResult := fun _ => rfl
    gaveUpOutput := nofun }

theorem State.Inv.completeWith (hi : s.Inv) {r : Result} (hr : r.legal) (hout : r.tag = .uncorrectable → s.olen = 0) :
    (s.completeWith r).Inv :=
  { hi with
    resultLegal := hr
    raisedResult := fun h => absurd rfl h
    gaveUpOutput := hout }

theorem State.Inv.complete (hi : s.Inv) : s.complete.Inv := hi.completeWith (.inl rfl) nofun

theorem State.Inv.setRes (hi : s.Inv) (v : Nat) : (s.setRes v).Inv := { hi with }

/-- An output and its `RESULT` belong together: between the two updates an older `UNCORRECTABLE` may stand beside a new output. -/
theorem State.Inv.setOutput_completeWith (hi : s.Inv) {out : List Byte} {r : Result} (hlen : out.length ≤ Config.bufBytes)
    (hr : r.legal) (hout : r.tag = .uncorrectable → out = []) : ((s.setOutput out).completeWith r).Inv :=
  { hi with
    output := ⟨out, rfl, rfl, hlen⟩
    resultLegal := hr
    raisedResult := fun h => absurd rfl h
    gaveUpOutput := fun h => by rw [completeWith_olen, setOutput_olen, hout h]; rfl }

theorem State.Inv.reportDecode (hi : s.Inv) {o : Decoded} (hlen : o.payload.length ≤ Config.bufBytes) :
    (s.reportDecode o).Inv := by
  obtain ⟨r, e, hr⟩ := State.reportDecode_eq o s
  rw [e]
  rcases hr with rfl | rfl | ⟨rfl, hnil⟩
  · exact hi.setOutput_completeWith hlen (by simp [Result.legal]) nofun
  · exact hi.setOutput_completeWith hlen (by simp [Result.legal]) nofun
  · exact hi.setOutput_completeWith hlen (by simp [Result.legal]) fun _ => hnil

/-- With no field and no generator the field's registers may hold anything (R36). -/
theorem State.Inv.clearField (hi : s.Inv) (m P : Word) : ({ s with gfM := m, gfPoly := P }.clearField).Inv :=
  { hi with
    tablesBuilt := nofun
    rsBuilt := nofun
    bchBuilt := nofun }

/-- With `CRC_VALID` 0 the CRC registers may hold anything (R36). -/
theorem State.Inv.clearCrc (hi : s.Inv) (w p i x : Word) :
    ({ s with crcWidth := w, crcPoly := p, crcInit := i, crcXorout := x }.clearCrc).Inv :=
  { hi with crcLegal := nofun }

/-- With no generator `RS_R` may hold anything (R36). -/
theorem State.Inv.clearRs (hi : s.Inv) (r : Word) : ({ s with rsR := r }.clearRs).Inv :=
  { hi with rsBuilt := nofun }

/-- With no generator `BCH_T` and `BCH_P` may hold anything (R36, R297). -/
theorem State.Inv.clearBch (hi : s.Inv) (t : Word) (p : Option Word) : ({ s with bchT := t, bchP := p }.clearBch).Inv :=
  { hi with bchBuilt := nofun }

/-! ## The invariant under the construction commands -/

theorem State.Inv.fieldBuilt (hi : s.Inv) {T : Tables} (h : buildTables s.gfM.toNat s.gfPoly.toNat = .ok T) :
    State.Inv { s.clearField with tables := some T } :=
  { hi with
    tablesBuilt := fun _ hT => Option.some.inj hT ▸ h
    rsBuilt := nofun
    bchBuilt := nofun }

theorem State.Inv.crcAccepted (hi : s.Inv) (h : s.crcConfigLegal = true) :
    State.Inv { s.clearCrc with crcValid := true } :=
  { hi with crcLegal := fun _ => h }

theorem State.Inv.rsGenerated (hi : s.Inv) {F : Field} (hF : s.field = some F) (hm : F.m ≤ Config.rsMMax)
    (hpos : 1 ≤ s.rsR.toNat) (hfits : s.rsR.toNat ≤ F.order - 1) :
    State.Inv { s.clearRs with rsGen := some (rsGenerator F s.rsR.toNat) } :=
  { hi with rsBuilt := fun _ hg => ⟨F, hF, hm, hpos, hfits, (Option.some.inj hg).symm⟩ }

theorem State.Inv.bchGenerated (hi : s.Inv) {F : Field} (hF : s.field = some F) (hpos : 1 ≤ s.bchT.toNat)
    (hfits : 2 * s.bchT.toNat ≤ F.order - 1) (hroom : intDegree (bchGenerator F s.bchT.toNat) + 8 ≤ F.order) :
    State.Inv { s.clearBch with
      bchGen := some (bchGenerator F s.bchT.toNat)
      bchP := some (BitVec.ofNat 32 (intDegree (bchGenerator F s.bchT.toNat))) } :=
  { hi with
    bchBuilt := fun g hg => by
      obtain rfl := Option.some.inj hg
      exact ⟨F, hF, hpos, hfits, rfl, hroom, rfl⟩ }

/-! ## The invariant under the codec commands: the payload of a decode fits `OBUF` (R65) -/

theorem State.Inv.rsPayload_fits (hi : s.Inv) {F : Field} {g : List Nat} {r : Nat} {D : List Byte} {o : Decoded}
    (hF : s.field = some F) (hg : s.rsGen = some g) (hfits : s.ilen.toNat ≤ F.order)
    (hD : s.ibuf.readRange 0 s.ilen.toNat = some D) (ho : rsDecode F r (symbols D) = .ok o) :
    o.payload.length ≤ Config.bufBytes := by
  have hbuf : s.ilen.toNat ≤ 8192 :=
    hi.inputFits_buffer (i := .rsDec) (.inr (.inl ⟨.inr rfl, by simp [hg], F, hF, hfits⟩))
  have hpay := rsDecode_payload_length ho
  rw [symbols_length, readRange_length hD] at hpay
  exact hpay.trans ((Nat.sub_le _ _).trans hbuf)

theorem State.Inv.bchPayload_fits (hi : s.Inv) {F : Field} {t p k : Nat} {D : List Byte} {o : Decoded}
    (hF : s.field = some F) (hfits : 8 * k + p ≤ F.order) (ho : bchDecode F t p k D = .ok o) :
    o.payload.length ≤ Config.bufBytes := by
  have horder := Field.order_le (hi.field_bounds hF).2
  have hpay := bchDecode_payload_length ho
  simp only [Config.bufBytes]
  omega

/-- Every command keeps the invariant. -/
theorem State.Inv.exec (hi : s.Inv) {i : Instr} {t : State} (h : exec i s = .next t) : t.Inv := by
  cases exec_effect h with
  | raised => exact hi.raise _
  | fieldRejected => exact (hi.clearField s.gfM s.gfPoly).raise _
  | fieldBuilt built => exact (hi.fieldBuilt built).complete
  | crcRejected => exact (hi.clearCrc s.crcWidth s.crcPoly s.crcInit s.crcXorout).raise _
  | crcAccepted legal => exact (hi.crcAccepted legal).complete
  | rsRejected => exact (hi.clearRs s.rsR).raise _
  | rsBuilt field small pos fits => exact (hi.rsGenerated field small pos fits).complete
  | bchRejected => exact (hi.clearBch s.bchT none).raise _
  | bchBuilt field pos fits room => exact (hi.bchGenerated field pos fits room).complete
  | resWritten => exact (hi.setRes _).complete
  | crcChecked =>
    next v b =>
    refine (hi.setRes v).completeWith ?_ nofun
    cases b with
    | false => exact .inl rfl
    | true => exact .inr (.inl rfl)
  | rsEncoded field gen _ fits input =>
    exact hi.setOutput_completeWith (hi.output_fits.1 field gen fits (readRange_length input)) (.inl rfl) nofun
  | rsDecoded field gen _ fits input result => exact hi.reportDecode (hi.rsPayload_fits field gen fits input result)
  | bchEncoded field gen _ _ fits input =>
    exact hi.setOutput_completeWith (hi.output_fits.2 field gen fits (readRange_length input)) (.inl rfl) nofun
  | bchDecoded field _ _ _ fits _ result => exact hi.reportDecode (hi.bchPayload_fits field fits result)

/-! ## The invariant under the host's accesses -/

theorem State.Inv.writeReg (hi : s.Inv) (v : Word) (r : Reg) : (s.writeReg v r).Inv := by
  cases r with
  | opa | opb | ilen => exact { hi with }
  | gfM => exact hi.clearField v s.gfPoly
  | gfPoly => exact hi.clearField s.gfM v
  | crcWidth => exact hi.clearCrc v s.crcPoly s.crcInit s.crcXorout
  | crcPoly => exact hi.clearCrc s.crcWidth v s.crcInit s.crcXorout
  | crcInit => exact hi.clearCrc s.crcWidth s.crcPoly v s.crcXorout
  | crcXorout => exact hi.clearCrc s.crcWidth s.crcPoly s.crcInit v
  | rsR => exact hi.clearRs v
  | bchT => exact hi.clearBch v s.bchP
  | cmd | status | result | res | olen | bchP => exact hi

theorem State.Inv.hostRegWrite (hi : s.Inv) (off : Nat) (v : Word) : (s.hostRegWrite off v).Inv := by
  rcases s.hostRegWrite_cases off v with ⟨r, -, e⟩ | e <;> rw [e]
  · exact hi.writeReg v r
  · exact hi

theorem State.Inv.hostBufWrite (hi : s.Inv) (b : Buf) {i : Nat} (v : Byte) (hin : i < Config.bufBytes) :
    (s.hostBufWrite b i v).Inv := by
  cases b with
  | obuf => exact hi
  | ibuf =>
    exact { hi with
      ibufWf := Memory.write_wf i v hi.ibufWf
      ibufInside := fun c hc => (Memory.mem_write hc).elim (fun h => h ▸ hin) (hi.ibufInside c) }

theorem State.Inv.hostRead (hi : s.Inv) {t : State}
    (h : (∃ off, t = s.hostRegRead off) ∨ ∃ b i, t = s.hostBufRead b i) : t.Inv := by
  obtain ⟨v, d, rfl⟩ := State.hostRead_frame h
  exact { hi with }

end Invariant

/-- Settles O59: each case of `step_cases` is an operation on the state with the access taken off the list, and each
operation keeps the invariant. -/
theorem everyStepKeepsTheInvariant : Obligations.EveryStepKeepsTheInvariant := by
  intro s t hi hstep
  rcases step_cases hstep with ⟨-, rfl⟩ | ⟨a, rest, -, hdefined, hcase⟩
  · exact hi
  have hi' : State.Inv { s with pending := rest } := { hi with }
  rcases hcase with ⟨w, i, -, -, hexec⟩ | ⟨w, e, -, -, rfl⟩ | ⟨off, v, -, -, rfl⟩ | ⟨off, -, ht⟩ | ⟨b, i, -, ht⟩ |
    ⟨b, i, v, hwrite, rfl⟩
  · exact hi'.exec hexec
  · exact hi'.raise _
  · exact hi'.hostRegWrite off v
  · exact hi'.hostRead (.inl ⟨off, ht⟩)
  · exact hi'.hostRead (.inr ⟨b, i, ht⟩)
  · exact hi'.hostBufWrite b v (PortAccess.bufWrite_inside hdefined hwrite)

/-- Settles O58: at reset no table, generator or buffer byte holds a value, so every clause about one is empty. -/
theorem invariantHoldsAtReset : Obligations.InvariantHoldsAtReset where
  tablesBuilt := nofun
  crcLegal := nofun
  rsBuilt := nofun
  bchBuilt := nofun
  ibufWf := .nil
  ibufInside := nofun
  output := ⟨[], rfl, rfl, Nat.zero_le _⟩
  resultLegal := .inl rfl
  raisedResult := fun _ => rfl
  gaveUpOutput := nofun

end Sys2Proof.Machine
end

section
/-! PROOFS. The words and the accesses of the host (10_state.md, 20_memory.md): one step of each access, what a register write
leaves, the fields of `STATUS` and `RESULT`. -/

namespace Sys2Proof.Machine

/-! ## The step, by the access the host makes -/

theorem step_of_pending {s : State} {a : PortAccess} {rest : List PortAccess} (h : s.pending = a :: rest) :
    step s = runAccess a { s with pending := rest } := by
  simp only [step, runNext, h]

theorem step_refused {s : State} {a : PortAccess} {rest : List PortAccess} {why : AccessProblem}
    (h : s.pending = a :: rest) (hwhy : a.problem = some why) : step s = .refused (.undefinedAccess why) := by
  rw [step_of_pending h, runAccess, hwhy]

theorem step_defined {s : State} {a : PortAccess} {rest : List PortAccess} (h : s.pending = a :: rest)
    (hok : a.problem = none) : step s = runHostStep a.hostStep { s with pending := rest } := by
  rw [step_of_pending h, runAccess, hok]

theorem step_command {s : State} {w : Word} {rest : List PortAccess} (h : s.pending = .command w :: rest) :
    step s = runCommand w { s with pending := rest } :=
  step_defined h rfl

theorem runCommand_of_decode {w : Word} {i : Instr} (h : decode w = .ok i) (s : State) : runCommand w s = exec i s := by
  rw [runCommand, h]

/-! ## The accesses, sorted -/

/-- A 32-bit access below `IBUF` is one of the register primitives where it is aligned (R62, R63). -/
theorem PortAccess.problem_register {a : PortAccess} (hw : a.width = 32) (hoff : a.offset < 0x2000) :
    a.problem = if a.offset % 4 ≠ 0 then some .misalignedRegister else none := by
  have hend : ¬ spaceEnd ≤ a.offset := by simp only [spaceEnd]; omega
  simp [PortAccess.problem, hend, hoff, hw]

/-- An 8-bit access to a byte of a buffer is one of the buffer primitives, or the write to `OBUF` (R60, R62, R63). -/
theorem PortAccess.problem_buffer {a : PortAccess} {i : Nat} (hw : a.width = 8)
    (hoff : a.offset = ibufBase + i ∨ a.offset = obufBase + i) (hi : i < 8192) : a.problem = none := by
  simp only [ibufBase, obufBase] at hoff
  have hend : ¬ spaceEnd ≤ a.offset := by simp only [spaceEnd]; omega
  have hbuf : ¬ a.offset < ibufBase := by simp only [ibufBase]; omega
  simp [PortAccess.problem, hend, hbuf, hw]

theorem PortAccess.hostStep_regWrite {off : Nat} (v : Word) (h : off < 0x2000) :
    (PortAccess.regWrite off v).hostStep = .regWrite off v := by
  simp [PortAccess.hostStep, PortAccess.regWrite, h]

theorem PortAccess.hostStep_regRead {off : Nat} (h : off < 0x2000) :
    (PortAccess.regRead off).hostStep = .regRead off := by
  simp [PortAccess.hostStep, PortAccess.regRead, h]

theorem PortAccess.hostStep_ibufWrite {i : Nat} (b : Byte) (h : i < 8192) :
    (PortAccess.ibufWrite i b).hostStep = .bufWrite .ibuf i b := by
  have hobuf : ibufBase + i < obufBase := by simp only [ibufBase, obufBase]; omega
  simp [PortAccess.hostStep, PortAccess.ibufWrite, hobuf]

theorem PortAccess.hostStep_ibufRead {i : Nat} (h : i < 8192) :
    (PortAccess.ibufRead i).hostStep = .bufRead .ibuf i := by
  have hobuf : ibufBase + i < obufBase := by simp only [ibufBase, obufBase]; omega
  simp [PortAccess.hostStep, PortAccess.ibufRead, hobuf]

theorem PortAccess.hostStep_obufWrite (i : Nat) (v : Word) :
    ({ isWrite := true, width := 8, offset := obufBase + i, data := v } : PortAccess).hostStep =
      .bufWrite .obuf i (v.setWidth 8) := by
  have hibuf : ¬ obufBase + i < ibufBase := by simp only [ibufBase, obufBase]; omega
  simp [PortAccess.hostStep, hibuf]

theorem PortAccess.hostStep_obufRead (i : Nat) : (PortAccess.obufRead i).hostStep = .bufRead .obuf i := by
  have hibuf : ¬ obufBase + i < ibufBase := by simp only [ibufBase, obufBase]; omega
  simp [PortAccess.hostStep, PortAccess.obufRead, hibuf]

/-- Settles O4: a write to `CMD` is a defined access, and its step is `runCommand`. -/
theorem stepRunsTheDecodedCommand : Obligations.StepRunsTheDecodedCommand := by
  intro s w i hw
  have hstep : ∀ {s : State} {rest}, s.pending = PortAccess.command w :: rest →
      step s = exec i { s with pending := rest } := fun h => (step_command h).trans (runCommand_of_decode hw _)
  refine ⟨fun rest h => hstep h, fun n => ?_⟩
  have hplaced : (s.withFetchWord n w.toNat).pending = .command w :: s.pending := by
    simp [State.withFetchWord]
  exact hstep hplaced

/-- Settles O5: each access is defined (`PortAccess.problem_register`, `PortAccess.problem_buffer`) and sorted into its
primitive (the `PortAccess.hostStep` lemmas). -/
theorem stepMakesTheNextHostAccess : Obligations.StepMakesTheNextHostAccess := by
  intro s rest
  refine ⟨fun h => ?_, fun off v hoff halign hcmd h => ?_, fun off hoff halign h => ?_, fun i b hi h => ?_,
    fun i hi h => ?_, fun i v hi h => ?_, fun i hi h => ?_⟩
  · simp only [step, runNext, h]
  · have hok := (PortAccess.problem_register (a := .regWrite off v) rfl hoff).trans (if_neg (not_not.2 halign))
    rw [step_defined h hok, PortAccess.hostStep_regWrite v hoff]
    exact if_neg hcmd
  · have hok := (PortAccess.problem_register (a := .regRead off) rfl hoff).trans (if_neg (not_not.2 halign))
    rw [step_defined h hok, PortAccess.hostStep_regRead hoff, runHostStep]
  · rw [step_defined h (PortAccess.problem_buffer rfl (.inl rfl) hi), PortAccess.hostStep_ibufWrite b hi, runHostStep,
      State.hostBufWrite]
  · rw [step_defined h (PortAccess.problem_buffer rfl (.inl rfl) hi), PortAccess.hostStep_ibufRead hi, runHostStep,
      State.hostBufRead, State.buffer]
  · rw [step_defined h (PortAccess.problem_buffer rfl (.inr rfl) hi), PortAccess.hostStep_obufWrite, runHostStep,
      State.hostBufWrite]
  · rw [step_defined h (PortAccess.problem_buffer rfl (.inr rfl) hi), PortAccess.hostStep_obufRead, runHostStep,
      State.hostBufRead, State.buffer]

/-! ## Register writes -/

/-- The last register stands at 0x40 (R21). -/
theorem Reg.offset_lt (r : Reg) : r.offset < 0x44 := by cases r <;> decide

theorem Reg.ofOffset_reserved {off : Nat} (h : 0x44 ≤ off) : Reg.ofOffset off = none := by
  cases hr : Reg.ofOffset off with
  | none => rfl
  | some r =>
    have := Reg.offset_of_ofOffset hr
    have := r.offset_lt
    omega

/-- A register the host writes reads back (R22, R23, R36). -/
theorem State.readReg_writeReg_self (s : State) (v : Word) {r : Reg}
    (h : r ≠ .cmd ∧ r ≠ .status ∧ r ≠ .result ∧ r ≠ .res ∧ r ≠ .olen ∧ r ≠ .bchP) :
    (s.writeReg v r).readReg r = some v := by
  cases r with
  | cmd | status | result | res | olen | bchP => simp at h
  | opa | opb | ilen | gfM | gfPoly | crcWidth | crcPoly | crcInit | crcXorout | rsR | bchT => rfl

/-- A register write reaches no other register but the flags of `STATUS`: two different registers are two fields. -/
theorem State.readReg_writeReg_ne (s : State) (v : Word) {r q : Reg} (hne : q ≠ r) (hq : q ≠ .status) :
    (s.writeReg v r).readReg q = s.readReg q := by
  cases r <;> cases q <;> trivial

/-- A register write keeps the completion code and both buffers. -/
theorem State.writeReg_frame (s : State) (v : Word) (r : Reg) :
    (s.writeReg v r).code = s.code ∧ (s.writeReg v r).ibuf = s.ibuf ∧ (s.writeReg v r).obuf = s.obuf := by
  cases r <;> exact ⟨rfl, rfl, rfl⟩

/-- Settles O7: the flags are those each register's `writeReg` clears; the rest is read-back and frame. -/
theorem configurationWritesClearFlags : Obligations.ConfigurationWritesClearFlags := by
  intro s v
  simp only [State.hostRegWrite_offset]
  refine ⟨?_, ?_, ⟨rfl, rfl, rfl, rfl⟩, ⟨rfl, rfl, rfl, rfl⟩, ?_, fun r hr => ?_⟩
  · rintro r (rfl | rfl) <;> exact ⟨rfl, rfl, rfl, rfl⟩
  · rintro r (rfl | rfl | rfl | rfl) <;> exact ⟨rfl, rfl, rfl, rfl⟩
  · rintro r (rfl | rfl | rfl) <;> rfl
  · obtain ⟨hcode, hibuf, hobuf⟩ := s.writeReg_frame v r
    have hself : r ≠ .cmd ∧ r ≠ .status ∧ r ≠ .result ∧ r ≠ .res ∧ r ≠ .olen ∧ r ≠ .bchP := by
      rcases hr with rfl | rfl | rfl | rfl | rfl | rfl | rfl | rfl | rfl | rfl | rfl <;> simp
    exact ⟨s.readReg_writeReg_self v hself, fun q hne hq => s.readReg_writeReg_ne v hne hq, hcode,
      fun j => by rw [hibuf], fun j => by rw [hobuf]⟩

/-- Settles O8: `writeReg` has no effect at the read-only registers, no register stands from 0x44 on, and an unaligned
register access is a problem of `PortAccess.problem_register`. -/
theorem readOnlyAndReservedIgnoreWrites : Obligations.ReadOnlyAndReservedIgnoreWrites := by
  intro s v
  refine ⟨?_, fun off hoff => ?_, fun off a rest hoff halign ha h => ?_⟩
  · intro r hr
    rw [State.hostRegWrite_offset]
    rcases hr with rfl | rfl | rfl | rfl | rfl <;> rfl
  · have hnone := Reg.ofOffset_reserved hoff
    exact ⟨by rw [State.hostRegWrite, hnone], by rw [State.hostRegRead, hnone, State.returnWord]⟩
  · refine step_refused h ?_
    rcases ha with rfl | rfl <;> exact (PortAccess.problem_register rfl hoff).trans (if_pos halign)

/-- Settles O10: read after write is the law `Memory.read_write`; no register is read from a buffer. -/
theorem bufferWritesReachOneByte : Obligations.BufferWritesReachOneByte := by
  intro s i v
  refine ⟨fun j => Memory.read_write s.ibuf i j v, fun j => rfl, fun r => ?_, rfl⟩
  cases r <;> rfl

/-! ## `STATUS` and `RESULT` as words -/

theorem Code.number_le (c : Code) : c.number ≤ 8 := by cases c <;> decide

theorem Tag.number_le (t : Tag) : t.number ≤ 2 := by cases t <;> decide

/-- The fields of a word, as digits of the number it is made of. -/
theorem toNat_extractLsb'_ofNat {n start len : Nat} (hn : n < 2 ^ 32) :
    ((BitVec.ofNat 32 n).extractLsb' start len).toNat = n / 2 ^ start % 2 ^ len := by
  rw [BitVec.extractLsb'_toNat, BitVec.toNat_ofNat, Nat.mod_eq_of_lt hn, Nat.shiftRight_eq_div_pow]

theorem extractLsb'_ofNat_eq_zero {n start len : Nat} (hn : n < 2 ^ 32) (h : n / 2 ^ start % 2 ^ len = 0) :
    (BitVec.ofNat 32 n).extractLsb' start len = 0 :=
  BitVec.eq_of_toNat_eq ((toNat_extractLsb'_ofNat hn).trans (h.trans BitVec.toNat_zero.symm))

theorem getLsbD_ofNat_eq {n i : Nat} {b : Bool} (hi : i < 32) (h : n / 2 ^ i % 2 = b.toNat) :
    (BitVec.ofNat 32 n).getLsbD i = b := by
  rw [BitVec.getLsbD_ofNat, Nat.testBit_eq_decide_div_mod_eq, h]
  cases b <;> simp [hi]

/-- Settles O11: each field is a digit of the number `statusWord` and `Result.word` are made of, whose parts do not overlap. -/
theorem statusAndResultReadAsTheirFields : Obligations.StatusAndResultReadAsTheirFields := by
  intro s
  refine ⟨rfl, ⟨s.statusWord, rfl, ?_⟩, ⟨s.result.word, rfl, ?_⟩⟩
  · have hcode := s.code.number_le
    have hgf := s.gfValid.toNat_le
    have hcrc := s.crcValid.toNat_le
    have hrs := s.rsValid.toNat_le
    have hbch := s.bchValid.toNat_le
    have hlow : (s.statusWord.extractLsb' 0 4).toNat = s.code.number := by
      rw [State.statusWord, toNat_extractLsb'_ofNat (by omega)]; omega
    refine ⟨extractLsb'_ofNat_eq_zero ?_ ?_, ?_, getLsbD_ofNat_eq (by decide) ?_, getLsbD_ofNat_eq (by decide) ?_,
      getLsbD_ofNat_eq (by decide) ?_, getLsbD_ofNat_eq (by decide) ?_, extractLsb'_ofNat_eq_zero ?_ ?_, hlow ▸ hcode⟩
    case refine_3 => rw [hlow]; cases s.code <;> rfl
    all_goals omega
  · have htag := s.result.tag.number_le
    have hmatch := s.result.matched.toNat_le
    have hnoerr := s.result.noerr.toNat_le
    have hlow : (s.result.word.extractLsb' 0 2).toNat = s.result.tag.number := by
      rw [Result.word, toNat_extractLsb'_ofNat (by omega)]; omega
    refine ⟨?_, getLsbD_ofNat_eq (by decide) ?_, getLsbD_ofNat_eq (by decide) ?_, extractLsb'_ofNat_eq_zero ?_ ?_⟩
    case refine_1 => rw [hlow]; cases s.result.tag <;> rfl
    all_goals omega

/-- Settles O12: the reset state register by register; a buffer with no cell holds no byte. -/
theorem resetLeavesTheStatedValues : Obligations.ResetLeavesTheStatedValues := by
  have hregs : ∀ r, State.reset.readReg r = some 0 := by intro r; cases r <;> decide
  exact ⟨hregs, by decide, rfl, rfl, rfl, rfl, rfl, rfl, fun _ => rfl, fun _ => rfl⟩

end Sys2Proof.Machine
end

section
/-! PROOFS. The VALID flags and `RESULT` after a command (10_state.md, R28 to R31). -/

namespace Sys2Proof.Machine

/-! ## The VALID flags -/

section Flags
variable {s t : State}

/-- `GF.BUILD` clears the three flags that rest on the tables and sets its own where it succeeds (R28, R122). -/
theorem exec_gfBuild_flags (h : exec .gfBuild s = .next t) :
    (t.gfValid = true ↔ t.code = .ok) ∧ t.crcValid = s.crcValid ∧ t.rsValid = false ∧ t.bchValid = false := by
  cases exec_effect h with
  | raised notBuild => simp at notBuild
  | fieldRejected code => exact ⟨by rcases code with rfl | rfl <;> simp [State.gfValid], rfl, rfl, rfl⟩
  | fieldBuilt => exact ⟨by simp [State.gfValid], rfl, rfl, rfl⟩
  | resWritten which => simp at which

/-- `CRC.CFG` moves its own flag only (R28, R161). -/
theorem exec_crcCfg_flags (h : exec .crcCfg s = .next t) :
    (t.crcValid = true ↔ t.code = .ok) ∧ t.gfValid = s.gfValid ∧ t.rsValid = s.rsValid ∧ t.bchValid = s.bchValid := by
  cases exec_effect h with
  | raised notBuild => simp at notBuild
  | crcRejected => exact ⟨by simp, rfl, rfl, rfl⟩
  | crcAccepted => exact ⟨by simp, rfl, rfl, rfl⟩
  | resWritten which => simp at which

/-- `RS.CFG` moves its own flag only (R28, R193). -/
theorem exec_rsCfg_flags (h : exec .rsCfg s = .next t) :
    (t.rsValid = true ↔ t.code = .ok) ∧ t.gfValid = s.gfValid ∧ t.crcValid = s.crcValid ∧ t.bchValid = s.bchValid := by
  cases exec_effect h with
  | raised notBuild => simp at notBuild
  | rsRejected code => exact ⟨by rcases code with rfl | rfl <;> simp [State.rsValid], rfl, rfl, rfl⟩
  | rsBuilt => exact ⟨by simp [State.rsValid], rfl, rfl, rfl⟩
  | resWritten which => simp at which

/-- `BCH.CFG` moves its own flag only (R28, R243). -/
theorem exec_bchCfg_flags (h : exec .bchCfg s = .next t) :
    (t.bchValid = true ↔ t.code = .ok) ∧ t.gfValid = s.gfValid ∧ t.crcValid = s.crcValid ∧ t.rsValid = s.rsValid := by
  cases exec_effect h with
  | raised notBuild => simp at notBuild
  | bchRejected code => exact ⟨by rcases code with rfl | rfl <;> simp [State.bchValid], rfl, rfl, rfl⟩
  | bchBuilt => exact ⟨by simp [State.bchValid], rfl, rfl, rfl⟩
  | resWritten which => simp at which

/-- Every other command leaves the flags as they are (R28). -/
theorem exec_keeps_flags {i : Instr} (h : exec i s = .next t) (hgf : i ≠ .gfBuild) (hcrc : i ≠ .crcCfg)
    (hrs : i ≠ .rsCfg) (hbch : i ≠ .bchCfg) :
    t.gfValid = s.gfValid ∧ t.crcValid = s.crcValid ∧ t.rsValid = s.rsValid ∧ t.bchValid = s.bchValid := by
  cases exec_effect h with
  | fieldRejected | fieldBuilt => exact absurd rfl hgf
  | crcRejected | crcAccepted => exact absurd rfl hcrc
  | rsRejected | rsBuilt => exact absurd rfl hrs
  | bchRejected | bchBuilt => exact absurd rfl hbch
  | raised | resWritten | crcChecked | rsEncoded | bchEncoded => exact ⟨rfl, rfl, rfl, rfl⟩
  | rsDecoded | bchDecoded =>
    obtain ⟨r, e, -⟩ := s.reportDecode_eq ‹Decoded›
    rw [e]
    exact ⟨rfl, rfl, rfl, rfl⟩

end Flags

/-- A flag that is 1 after a register write was 1 before it (R28, R36). -/
theorem State.writeReg_sets_no_flag (s : State) (v : Word) (r : Reg) :
    ((s.writeReg v r).gfValid = true → s.gfValid = true) ∧ ((s.writeReg v r).crcValid = true → s.crcValid = true) ∧
    ((s.writeReg v r).rsValid = true → s.rsValid = true) ∧ ((s.writeReg v r).bchValid = true → s.bchValid = true) := by
  cases r with
  | cmd | status | result | res | olen | bchP | opa | opb | ilen => exact ⟨id, id, id, id⟩
  | gfM | gfPoly => exact ⟨nofun, id, nofun, nofun⟩
  | crcWidth | crcPoly | crcInit | crcXorout => exact ⟨id, nofun, id, id⟩
  | rsR => exact ⟨id, id, nofun, id⟩
  | bchT => exact ⟨id, id, id, nofun⟩

/-- Settles O51: one lemma per construction command, one for the others, one for register writes. -/
theorem validFlagsFollowConstruction : Obligations.ValidFlagsFollowConstruction := by
  refine ⟨fun i s t h => ⟨?_, ?_, ?_, ?_, exec_keeps_flags h⟩, fun s off v => ?_⟩
  · rintro rfl; exact exec_gfBuild_flags h
  · rintro rfl; exact exec_crcCfg_flags h
  · rintro rfl; exact exec_rsCfg_flags h
  · rintro rfl; exact exec_bchCfg_flags h
  · rcases s.hostRegWrite_cases off v with ⟨r, -, e⟩ | e <;> rw [e]
    · exact s.writeReg_sets_no_flag v r
    · exact ⟨id, id, id, id⟩

/-! ## `RESULT` -/

theorem raises_ne_ok {i : Instr} {c : Code} (h : raises i c) : c ≠ .ok := by
  rcases h with rfl | ⟨rfl | rfl, -⟩ | ⟨rfl, -⟩ | ⟨rfl, -⟩ <;> decide

/-- What a completed command leaves in `STATUS.CODE` and `RESULT` (R29 to R31): a code raised; `OK` from a command that is
no `DEC`; `OK` from `CRC.DEC`; `OK` from `RS.DEC` or `BCH.DEC`. -/
theorem exec_result_cases {i : Instr} {s t : State} (h : exec i s = .next t) :
    (t.code ≠ .ok ∧ t.result = Result.zero) ∨
    (i ≠ .crcDec ∧ i ≠ .rsDec ∧ i ≠ .bchDec ∧ t.code = .ok ∧ t.result = Result.zero) ∨
    (i = .crcDec ∧ t.code = .ok ∧ ∃ b, t.result = Result.ofMatch b) ∨
    ((i = .rsDec ∨ i = .bchDec) ∧ t.code = .ok ∧
      (t.result = Result.clean ∨ t.result = Result.repaired ∨ t.result = Result.gaveUp)) := by
  cases exec_effect h with
  | raised _ code => exact .inl ⟨raises_ne_ok code, rfl⟩
  | fieldRejected code => exact .inl ⟨by rcases code with rfl | rfl <;> simp, rfl⟩
  | crcRejected => exact .inl ⟨by simp, rfl⟩
  | rsRejected code => exact .inl ⟨by rcases code with rfl | rfl <;> simp, rfl⟩
  | bchRejected code => exact .inl ⟨by rcases code with rfl | rfl <;> simp, rfl⟩
  | fieldBuilt | crcAccepted | rsBuilt | bchBuilt | rsEncoded | bchEncoded =>
    exact .inr (.inl ⟨nofun, nofun, nofun, rfl, rfl⟩)
  | resWritten which =>
    refine .inr (.inl ⟨?_, ?_, ?_, rfl, rfl⟩) <;>
    · rintro rfl
      simp at which
  | crcChecked => exact .inr (.inr (.inl ⟨rfl, rfl, _, rfl⟩))
  | rsDecoded | bchDecoded =>
    obtain ⟨r, e, hr⟩ := s.reportDecode_eq ‹Decoded›
    rw [e]
    exact .inr (.inr (.inr ⟨by simp, rfl, hr.imp id (Or.imp id And.left)⟩))

/-- Settles O53: read off `exec_result_cases`. -/
theorem resultDescribesTheLatestCommand : Obligations.ResultDescribesTheLatestCommand := by
  intro i s t h
  rcases exec_result_cases h with ⟨hc, hr⟩ | ⟨hcrc, hrs, hbch, hc, hr⟩ | ⟨rfl, hc, b, hr⟩ | ⟨hi, hc, hr⟩
  · simp [hc, hr, Result.zero]
  · simp [hc, hr, hcrc, hrs, hbch, Result.zero]
  · simp [hc, hr, Result.ofMatch]
  · refine ⟨fun hraised => absurd hc hraised, fun _ hrs hbch => absurd hi (not_or.2 ⟨hrs, hbch⟩), ?_, fun _ => ?_⟩
    · rintro rfl
      simp at hi
    · rcases hr with hr | hr | hr <;> simp [hr, Result.clean, Result.repaired, Result.gaveUp]

end Sys2Proof.Machine
end

section
/-! PROOFS. The accesses the port refuses and the data a host read returns (20_memory.md, R60 to R64). -/

namespace Sys2Proof.Machine

/-! ## Refused accesses -/

/-- The accesses R63 leaves undefined, with the byte write to `OBUF` left out (R60). -/
theorem PortAccess.exists_problem_iff (a : PortAccess) :
    (∃ why, a.problem = some why) ↔
      (0x6000 ≤ a.offset ∨ (a.offset < 0x2000 ∧ (a.width ≠ 32 ∨ a.offset % 4 ≠ 0)) ∨
        (0x2000 ≤ a.offset ∧ a.width ≠ 8)) := by
  rw [← Option.ne_none_iff_exists']
  simp only [PortAccess.problem, spaceEnd, ibufBase, Config.regBits]
  by_cases hend : 0x6000 ≤ a.offset
  · simp [hend]
  · by_cases hreg : a.offset < 0x2000
    · have hbuf : ¬ 0x2000 ≤ a.offset := by omega
      by_cases hwidth : a.width = 32 <;> simp [hend, hreg, hbuf, hwidth]
    · have hbuf : 0x2000 ≤ a.offset := by omega
      simp [hend, hreg, hbuf]

/-- A word written to `CMD` is never refused: it is a command with a meaning, or it raises (R95). -/
theorem runCommand_not_refused (w : Word) (s : State) (r : Refusal) : runCommand w s ≠ .refused r := by
  unfold runCommand
  split
  · exact exec_not_refused _ s r
  · simp

theorem runHostStep_not_refused (a : HostStep) (s : State) (r : Refusal) : runHostStep a s ≠ .refused r := by
  cases a with
  | regRead | bufRead | bufWrite => simp [runHostStep]
  | regWrite off v =>
    simp only [runHostStep]
    split
    · exact runCommand_not_refused v s r
    · simp

/-- Settles O6: the port refuses the accesses that have a problem and no other, since no primitive is refused. -/
theorem undefinedAccessesAreRefused : Obligations.UndefinedAccessesAreRefused := by
  intro s a rest hpending
  rw [← a.exists_problem_iff]
  constructor
  · rintro ⟨why, hstep⟩
    refine Option.ne_none_iff_exists'.1 fun hok => ?_
    rw [step_defined hpending hok] at hstep
    exact runHostStep_not_refused _ _ _ hstep
  · rintro ⟨why, hwhy⟩
    exact ⟨why, step_refused hpending hwhy⟩

/-! ## Host reads -/

/-- `BCH_P` is the one register that can be without a value (R35). -/
theorem State.eq_bchP_of_readReg_eq_none {s : State} {r : Reg} (h : s.readReg r = none) : r = .bchP := by
  cases r with
  | bchP => rfl
  | _ => simp [State.readReg] at h

/-- Settles O9: a read is `returnWord` or `returnByte` of what is held, and each has one case per presence of a value. -/
theorem hostReadsReturnWhatIsHeld : Obligations.HostReadsReturnWhatIsHeld := by
  intro s
  refine ⟨fun r v h => ?_, fun r h => ⟨State.eq_bchP_of_readReg_eq_none h, ?_⟩, fun b i v h => ?_, fun b i h => ?_⟩
  · rw [State.hostRegRead_offset, h, State.returnWord]
  · rw [State.hostRegRead_offset, h, State.returnWord]
  · rw [State.hostBufRead, h, State.returnByte]
  · rw [State.hostBufRead, h, State.returnByte]

end Sys2Proof.Machine
end

section
/-! PROOFS. What a command leaves in the buffers and in the registers it does not write, and the command whose input was
never written (20_memory.md, R71 to R73; 10_state.md, R22, R23). -/

namespace Sys2Proof.Machine

/-! ## The frame of a command -/

/-- A decode report leaves all but `STATUS.CODE`, `RESULT`, `OBUF` and `OLEN`. -/
theorem State.reportDecode_frame (o : Decoded) (s : State) :
    ∃ r out olen, s.reportDecode o = { s with code := .ok, result := r, obuf := out, olen := olen } := by
  obtain ⟨r, e, -⟩ := s.reportDecode_eq o
  exact ⟨r, _, _, e⟩

section Frame
variable {i : Instr} {s t : State}

/-- No command writes `IBUF`, an operand, `ILEN` or a configuration register (R22, R23, R71). -/
theorem exec_keeps_inputs (h : exec i s = .next t) :
    t.ibuf = s.ibuf ∧ t.opa = s.opa ∧ t.opb = s.opb ∧ t.ilen = s.ilen ∧ t.gfM = s.gfM ∧ t.gfPoly = s.gfPoly ∧
    t.crcWidth = s.crcWidth ∧ t.crcPoly = s.crcPoly ∧ t.crcInit = s.crcInit ∧ t.crcXorout = s.crcXorout ∧
    t.rsR = s.rsR ∧ t.bchT = s.bchT := by
  cases exec_effect h with
  | rsDecoded | bchDecoded =>
    obtain ⟨r, out, olen, e⟩ := s.reportDecode_frame ‹Decoded›
    simp [e]
  | _ => simp

/-- `RES` is written by the seven commands listed (R22). -/
theorem exec_keeps_res (h : exec i s = .next t) (hi : writesRes i = false) : t.res = s.res := by
  cases exec_effect h with
  | resWritten which => rcases which with rfl | rfl | rfl | rfl | rfl | rfl <;> cases hi
  | crcChecked => cases hi
  | rsDecoded | bchDecoded =>
    obtain ⟨r, out, olen, e⟩ := s.reportDecode_frame ‹Decoded›
    rw [e]
  | _ => rfl

/-- `OBUF` and `OLEN` are written by the four codec commands, where they complete with `OK` (R23, R41, R72). -/
theorem exec_keeps_output (h : exec i s = .next t) (hi : writesOutput i = false ∨ t.code ≠ .ok) :
    t.olen = s.olen ∧ t.obuf = s.obuf := by
  cases exec_effect h with
  | rsEncoded | bchEncoded => simp [writesOutput] at hi
  | rsDecoded | bchDecoded =>
    obtain ⟨r, out, olen, e⟩ := s.reportDecode_frame ‹Decoded›
    simp [writesOutput, e] at hi
  | _ => exact ⟨rfl, rfl⟩

/-- `BCH_P` is written by `BCH.CFG` (R35). -/
theorem exec_keeps_bchP (h : exec i s = .next t) (hi : i ≠ .bchCfg) : t.bchP = s.bchP := by
  cases exec_effect h with
  | bchRejected | bchBuilt => exact absurd rfl hi
  | rsDecoded | bchDecoded =>
    obtain ⟨r, out, olen, e⟩ := s.reportDecode_frame ‹Decoded›
    rw [e]
  | _ => rfl

/-- The tables are written by `GF.BUILD` (R136). -/
theorem exec_keeps_tables (h : exec i s = .next t) (hi : i ≠ .gfBuild) : t.tables = s.tables := by
  cases exec_effect h with
  | fieldRejected | fieldBuilt => exact absurd rfl hi
  | rsDecoded | bchDecoded =>
    obtain ⟨r, out, olen, e⟩ := s.reportDecode_frame ‹Decoded›
    rw [e]
  | _ => rfl

end Frame

/-- Settles O50: one frame lemma for what no command writes, and one per location that few commands write. -/
theorem commandsWriteOnlyTheirRegisters : Obligations.CommandsWriteOnlyTheirRegisters := by
  intro i s t h
  obtain ⟨hibuf, hregs⟩ := exec_keeps_inputs h
  obtain ⟨hopa, hopb, hilen, hgfM, hgfPoly, hwidth, hpoly, hinit, hxorout, hrsR, hbchT⟩ := hregs
  exact ⟨fun j => by rw [hibuf], hopa, hopb, hilen, hgfM, hgfPoly, hwidth, hpoly, hinit, hxorout, hrsR, hbchT,
    exec_keeps_res h, fun hi => (exec_keeps_output h (.inl hi)).1, exec_keeps_bchP h, exec_keeps_tables h⟩

/-! ## The output buffer -/

/-- Exactly the bytes `OBUF[0..OLEN-1]` hold a value (R72). -/
theorem State.outputHeld.read_isSome {s : State} (h : s.outputHeld) (j : Nat) :
    (s.obuf.read j).isSome = true ↔ j < s.olen.toNat := by
  obtain ⟨out, hobuf, holen, hlen⟩ := h
  have hlt : out.length < 2 ^ 32 := hlen.trans_lt (by decide)
  rw [hobuf, holen, BitVec.toNat_ofNat, Nat.mod_eq_of_lt hlt, Memory.read_ofBytes, isSome_getElem?]

/-- Settles O55: the invariant of the next state says what `OBUF` holds; the other outcomes are `exec_keeps_output`. -/
theorem outputBufferAfterCommands : Obligations.OutputBufferAfterCommands := by
  intro i s t hi h
  have ht : t.Inv := hi.exec h
  refine ⟨fun _ _ => ht.output.read_isSome, fun htag => ?_, fun hkeep => ?_⟩
  · have holen := ht.gaveUpOutput htag
    refine ⟨holen, fun j => ?_⟩
    have hread := ht.output.read_isSome j
    simpa [holen] using hread
  · obtain ⟨holen, hobuf⟩ := exec_keeps_output h hkeep
    exact ⟨holen, fun j => by rw [hobuf]⟩

/-! ## An unwritten input byte: past its length checks each of the six commands stops (R73) -/

section Unwritten
variable {s : State}

theorem withCrcInput_unwritten (hin : s.ibuf.readRange 0 s.ilen.toNat = none) (hpos : s.ilen.toNat ≠ 0)
    (hvalid : s.crcValid = true) (hlen : s.ilen.toNat ≤ 8192) (k : List Byte → Effect) :
    withCrcInput s k = .fault .unwrittenInput := by
  have hbuf : ¬ Config.bufBytes < s.ilen.toNat := Nat.not_lt.2 hlen
  rw [withCrcInput, if_neg (by simp [hvalid]), if_neg hpos, if_neg hbuf, withInput_none hin]

theorem execRsEnc_unwritten (hin : s.ibuf.readRange 0 s.ilen.toNat = none) (hpos : s.ilen.toNat ≠ 0) {F : Field}
    {g : List Nat} (hF : s.field = some F) (hg : s.rsGen = some g) (hlen : s.ilen.toNat + s.rsR.toNat ≤ F.order) :
    execRsEnc s = .fault .unwrittenInput := by
  rw [execRsEnc, withRs_some hF hg, if_neg hpos, if_neg (Nat.not_lt.2 hlen), withInput_none hin]

theorem execRsDec_unwritten (hin : s.ibuf.readRange 0 s.ilen.toNat = none) {F : Field} {g : List Nat}
    (hF : s.field = some F) (hg : s.rsGen = some g) (hlong : s.rsR.toNat < s.ilen.toNat) (hlen : s.ilen.toNat ≤ F.order) :
    execRsDec s = .fault .unwrittenInput := by
  rw [execRsDec, withRs_some hF hg, if_neg (by omega), if_neg (by omega), withInput_none hin]

theorem execBchEnc_unwritten (hin : s.ibuf.readRange 0 s.ilen.toNat = none) (hpos : s.ilen.toNat ≠ 0) {F : Field}
    {g : Nat} {p : Word} (hF : s.field = some F) (hg : s.bchGen = some g) (hp : s.bchP = some p)
    (hlen : 8 * s.ilen.toNat + p.toNat ≤ F.order) : execBchEnc s = .fault .unwrittenInput := by
  rw [execBchEnc, withBch_some hF hg hp, if_neg hpos, if_neg (Nat.not_lt.2 hlen), withInput_none hin]

theorem execBchDec_unwritten (hin : s.ibuf.readRange 0 s.ilen.toNat = none) {F : Field} {g : Nat} {p : Word}
    (hF : s.field = some F) (hg : s.bchGen = some g) (hp : s.bchP = some p) (hlong : bytesFor p.toNat < s.ilen.toNat)
    (hlen : 8 * (s.ilen.toNat - bytesFor p.toNat) + p.toNat ≤ F.order) : execBchDec s = .fault .unwrittenInput := by
  rw [execBchDec, withBch_some hF hg hp, if_neg (by omega), if_neg (by omega), if_neg (by omega), withInput_none hin]

end Unwritten

/-- Settles O57: a stop is inverted by `State.Inv.exec_fault`; each of the six commands stops by its `_unwritten` lemma. -/
theorem unwrittenInputStopsTheCommand : Obligations.UnwrittenInputStopsTheCommand := by
  refine ⟨fun i s f hi h => ?_, fun s j hj hread => ?_⟩
  · obtain ⟨hf, hreads, hin, -⟩ := hi.exec_fault h
    obtain ⟨j, hj, hread⟩ := Memory.readRange_eq_none.1 hin
    exact ⟨hf, hreads, j, hj, by rwa [Nat.zero_add] at hread⟩
  · have hin : s.ibuf.readRange 0 s.ilen.toNat = none :=
      Memory.readRange_eq_none.2 ⟨j, hj, by rwa [Nat.zero_add]⟩
    have hpos : s.ilen.toNat ≠ 0 := Nat.ne_zero_of_lt hj
    exact ⟨fun hvalid hlen =>
        ⟨withCrcInput_unwritten hin hpos hvalid hlen _, withCrcInput_unwritten hin hpos hvalid hlen _⟩,
      fun F g hF hg => ⟨execRsEnc_unwritten hin hpos hF hg, execRsDec_unwritten hin hF hg⟩,
      fun F g p hF hg hp => ⟨execBchEnc_unwritten hin hpos hF hg hp, execBchDec_unwritten hin hF hg hp⟩⟩

end Sys2Proof.Machine
end

section
/-! PROOFS. The decoder and the encoder (30_encoding.md, R90 to R95): what each word decodes to, which words are illegal, and
the step that writes an illegal word to `CMD`. -/

namespace Sys2Proof

/-! ## The functions of a unit -/

/-- The unit `u` has a function `f` (R91, R92). -/
def unitHas (u f : Nat) : Prop := (u = 0 ∧ 1 ≤ f ∧ f ≤ 6) ∨ (1 ≤ u ∧ u ≤ 3 ∧ f ≤ 2)

theorem Instr.unitHas_fn (i : Instr) : unitHas i.unit i.fn := by cases i <;> simp [unitHas, Instr.unit, Instr.fn]

/-- What the function decoder of the unit `u` answers at `f`: the command with these two fields, or none where there is none. -/
def answersFn (u f : Nat) : Option Instr → Prop
  | some i => i.unit = u ∧ i.fn = f
  | none => ¬ unitHas u f

theorem decodeGf_answersFn (f : Nat) : answersFn 0 f (decodeGf f) := by
  match f with
  | 1 | 2 | 3 | 4 | 5 | 6 => exact ⟨rfl, rfl⟩
  | 0 | n + 7 => simp [decodeGf, answersFn, unitHas]

theorem decodeCrc_answersFn (f : Nat) : answersFn 1 f (decodeCrc f) := by
  match f with
  | 0 | 1 | 2 => exact ⟨rfl, rfl⟩
  | n + 3 => simp [decodeCrc, answersFn, unitHas]

theorem decodeRs_answersFn (f : Nat) : answersFn 2 f (decodeRs f) := by
  match f with
  | 0 | 1 | 2 => exact ⟨rfl, rfl⟩
  | n + 3 => simp [decodeRs, answersFn, unitHas]

theorem decodeBch_answersFn (f : Nat) : answersFn 3 f (decodeBch f) := by
  match f with
  | 0 | 1 | 2 => exact ⟨rfl, rfl⟩
  | n + 3 => simp [decodeBch, answersFn, unitHas]

theorem assigned_cases {u f : Nat} {o : Option Instr} (h : answersFn u f o) :
    (∃ i, assigned o = .ok i ∧ i.unit = u ∧ i.fn = f) ∨ ((∃ e, assigned o = .error e) ∧ ¬ unitHas u f) := by
  cases o with
  | some i => exact .inl ⟨i, rfl, h⟩
  | none => exact .inr ⟨⟨_, rfl⟩, h⟩

/-! ## Words -/

/-- Every word decodes to the command with its fields, or its fields are those of no command (R90, R95). -/
theorem decode_cases (w : Word) :
    (∃ i, decode w = .ok i ∧ fieldZero w = 0 ∧ i.unit = fieldUnit w ∧ i.fn = fieldFn w) ∨
    ((∃ e, decode w = .error e) ∧ ¬ (fieldZero w = 0 ∧ unitHas (fieldUnit w) (fieldFn w))) := by
  unfold decode
  by_cases hzero : fieldZero w = 0
  · simp only [hzero, ne_eq, not_true_eq_false, if_false, true_and]
    generalize fieldUnit w = u
    match u with
    | 0 => exact assigned_cases (decodeGf_answersFn _)
    | 1 => exact assigned_cases (decodeCrc_answersFn _)
    | 2 => exact assigned_cases (decodeRs_answersFn _)
    | 3 => exact assigned_cases (decodeBch_answersFn _)
    | n + 4 => exact .inr ⟨⟨_, rfl⟩, by simp [unitHas]⟩
  · exact .inr ⟨⟨_, if_pos hzero⟩, fun h => hzero h.1⟩

/-- A word that decodes has `ZERO` = 0 and the fields of its command (R90). -/
theorem fields_of_decode {w : Word} {i : Instr} (h : decode w = .ok i) :
    fieldZero w = 0 ∧ i.unit = fieldUnit w ∧ i.fn = fieldFn w := by
  rcases decode_cases w with ⟨j, hj, hfields⟩ | ⟨⟨e, he⟩, -⟩
  · obtain rfl : j = i := Except.ok.inj (hj.symm.trans h)
    exact hfields
  · rw [he] at h
    cases h

/-- The illegal words, by their fields (R95). -/
theorem exists_decode_error_iff (w : Word) :
    (∃ e, decode w = .error e) ↔ ¬ (fieldZero w = 0 ∧ unitHas (fieldUnit w) (fieldFn w)) := by
  rcases decode_cases w with ⟨i, hi, hzero, hunit, hfn⟩ | ⟨herror, hnone⟩
  · have hhas := i.unitHas_fn
    rw [hunit, hfn] at hhas
    simp [hi, hzero, hhas]
  · exact iff_of_true herror hnone

/-- A word is put together from its three fields (R90). -/
theorem word_toNat_eq_fields (w : Word) : w.toNat = 256 * fieldZero w + (16 * fieldUnit w + fieldFn w) := by
  simp only [fieldZero, fieldUnit, fieldFn]
  omega

theorem decode_encode (i : Instr) : decode (encode i) = .ok i := by cases i <;> rfl

/-- No other word decodes to a command: its fields are the command's, and a word is its fields. -/
theorem eq_encode_of_decode {w : Word} {i : Instr} (h : decode w = .ok i) : w = encode i := by
  obtain ⟨hzero, hunit, hfn⟩ := fields_of_decode h
  have hw : w.toNat = 16 * i.unit + i.fn := by rw [word_toNat_eq_fields, hzero, hunit, hfn, Nat.mul_zero, Nat.zero_add]
  rw [encode, ← hw, BitVec.ofNat_toNat, BitVec.setWidth_eq]

end Sys2Proof

namespace Sys2Proof.Machine

/-- Settles O2: `decode_encode` is one evaluation per command, `eq_encode_of_decode` rests on the word's fields. -/
theorem decodeAndEncodeAgree : Obligations.DecodeAndEncodeAgree :=
  ⟨decode_encode, fun _ _ => eq_encode_of_decode⟩

/-- Settles O1: each of the fifteen words is its command's `encode`, and a word that decodes is an `encode` again. -/
theorem commandWordsDecodeAsTabulated : Obligations.CommandWordsDecodeAsTabulated := by
  refine ⟨decode_encode .gfBuild, decode_encode .gfMul, decode_encode .gfInv, decode_encode .gfPow, decode_encode .gfLog,
    decode_encode .gfAlog, decode_encode .crcCfg, decode_encode .crcEnc, decode_encode .crcDec, decode_encode .rsCfg,
    decode_encode .rsEnc, decode_encode .rsDec, decode_encode .bchCfg, decode_encode .bchEnc, decode_encode .bchDec,
    fun w i h => ?_⟩
  rw [eq_encode_of_decode h]
  cases i <;> decide

/-! ## Illegal words -/

theorem runCommand_of_illegal {w : Word} {e : DecodeReject} (h : decode w = .error e) (s : State) :
    runCommand w s = .next (s.raise .errIllegalCmd) := by
  rw [runCommand, h]

/-- Settles O3: the fields of an illegal word written out, and the step of its write to `CMD`. -/
theorem illegalWordsAndTheirCompletion : Obligations.IllegalWordsAndTheirCompletion := by
  refine ⟨fun w => ?_, fun s w rest e hpending hw => ?_⟩
  · rw [exists_decode_error_iff]
    simp only [fieldZero, fieldUnit, fieldFn, unitHas]
    omega
  · rw [step_command hpending, runCommand_of_illegal hw, State.raise]

end Sys2Proof.Machine
end

section
/-! PROOFS. A valid RS or BCH configuration has its field (30_encoding.md, R94; 10_state.md, R28): each operation on the
state, and so each step, keeps it. -/

namespace Sys2Proof.Machine

/-- `RS_VALID` and `BCH_VALID` each imply `GF_VALID` (R94). -/
def State.codecsHaveField (s : State) : Prop :=
  (s.rsValid = true → s.gfValid = true) ∧ (s.bchValid = true → s.gfValid = true)

section CodecsHaveField
variable {s t : State}

theorem State.gfValid_of_field {F : Field} (h : s.field = some F) : s.gfValid = true := by
  rw [State.gfValid, (State.field_eq_some.1 h).2, Option.isSome_some]

/-- `GF.BUILD` clears both codec flags; `RS.CFG` and `BCH.CFG` set theirs over a field only. -/
theorem exec_keeps_codecsHaveField {i : Instr} (hs : s.codecsHaveField) (h : exec i s = .next t) : t.codecsHaveField := by
  obtain ⟨hrs, hbch⟩ := hs
  cases exec_effect h with
  | fieldRejected | fieldBuilt => exact ⟨nofun, nofun⟩
  | rsRejected => exact ⟨nofun, hbch⟩
  | rsBuilt field => exact ⟨fun _ => State.gfValid_of_field field, hbch⟩
  | bchRejected => exact ⟨hrs, nofun⟩
  | bchBuilt field => exact ⟨hrs, fun _ => State.gfValid_of_field field⟩
  | rsDecoded | bchDecoded =>
    obtain ⟨r, out, olen, e⟩ := s.reportDecode_frame ‹Decoded›
    rw [e]
    exact ⟨hrs, hbch⟩
  | raised | crcRejected | crcAccepted | resWritten | crcChecked | rsEncoded | bchEncoded => exact ⟨hrs, hbch⟩

/-- A write that clears `GF_VALID` clears both codec flags (R36). -/
theorem State.codecsHaveField.writeReg (hs : s.codecsHaveField) (v : Word) (r : Reg) : (s.writeReg v r).codecsHaveField := by
  obtain ⟨hrs, hbch⟩ := hs
  cases r with
  | gfM | gfPoly => exact ⟨nofun, nofun⟩
  | rsR => exact ⟨nofun, hbch⟩
  | bchT => exact ⟨hrs, nofun⟩
  | cmd | status | result | res | olen | bchP | opa | opb | ilen | crcWidth | crcPoly | crcInit | crcXorout =>
    exact ⟨hrs, hbch⟩

theorem State.codecsHaveField.hostRegWrite (hs : s.codecsHaveField) (off : Nat) (v : Word) :
    (s.hostRegWrite off v).codecsHaveField := by
  rcases s.hostRegWrite_cases off v with ⟨r, -, e⟩ | e <;> rw [e]
  · exact hs.writeReg v r
  · exact hs

theorem State.codecsHaveField.hostRead (hs : s.codecsHaveField)
    (h : (∃ off, t = s.hostRegRead off) ∨ ∃ b i, t = s.hostBufRead b i) : t.codecsHaveField := by
  obtain ⟨v, d, rfl⟩ := State.hostRead_frame h
  exact hs

theorem State.codecsHaveField.hostBufWrite (hs : s.codecsHaveField) (b : Buf) (i : Nat) (v : Byte) :
    (s.hostBufWrite b i v).codecsHaveField := by
  cases b with
  | ibuf | obuf => exact hs

end CodecsHaveField

/-- Settles O60: each case of `step_cases` is an operation on the state with the access taken off the list, which leaves the
flags alone or keeps the two implications. -/
theorem validCodecsHaveTheirField : Obligations.ValidCodecsHaveTheirField := by
  intro s t hrs hbch hstep
  rcases step_cases hstep with ⟨-, rfl⟩ | ⟨a, rest, -, -, hcase⟩
  · exact ⟨hrs, hbch⟩
  have hs : State.codecsHaveField { s with pending := rest } := ⟨hrs, hbch⟩
  rcases hcase with ⟨w, i, -, -, hexec⟩ | ⟨w, e, -, -, rfl⟩ | ⟨off, v, -, -, rfl⟩ | ⟨off, -, ht⟩ | ⟨b, i, -, ht⟩ |
    ⟨b, i, v, -, rfl⟩
  · exact exec_keeps_codecsHaveField hs hexec
  · exact hs
  · exact hs.hostRegWrite off v
  · exact hs.hostRead (.inl ⟨off, ht⟩)
  · exact hs.hostRead (.inr ⟨b, i, ht⟩)
  · exact hs.hostBufWrite b i v

end Sys2Proof.Machine
end

section
/-! PROOFS. The construction of the field (40_gf.md, R122, R123): which polynomials `GF.BUILD` accepts and what it leaves. -/

namespace Sys2Proof.Machine

/-! ## The outcome of the construction -/

theorem buildTables_outOfRange {m P : Nat} (h : m < 2 ∨ 16 < m) : buildTables m P = .error .errConfig := by
  rw [buildTables, if_pos (by simpa only [Config.mMin, Config.mMax] using h)]

/-- With `GF_M` in range the construction raises one code only. -/
theorem buildTables_error_inRange {m P : Nat} {c : Code} (h2 : 2 ≤ m) (h16 : m ≤ 16) (h : buildTables m P = .error c) :
    c = .errInvalidPoly := by
  rw [buildTables, if_neg (by simp only [Config.mMin, Config.mMax]; omega)] at h
  split at h
  · exact (Except.error.inj h).symm
  · split at h
    · exact (Except.error.inj h).symm
    · split at h
      · exact (Except.error.inj h).symm
      · cases h

theorem buildTables_invalidPoly {m P : Nat} (h2 : 2 ≤ m) (h16 : m ≤ 16) (hbad : P >>> m = 1 → ¬ FullCycle m P) :
    buildTables m P = .error .errInvalidPoly := by
  cases h : buildTables m P with
  | error c => rw [buildTables_error_inRange h2 h16 h]
  | ok T => exact absurd (buildTables_built h).cycle (hbad (buildTables_built h).degree)

/-- R123's reading of one full cycle: closing it early is repeating the power `x^0`. -/
theorem fullCycle_iff {m P : Nat} :
    FullCycle m P ↔
      (∀ i < 2 ^ m - 1, alphaPower m P i ≠ 0) ∧
      (∀ i < 2 ^ m - 1, ∀ j < 2 ^ m - 1, alphaPower m P i = alphaPower m P j → i = j) ∧
      alphaPower m P (2 ^ m - 1) = 1 := by
  constructor
  · intro h
    exact ⟨h.nonzero, fun i hi j hj => h.injective hi hj, h.closes⟩
  · rintro ⟨hnonzero, hinj, hcloses⟩
    refine ⟨hnonzero, fun i hpos hi hone => ?_, hcloses⟩
    have hzero : i = 0 := hinj i hi 0 (hpos.trans hi) hone
    omega

/-! ## The command -/

section GfBuild
variable {s : State}

theorem exec_gfBuild_ok {T : Tables} (h : buildTables s.gfM.toNat s.gfPoly.toNat = .ok T) :
    exec .gfBuild s =
      .next { s with code := .ok, result := Result.zero, tables := some T, rsGen := none, bchGen := none } := by
  rw [exec, execGfBuild, h]
  rfl

theorem exec_gfBuild_error {c : Code} (h : buildTables s.gfM.toNat s.gfPoly.toNat = .error c) :
    exec .gfBuild s =
      .next { s with code := c, result := Result.zero, tables := none, rsGen := none, bchGen := none } := by
  rw [exec, execGfBuild, h]
  rfl

theorem exec_gfBuild_code_ok_iff :
    (∃ t, exec .gfBuild s = .next t ∧ t.code = .ok) ↔ ∃ T, buildTables s.gfM.toNat s.gfPoly.toNat = .ok T := by
  constructor
  · rintro ⟨t, hexec, hok⟩
    cases exec_effect hexec with
    | raised notBuild => simp at notBuild
    | fieldRejected code => rcases code with rfl | rfl <;> cases hok
    | fieldBuilt built => exact ⟨_, built⟩
    | resWritten which => simp at which
  · rintro ⟨T, hT⟩
    exact ⟨_, exec_gfBuild_ok hT, rfl⟩

end GfBuild

/-- Settles O15: `GF.BUILD` completes with `OK` where the construction does, and `buildTables_ok_iff`, an induction over the
build loop, says that it does so exactly on one full cycle. -/
theorem gfBuildAcceptsExactlyPrimitive : Obligations.GfBuildAcceptsExactlyPrimitive := by
  intro s
  rw [exec_gfBuild_code_ok_iff, buildTables_ok_iff, fullCycle_iff]

/-- Settles O14: the first two clauses are the command's two outcomes; each failed test rules out a full cycle. -/
theorem gfBuildOutcome : Obligations.GfBuildOutcome := by
  intro s
  refine ⟨fun T => exec_gfBuild_ok, fun c => exec_gfBuild_error, fun hm => exec_gfBuild_error (buildTables_outOfRange hm),
    fun h2 h16 hbad => exec_gfBuild_error (buildTables_invalidPoly h2 h16 fun hP hcycle => ?_)⟩
  rcases hbad with hdegree | ⟨i, hi, hzero⟩ | ⟨i, hi, hpos, hone⟩ | hopen
  · exact hdegree hP
  · exact hcycle.nonzero i hi hzero
  · exact hcycle.notOne i hpos hi hone
  · exact hopen hcycle.closes

end Sys2Proof.Machine
end

section
/-! PROOFS. The tables of a valid field (40_gf.md, R124). -/

namespace Sys2Proof.Machine

theorem alphaPower_one {m : Nat} (hm : 2 ≤ m) (P : Nat) : alphaPower m P 1 = 2 := by
  have hbit : Nat.testBit 2 m = false := Nat.testBit_lt_two_pow (Nat.pow_lt_pow_right Nat.one_lt_two hm)
  simp [alphaPower_succ, xtime, hbit]

section Built
variable {m P : Nat} {T : Tables}

theorem Built.one_lt_size (h : Built m P T) : 1 < 2 ^ m := Nat.one_lt_two_pow (by have := h.two_le; omega)

theorem Built.alphaPower_range (h : Built m P T) (e : Nat) : 1 ≤ alphaPower m P e ∧ alphaPower m P e < 2 ^ m := by
  have hQ : 0 < 2 ^ m - 1 := Nat.sub_pos_of_lt h.one_lt_size
  have hnonzero := h.cycle.nonzero _ (Nat.mod_lt e hQ)
  rw [h.cycle.mod] at hnonzero
  exact ⟨Nat.one_le_iff_ne_zero.2 hnonzero, alphaPower_lt (Nat.one_le_of_lt h.two_le) h.degree e⟩

/-- `LOG` of a non-zero element is the index at which `ALOG` holds it. -/
theorem Built.exists_log_alog (h : Built m P T) {x : Nat} (h1 : 1 ≤ x) (hx : x ≤ 2 ^ m - 1) :
    ∃ e, T.log[x]? = some (some e) ∧ e < 2 ^ m - 1 ∧ T.alog[e]? = some (some x) := by
  obtain ⟨e, he, rfl⟩ :=
    h.cycle.surjective (Nat.one_le_of_lt h.two_le) h.degree h1 (Nat.lt_of_le_pred (Nat.two_pow_pos m) hx)
  exact ⟨e, h.log e he, he, h.alog e he.le⟩

/-- Every non-zero element stands in `ALOG` at one index below `Q`. -/
theorem Built.existsUnique_alog (h : Built m P T) {v : Nat} (h1 : 1 ≤ v) (hv : v ≤ 2 ^ m - 1) :
    ∃! e, e < 2 ^ m - 1 ∧ T.alog[e]? = some (some v) := by
  obtain ⟨e, -, he, halog⟩ := h.exists_log_alog h1 hv
  refine ⟨e, ⟨he, halog⟩, ?_⟩
  rintro e' ⟨he', halog'⟩
  have heq := halog'.trans halog.symm
  rw [h.alog e' he'.le, h.alog e he.le] at heq
  exact h.cycle.injective he' he (Option.some.inj (Option.some.inj heq))

end Built

/-- Settles O16: by the invariant the tables are built (`buildTables_built`, an induction over the build loop), so `ALOG`
holds the powers of alpha along one full cycle and `LOG` their exponents. -/
theorem tablesAreInverseBijections : Obligations.TablesAreInverseBijections := by
  intro s T hi hT
  have h : Built s.gfM.toNat s.gfPoly.toNat T := buildTables_built (hi.tablesBuilt T hT)
  have hQ := h.one_lt_size
  refine ⟨fun e he => ⟨_, h.alog e he, h.alphaPower_range e⟩, ⟨?_, ?_, ?_⟩, fun v => h.existsUnique_alog,
    fun x => h.exists_log_alog, fun e he => ⟨_, h.alog e he.le, h.log e he⟩, fun e he => ⟨_, h.alog e he.le, ?_⟩, h.logZero⟩
  · rw [h.alog 0 (Nat.zero_le _), alphaPower_zero]
  · rw [h.alog 1 (by omega), alphaPower_one h.two_le]
  · rw [h.alog _ le_rfl, h.cycle.closes]
  · rw [h.alog (e + 1) he, alphaPower_succ]

end Sys2Proof.Machine
end

section
/-! PROOFS. The laws of a valid field (40_gf.md, R135). Each is carried over from the model of the field: both sides are
elements, and two elements with one value are equal. -/

namespace Sys2Proof.Algebra

open Machine (xtime Built polyMulMod)

/-! ## The product without the tables -/

theorem xtime_iterate_lt {m P x : Nat} (hP : P >>> m = 1) (hx : x < 2 ^ m) (i : Nat) : (xtime m P)^[i] x < 2 ^ m := by
  induction i with
  | zero => exact hx
  | succ i ih =>
    rw [Function.iterate_succ_apply']
    exact Machine.xtime_lt hP ih

theorem polyMulMod_lt {F : Machine.Field} {P a : Nat} (h : Built F.m P F.tables) (ha : a < F.size) (b : Nat) :
    polyMulMod F.m P a b < F.size := by
  refine xorSum_lt fun v hv => ?_
  obtain ⟨i, -, rfl⟩ := List.mem_map.1 hv
  split
  · exact xtime_iterate_lt h.degree ha i
  · exact size_pos F

/-! ## The laws, read off a model -/

section
variable {F : Machine.Field} {P : Nat} {K : Type} [Field K]

namespace Model
variable (M : Model F P K) (h : Built F.m P F.tables) {a b c : Nat} (ha : a < F.size) (hb : b < F.size) (hc : c < F.size)
include M h ha

/-- The summands of the reduced product are `x^i * a` for the bits `i` of `b`. -/
theorem val_polyMulMod (hb : b < F.size) : M.val (polyMulMod F.m P a b) = M.val a * M.val b := by
  rw [polyMulMod, M.val_xorSum_range, M.map_bits b hb, Finset.mul_sum]
  refine Finset.sum_congr rfl fun i _ => ?_
  split
  · rw [(M.val_xtime_iterate h ha i).2, mul_comm]
  · rw [M.val_zero, mul_zero]

theorem gfMul_eq_polyMulMod (hb : b < F.size) : F.mul a b = polyMulMod F.m P a b := by
  refine M.injective _ _ (mul_lt h a b) (polyMulMod_lt h ha b) ?_
  rw [M.val_mul h ha hb, M.val_polyMulMod h ha hb]

theorem gfMul_one : F.mul a 1 = a := by
  refine M.injective _ _ (mul_lt h a 1) ha ?_
  rw [M.val_mul h ha (one_lt_size h), M.val_one, mul_one]

theorem exists_gfInv (h0 : a ≠ 0) : ∃ ai, F.inv a = .ok ai ∧ ai < F.size ∧ F.mul a ai = 1 := by
  obtain ⟨ai, hinv, hlt, hval⟩ := M.inv_ok h h0 ha
  refine ⟨ai, hinv, hlt, M.injective _ _ (mul_lt h a ai) (one_lt_size h) ?_⟩
  rw [M.val_mul h ha hlt, hval, M.val_one, mul_inv_cancel₀ (mt (M.val_eq_zero ha).1 h0)]

theorem gfPow_succ (n : Nat) : F.pow a (n + 1) = F.mul (F.pow a n) a := by
  refine M.injective _ _ (pow_lt h a (n + 1)) (mul_lt h _ a) ?_
  rw [M.val_mul h (pow_lt h a n) ha, M.val_pow h ha, M.val_pow h ha, pow_succ]

/-- A non-zero element is a power of alpha, whose order is `Q`. -/
theorem gfPow_order (h0 : a ≠ 0) : F.pow a F.order = 1 := by
  refine M.injective _ _ (pow_lt h a F.order) (one_lt_size h) ?_
  rw [M.val_pow h ha, M.val_one, ← M.root_pow_logOf h h0 ha, pow_right_comm, M.root_pow_order h, one_pow]

include hb

theorem gfMul_comm : F.mul a b = F.mul b a := by
  refine M.injective _ _ (mul_lt h a b) (mul_lt h b a) ?_
  rw [M.val_mul h ha hb, M.val_mul h hb ha, mul_comm]

theorem gfMul_eq_zero : F.mul a b = 0 ↔ a = 0 ∨ b = 0 := by
  rw [← M.val_eq_zero (mul_lt h a b), M.val_mul h ha hb, mul_eq_zero, M.val_eq_zero ha, M.val_eq_zero hb]

include hc

theorem gfMul_assoc : F.mul (F.mul a b) c = F.mul a (F.mul b c) := by
  refine M.injective _ _ (mul_lt h _ c) (mul_lt h a _) ?_
  rw [M.val_mul h (mul_lt h a b) hc, M.val_mul h ha hb, M.val_mul h ha (mul_lt h b c), M.val_mul h hb hc, mul_assoc]

theorem gfMul_xor : F.mul a (b ^^^ c) = F.mul a b ^^^ F.mul a c := by
  refine M.injective _ _ (mul_lt h a _) (xor_lt (mul_lt h a b) (mul_lt h a c)) ?_
  rw [M.map_xor, M.val_mul h ha (xor_lt hb hc), M.val_mul h ha hb, M.val_mul h ha hc, M.map_xor, mul_add]

end Model
end

end Sys2Proof.Algebra

namespace Sys2Proof.Machine

theorem State.Inv.built {s : State} (hi : s.Inv) {F : Field} (hF : s.field = some F) : Built F.m s.gfPoly.toNat F.tables :=
  buildTables_built (hi.field_built hF)

/-- Settles O22: in the model of the field both products have the value of `a` times that of `b`. -/
theorem gfMulIsThePolynomialProduct : Obligations.GfMulIsThePolynomialProduct := by
  intro s F hi hF a ha b hb
  obtain ⟨hm, -⟩ := State.field_eq_some.1 hF
  obtain ⟨K, _, ⟨M⟩⟩ := Algebra.exists_model (hi.built hF)
  rw [← hm] at ha hb ⊢
  exact M.gfMul_eq_polyMulMod (hi.built hF) ha hb

/-- Settles O23: each law is the law of the field that models the tables. -/
theorem fieldLawsHold : Obligations.FieldLawsHold := by
  intro s F hi hF a ha b hb c hc
  have h := hi.built hF
  obtain ⟨K, _, ⟨M⟩⟩ := Algebra.exists_model h
  exact ⟨Algebra.mul_lt h a b, M.gfMul_comm h ha hb, M.gfMul_assoc h ha hb hc, M.gfMul_one h ha, if_pos (.inr rfl),
    M.gfMul_xor h ha hb hc, M.gfMul_eq_zero h ha hb, M.exists_gfInv h ha, M.gfPow_succ h ha, M.gfPow_order h ha⟩

end Sys2Proof.Machine
end

section
/-! PROOFS. The arithmetic and lookup commands of the GF unit (40_gf.md, R130 to R134): each is an equation over a field, and
raises `ERR_NOT_CONFIGURED` without one. -/

namespace Sys2Proof.Machine

section GfCommands
variable {s : State}

theorem withField_invalid (h : s.gfValid = false) (k : Field → Effect) :
    withField s k = .next { s with code := .errNotConfigured, result := Result.zero } := by
  have htables : s.tables = none := by simpa [State.gfValid] using h
  exact withField_none (by rw [State.field, htables, Option.map_none]) k

theorem Table.read_of_getElem? {t : Table} {i v : Nat} (h : t[i]? = some (some v)) : t.read i = v := by
  simp [Table.read, h]

variable {F : Field} (hF : s.field = some F)
include hF

theorem exec_gfMul_field : exec .gfMul s =
    if F.size ≤ s.opa.toNat ∨ F.size ≤ s.opb.toNat then .next (s.raise .errOperand)
    else .next (s.setRes (F.mul s.opa.toNat s.opb.toNat)).complete :=
  withField_some hF _

theorem exec_gfPow_field : exec .gfPow s =
    if F.size ≤ s.opa.toNat then .next (s.raise .errOperand)
    else .next (s.setRes (F.pow s.opa.toNat s.opb.toNat)).complete :=
  withField_some hF _

theorem exec_gfLog_field : exec .gfLog s =
    if F.size ≤ s.opa.toNat then .next (s.raise .errOperand)
    else if s.opa.toNat = 0 then .next (s.raise .errDiv0)
    else .next (s.setRes (F.logOf s.opa.toNat)).complete :=
  withField_some hF _

theorem exec_gfAlog_field : exec .gfAlog s =
    if F.size ≤ s.opa.toNat then .next (s.raise .errOperand)
    else .next (s.setRes (F.alogOf s.opa.toNat)).complete :=
  withField_some hF _

/-- The division by zero of `gf_inv` (R126) is the only code it raises. -/
theorem exec_gfInv_field : exec .gfInv s =
    if F.size ≤ s.opa.toNat then .next (s.raise .errOperand)
    else if s.opa.toNat = 0 then .next (s.raise .errDiv0)
    else .next (s.setRes (F.alogOf ((F.order - F.logOf s.opa.toNat) % F.order))).complete := by
  rw [exec, execGfInv, withField_some hF]
  by_cases h0 : s.opa.toNat = 0
  · rw [h0]
    rfl
  · rw [Field.inv_ok h0, if_neg h0]

end GfCommands

theorem Field.not_size_le_zero (F : Field) {a : Nat} (h : a = 0) : ¬ F.size ≤ a :=
  h ▸ Nat.not_le.2 (Nat.two_pow_pos F.m)

/-- Settles O17: `gf_mul` is R125's formula by definition. -/
theorem gfMulResult : Obligations.GfMulResult := by
  refine fun s => ⟨fun h => withField_invalid h _, fun F hF => ⟨fun h => ?_, fun ha hb => ?_⟩⟩ <;> rw [exec_gfMul_field hF]
  · exact if_pos h
  · exact if_neg (not_or.2 ⟨ha.not_ge, hb.not_ge⟩)

/-- Settles O18: `exec_gfInv_field` case by case. -/
theorem gfInvResult : Obligations.GfInvResult := by
  refine fun s => ⟨fun h => withField_invalid h _, fun F hF => ⟨fun h => ?_, fun h0 => ?_, fun ha h0 => ?_⟩⟩ <;>
    rw [exec_gfInv_field hF]
  · exact if_pos h
  · exact (if_neg (F.not_size_le_zero h0)).trans (if_pos h0)
  · exact (if_neg ha.not_ge).trans (if_neg h0)

/-- Settles O19: `gf_pow` is R127's formula by definition. -/
theorem gfPowResult : Obligations.GfPowResult := by
  refine fun s => ⟨fun h => withField_invalid h _, fun F hF => ⟨fun h => ?_, fun ha => ?_⟩⟩ <;> rw [exec_gfPow_field hF]
  · exact if_pos h
  · exact if_neg ha.not_ge

/-- Settles O20: `exec_gfLog_field` case by case; `LOG[OPA]` is the entry where the location holds one. -/
theorem gfLogResult : Obligations.GfLogResult := by
  refine fun s => ⟨fun h => withField_invalid h _, fun F hF => ⟨fun h => ?_, fun h0 => ?_, fun e ha h0 hlog => ?_⟩⟩ <;>
    rw [exec_gfLog_field hF]
  · exact if_pos h
  · exact (if_neg (F.not_size_le_zero h0)).trans (if_pos h0)
  · rw [Field.logOf, Table.read_of_getElem? hlog]
    exact (if_neg ha.not_ge).trans (if_neg h0)

/-- Settles O21: `exec_gfAlog_field` case by case; `ALOG[OPA]` is the entry where the location holds one. -/
theorem gfAlogResult : Obligations.GfAlogResult := by
  refine fun s => ⟨fun h => withField_invalid h _, fun F hF => ⟨fun h => ?_, fun v ha halog => ?_⟩⟩ <;>
    rw [exec_gfAlog_field hF]
  · exact if_pos h
  · rw [Field.alogOf, Table.read_of_getElem? halog]
    exact if_neg ha.not_ge

end Sys2Proof.Machine
end

section
/-! PROOFS. The CRC unit (41_crc.md, R161 to R168): the outcome of each command, the remainder as an affine function of the
payload, and the errors `CRC.DEC` detects after a `CRC.ENC`. -/

namespace Sys2Proof.Algebra

open Machine (divide divisionStep bitStream streamNumber polyDivides)
open Polynomial (X)

/-! ## The division register -/

/-- With the zero polynomial an empty register stays empty: the divisor is `x^n` (R166). -/
theorem divide_zero_poly (n : Nat) (l : List Bool) : divide n 0 0 l = 0 :=
  List.foldl_fixed' (fun b => by simp [divisionStep]) l

theorem divide_of_streamNumber_zero {n poly : Nat} (hn : 1 ≤ n) (hp : poly < 2 ^ n) {E : List Byte}
    (h : streamNumber E = 0) : divide n poly 0 (bitStream E) = 0 := by
  rw [divide_eq_iff hn hp (Nat.two_pow_pos n), h, polyDivides_iff]
  simp

/-! ## A flipped bit

A flip adds a power of `x` to the polynomial of the stream, and a divisor of at least two terms divides none (R167). -/

theorem bitPoly_modify_not {l : List Bool} {i : Nat} (hi : i < l.length) :
    bitPoly (l.modify i not) = bitPoly l + X ^ (l.length - 1 - i) := by
  induction l generalizing i with
  | nil => simp at hi
  | cons b l ih =>
    cases i with
    | zero =>
      have h2 := double_eq_zero (X ^ l.length)
      rw [List.modify_zero_cons, bitPoly, bitPoly, List.length_cons, Nat.add_sub_cancel, Nat.sub_zero]
      cases b
      · simp only [Bool.not_false, if_true, Bool.false_eq_true, if_false]
        ring
      · simp only [Bool.not_true, if_true, Bool.false_eq_true, if_false]
        linear_combination -h2
    | succ i =>
      have hi' : i < l.length := by simpa using hi
      have hexp : l.length + 1 - 1 - (i + 1) = l.length - 1 - i := by omega
      rw [List.modify_succ_cons, bitPoly, bitPoly, List.length_modify, ih hi', List.length_cons, hexp, add_assoc]

theorem divisor_not_dvd_X_pow {n poly : Nat} (hp : poly < 2 ^ n) (h0 : poly ≠ 0) (k : Nat) :
    ¬ divisor n poly ∣ X ^ k := by
  intro h
  obtain ⟨j, -, hj⟩ := (dvd_prime_pow Polynomial.prime_X k).1 h
  have hmonic : (divisor n poly).Monic :=
    Polynomial.monic_X_pow_add (by rw [natPoly_eq_numPoly hp]; exact numPoly_degree_lt hp)
  have heq : divisor n poly = X ^ j := Polynomial.eq_of_monic_of_associated hmonic (Polynomial.monic_X_pow j) hj
  have hjn : j = n := by
    have hdeg := divisor_degree hp
    rw [heq, Polynomial.degree_X_pow] at hdeg
    exact_mod_cast hdeg
  rw [divisor, natPoly_eq_numPoly hp, hjn, add_eq_left] at heq
  exact numPoly_ne_zero h0 heq

/-- One flipped bit of a stream changes the remainder, whatever the register starts with. -/
theorem divide_flip_ne {n poly : Nat} (hn : 1 ≤ n) (hp : poly < 2 ^ n) (h0 : poly ≠ 0) (init : Nat) {l : List Bool}
    {i : Nat} (hi : i < l.length) : divide n poly init (l.modify i not) ≠ divide n poly init l := by
  intro heq
  have hflip := divide_poly (poly := poly) hn (l.modify i not) init
  rw [heq, List.length_modify, bitPoly_modify_not hi] at hflip
  have hdvd := dvd_sub hflip (divide_poly hn l init)
  rw [add_sub_add_left_eq_sub, add_sub_add_left_eq_sub, add_mul, add_sub_cancel_left, ← pow_add] at hdvd
  exact divisor_not_dvd_X_pow hp h0 _ hdvd

end Sys2Proof.Algebra

namespace Sys2Proof.Machine

section CrcCommands
variable {s t : State} {D : List Byte}

/-! ## The checks and the outcomes of the commands -/

theorem State.crcConfigLegal_iff : s.crcConfigLegal = true ↔
    1 ≤ s.crcWidth.toNat ∧ s.crcWidth.toNat ≤ 32 ∧ s.crcPoly.toNat < 2 ^ s.crcWidth.toNat ∧
      s.crcInit.toNat < 2 ^ s.crcWidth.toNat ∧ s.crcXorout.toNat < 2 ^ s.crcWidth.toNat := by
  simp only [State.crcConfigLegal, Bool.and_eq_true, decide_eq_true_eq, and_assoc]

theorem withCrcInput_invalid (hvalid : s.crcValid = false) (k : List Byte → Effect) :
    withCrcInput s k = .next (s.raise .errNotConfigured) := by
  rw [withCrcInput, if_pos hvalid]

theorem withCrcInput_empty (hvalid : s.crcValid = true) (hempty : s.ilen.toNat = 0) (k : List Byte → Effect) :
    withCrcInput s k = .next (s.raise .errEmpty) := by
  rw [withCrcInput, if_neg (by simp [hvalid]), if_pos hempty]

theorem withCrcInput_long (hvalid : s.crcValid = true) (hlong : 8192 < s.ilen.toNat) (k : List Byte → Effect) :
    withCrcInput s k = .next (s.raise .errLength) := by
  rw [withCrcInput, if_neg (by simp [hvalid]), if_neg (by omega), if_pos hlong]

theorem withCrcInput_written (hvalid : s.crcValid = true) (hpos : 1 ≤ s.ilen.toNat) (hlen : s.ilen.toNat ≤ 8192)
    (hD : s.ibuf.readRange 0 s.ilen.toNat = some D) (k : List Byte → Effect) : withCrcInput s k = k D := by
  rw [withCrcInput, if_neg (by simp [hvalid]), if_neg (by omega), if_neg hlen.not_gt, withInput_some hD]

/-- `CRC.DEC` of a written input past its checks: all 32 bits of `OPA` are compared (R164). -/
theorem exec_crcDec_written (hvalid : s.crcValid = true) (hpos : 1 ≤ s.ilen.toNat) (hlen : s.ilen.toNat ≤ 8192)
    (hD : s.ibuf.readRange 0 s.ilen.toNat = some D) : exec .crcDec s = .next ((s.setRes (s.crcRem D)).completeWith
      (Result.ofMatch (decide (BitVec.ofNat 32 (s.crcRem D) = s.opa)))) :=
  withCrcInput_written hvalid hpos hlen hD _

/-- The step of the shift register as R162 writes it. -/
theorem divisionStep_eq_ite (n poly reg : Nat) (b : Bool) : divisionStep n poly reg b =
    if reg.testBit (n - 1) = b then (reg <<< 1) % 2 ^ n else (reg <<< 1) % 2 ^ n ^^^ poly := by
  simp only [divisionStep, bne_iff_ne, ne_eq, ite_not]

/-- A `CRC.ENC` that completes with `OK` read its input and left the remainder in `RES` (R163). -/
theorem exec_crcEnc_ok (h : exec .crcEnc s = .next t) (hok : t.code = .ok) :
    ∃ D, s.crcValid = true ∧ 1 ≤ s.ilen.toNat ∧ s.ilen.toNat ≤ 8192 ∧ s.ibuf.readRange 0 s.ilen.toNat = some D ∧
      t = (s.setRes (s.crcRem D)).complete := by
  rcases execCrcEnc_shape s with ⟨c, hc, e⟩ | ⟨-, -, e⟩ | ⟨D, hvalid, hpos, hlen, hD, e⟩ <;> rw [exec, e] at h
  · obtain rfl := next_inj h
    exact absurd hok (raises_ne_ok (raises_inputCode (i := .crcEnc) rfl hc))
  · cases h
  · exact ⟨D, hvalid, Nat.one_le_iff_ne_zero.2 hpos, hlen, hD, next_inj h⟩

theorem exec_crcEnc_read (h : exec .crcEnc s = .next t) (hok : t.code = .ok)
    (hD : s.ibuf.readRange 0 s.ilen.toNat = some D) :
    s.crcValid = true ∧ t.ibuf = s.ibuf ∧ t.res = BitVec.ofNat 32 (s.crcRem D) := by
  obtain ⟨D', hvalid, -, -, hD', rfl⟩ := exec_crcEnc_ok h hok
  obtain rfl : D' = D := Option.some.inj (hD'.symm.trans hD)
  exact ⟨hvalid, rfl, rfl⟩

/-- After a `CRC.ENC` that completes with `OK`, `CRC.DEC` of an input of the same length compares its remainder with `OPA`
(R164). -/
theorem exec_crcDec_after_crcEnc (h : exec .crcEnc s = .next t) (hok : t.code = .ok) {m : Memory}
    (hm : m.readRange 0 s.ilen.toNat = some D) (v : Word) :
    ∃ u, exec .crcDec { t with ibuf := m, opa := v } = .next u ∧ u.code = .ok ∧
      u.result.matched = decide (BitVec.ofNat 32 (s.crcRem D) = v) := by
  obtain ⟨D', hvalid, hpos, hlen, -, rfl⟩ := exec_crcEnc_ok h hok
  exact ⟨_, exec_crcDec_written hvalid hpos hlen hm, rfl, rfl⟩

/-! ## The remainder -/

theorem State.crcRem_lt (hlegal : s.crcConfigLegal = true) (D : List Byte) : s.crcRem D < 2 ^ 32 := by
  obtain ⟨-, hn, hp, hinit, hxor⟩ := State.crcConfigLegal_iff.1 hlegal
  exact (Nat.xor_lt_two_pow (Algebra.divide_lt hp hinit _) hxor).trans_le (Nat.pow_le_pow_right (by omega) hn)

/-- The remainder is affine in the payload (R166). -/
theorem State.crcRem_xor (s : State) {D E : List Byte} (hlen : D.length = E.length) :
    s.crcRem (List.zipWith (fun a b => a ^^^ b) D E) =
      s.crcRem D ^^^ divide s.crcWidth.toNat s.crcPoly.toNat 0 (bitStream E) := by
  have hdiv := Algebra.divide_xor s.crcWidth.toNat s.crcPoly.toNat (a := bitStream D) (b := bitStream E)
    (by simp [hlen]) s.crcInit.toNat 0
  rw [Nat.xor_zero] at hdiv
  rw [State.crcRem, State.crcRem, Machine.crcRem, Machine.crcRem, Algebra.bitStream_xor hlen, hdiv, Nat.xor_right_comm]

theorem ofNat_eq_iff {a : Nat} (ha : a < 2 ^ 32) {v : Word} : BitVec.ofNat 32 a = v ↔ a = v.toNat := by
  rw [← BitVec.toNat_inj, BitVec.toNat_ofNat, Nat.mod_eq_of_lt ha]

/-- One flipped payload bit changes the remainder when the polynomial is not 0 (R167). -/
theorem State.crcRem_flipBit_ne (hlegal : s.crcConfigLegal = true) (hpoly : s.crcPoly.toNat ≠ 0) {i : Nat}
    (hi : i < 8 * D.length) : s.crcRem (flipBit D i) ≠ s.crcRem D := by
  obtain ⟨hn, -, hp, -, -⟩ := State.crcConfigLegal_iff.1 hlegal
  intro heq
  rw [State.crcRem, State.crcRem, Machine.crcRem, Machine.crcRem, Nat.xor_left_inj, Algebra.bitStream_flip] at heq
  exact Algebra.divide_flip_ne hn hp hpoly _ (by rwa [bitStream_length]) heq

/-- `CRC.DEC` under an error pattern, after a `CRC.ENC` that completes with `OK`: it matches exactly when the pattern's plain
remainder is the error of the expected one (R166). -/
theorem exec_crcDec_of_pattern (hi : s.Inv) (h : exec .crcEnc s = .next t) (hok : t.code = .ok)
    (hD : s.ibuf.readRange 0 s.ilen.toNat = some D) {E : List Byte} (hE : E.length = D.length) (Er : Word) :
    ∃ u, exec .crcDec { t with
        ibuf := Memory.ofBytes (List.zipWith (fun a b => a ^^^ b) D E), opa := t.res ^^^ Er } = .next u ∧ u.code = .ok ∧
      (u.result.matched = true ↔ divide s.crcWidth.toNat s.crcPoly.toNat 0 (bitStream E) = Er.toNat) := by
  obtain ⟨hvalid, -, hres⟩ := exec_crcEnc_read h hok hD
  obtain ⟨-, hn, hp, -, -⟩ := State.crcConfigLegal_iff.1 (hi.crcLegal hvalid)
  obtain ⟨hlen, -⟩ := Memory.readRange_eq_some.1 hD
  have hread := Memory.readRange_ofBytes (List.zipWith (fun a b => a ^^^ b) D E)
  rw [List.length_zipWith, hE, min_self, hlen] at hread
  obtain ⟨u, hexec, hcode, hmatch⟩ := exec_crcDec_after_crcEnc h hok hread (t.res ^^^ Er)
  refine ⟨u, hexec, hcode, ?_⟩
  have hlt : divide s.crcWidth.toNat s.crcPoly.toNat 0 (bitStream E) < 2 ^ 32 :=
    (Algebra.divide_lt hp (Nat.two_pow_pos _) _).trans_le (Nat.pow_le_pow_right (by omega) hn)
  rw [hmatch, decide_eq_true_iff, hres, State.crcRem_xor s hE.symm, BitVec.ofNat_xor, BitVec.xor_right_inj, ofNat_eq_iff hlt]

end CrcCommands

/-! ## The obligations -/

/-- Settles O25: the four range checks of `crcConfigLegal`. -/
theorem crcCfgOutcome : Obligations.CrcCfgOutcome := by
  intro s
  rw [← State.crcConfigLegal_iff]
  rcases execCrcCfg_cases s with ⟨hlegal, e⟩ | ⟨hbad, e⟩
  · exact ⟨fun _ => e, fun h => absurd hlegal h⟩
  · exact ⟨fun h => by simp [hbad] at h, fun _ => e⟩

/-- Settles O26: the checks in their order, and the register of R162 step by step. -/
theorem crcEncResult : Obligations.CrcEncResult := by
  refine fun s => ⟨fun h => withCrcInput_invalid h _, fun hvalid => ⟨fun h => withCrcInput_empty hvalid h _,
    fun h => withCrcInput_long hvalid h _, fun D hpos hlen hD => ?_⟩⟩
  simp only [← divisionStep_eq_ite]
  exact withCrcInput_written hvalid hpos hlen hD _

/-- Settles O27: the checks in their order, then the compare with `OPA`. -/
theorem crcDecResult : Obligations.CrcDecResult :=
  fun _ => ⟨fun h => withCrcInput_invalid h _, fun hvalid => ⟨fun h => withCrcInput_empty hvalid h _,
    fun h => withCrcInput_long hvalid h _, fun _ hpos hlen hD => exec_crcDec_written hvalid hpos hlen hD⟩⟩

/-- Settles O28: both commands take the remainder of one input under one configuration. -/
theorem crcRoundTripMatches : Obligations.CrcRoundTripMatches := by
  intro s t h hok
  obtain ⟨D, -, -, -, hD, -⟩ := exec_crcEnc_ok h hok
  obtain ⟨-, hibuf, hres⟩ := exec_crcEnc_read h hok hD
  obtain ⟨u, hexec, hcode, hmatch⟩ := exec_crcDec_after_crcEnc h hok (hibuf ▸ hD) t.res
  exact ⟨u, hexec, hcode, by simp [hmatch, hres]⟩

/-- Settles O29: under a pattern `CRC.DEC` matches exactly when the pattern's plain remainder is `Er`
(`exec_crcDec_of_pattern`), which is divisibility by `G(x)` (`divide_eq_iff`). -/
theorem crcErrorPatternsAdd : Obligations.CrcErrorPatternsAdd := by
  refine ⟨fun s D E hlen _ _ => ?_, fun s t D hi h hok hD => ?_⟩
  · rw [State.crcRem_xor s hlen, Machine.crcRem, Nat.xor_zero]
  · obtain ⟨hvalid, -, -⟩ := exec_crcEnc_read h hok hD
    obtain ⟨hn, -, hp, -, -⟩ := State.crcConfigLegal_iff.1 (hi.crcLegal hvalid)
    refine ⟨fun E Er hE hEr => ?_, fun E hE => ?_⟩
    · obtain ⟨u, hexec, hcode, hmatch⟩ := exec_crcDec_of_pattern hi h hok hD hE Er
      refine ⟨u, hexec, hcode, hmatch.trans (Algebra.divide_eq_iff hn hp hEr E), fun hE0 hEr0 => ?_⟩
      rw [Bool.eq_false_iff, ne_eq, hmatch, Algebra.divide_of_streamNumber_zero hn hp hE0]
      exact fun h0 => hEr0 (BitVec.eq_of_toNat_eq h0.symm)
    · obtain ⟨u, hexec, hcode, hmatch⟩ := exec_crcDec_of_pattern hi h hok hD hE 0#32
      rw [BitVec.xor_zero] at hexec
      refine ⟨u, hexec, hcode, fun hodd => ?_, fun hzero => ?_⟩
      · rw [hmatch, BitVec.toNat_zero, Algebra.divide_eq_iff hn hp (Nat.two_pow_pos _), Nat.xor_zero,
          Algebra.polyDivides_shift hn hodd]
      · rw [hmatch, hzero, Algebra.divide_zero_poly, BitVec.toNat_zero]

/-- Settles O30: a flipped bit changes the remainder (`State.crcRem_flipBit_ne`), and `MATCH` compares all of it. -/
theorem crcDetectsEverySingleBitFlip : Obligations.CrcDetectsEverySingleBitFlip := by
  intro s t D hi h hok hD
  obtain ⟨hvalid, hibuf, hres⟩ := exec_crcEnc_read h hok hD
  have hlegal := hi.crcLegal hvalid
  refine ⟨fun hpoly i hbit => ?_, fun v hv => ?_⟩
  · have hread := Memory.readRange_ofBytes (flipBit D i)
    rw [flipBit, List.length_modify, ← flipBit, (Memory.readRange_eq_some.1 hD).1] at hread
    obtain ⟨u, hexec, hcode, hmatch⟩ := exec_crcDec_after_crcEnc h hok hread t.res
    refine ⟨u, hexec, hcode, hmatch.trans (decide_eq_false ?_)⟩
    rw [hres, ofNat_eq_iff (State.crcRem_lt hlegal _), BitVec.toNat_ofNat, Nat.mod_eq_of_lt (State.crcRem_lt hlegal _)]
    exact State.crcRem_flipBit_ne hlegal hpoly hbit
  · obtain ⟨u, hexec, hcode, hmatch⟩ := exec_crcDec_after_crcEnc h hok (hibuf ▸ hD) v
    exact ⟨u, hexec, hcode, hmatch.trans (decide_eq_false fun heq => hv (heq.symm.trans hres.symm))⟩

end Sys2Proof.Machine
end

section
/-! PROOFS. The RS code and the decoders over a built field (42_rs.md, R197 to R209): syndromes are additive, a decode always
answers, and what `RS.DEC` answers for a word of bytes. -/

namespace Sys2Proof.Algebra

open Machine (Built rsHorner rsSyndromes rsDecode rsCorrect rsCodeMember rsCode symbols symbolByte
  distance bm polyDegree rootPositions locateErrors bchDecode)

section
variable {F : Machine.Field} {P : Nat}

/-! ## Syndromes -/

theorem rsCodeMember_iff_horner {r : Nat} {c : List Nat} :
    rsCodeMember F r c ↔ ∀ j < r, rsHorner F (F.alpha (Config.rsFcr + j)) c = 0 := by
  simp [rsCodeMember, rsSyndromes]

/-- The value of a word is additive (R209). -/
theorem rsHorner_xor (h : Built F.m P F.tables) {a : Nat} (ha : a < F.size) {c e : List Nat} (hl : c.length = e.length)
    (hc : ∀ v ∈ c, v < F.size) (he : ∀ v ∈ e, v < F.size) :
    rsHorner F a (List.zipWith (fun u v => u ^^^ v) c e) = rsHorner F a c ^^^ rsHorner F a e := by
  obtain ⟨K, _, ⟨M⟩⟩ := exists_model h
  have hce : ∀ v ∈ List.zipWith (fun u v => u ^^^ v) c e, v < F.size := by
    intro v hv
    rw [← List.map_uncurry_zip_eq_zipWith] at hv
    obtain ⟨⟨u, w⟩, huw, rfl⟩ := List.mem_map.1 hv
    obtain ⟨hu, hw⟩ := List.of_mem_zip huw
    exact xor_lt (hc u hu) (he w hw)
  obtain ⟨hclt, hcval⟩ := M.val_rsHorner h ha hc
  obtain ⟨helt, heval⟩ := M.val_rsHorner h ha he
  obtain ⟨hlt, hval⟩ := M.val_rsHorner h ha hce
  refine M.injective _ _ hlt (xor_lt hclt helt) ?_
  rw [hval, M.map_xor, hcval, heval, M.poly_xor hl, Polynomial.eval_add]

theorem rsCodeMember_xor (h : Built F.m P F.tables) {r : Nat} {c e : List Nat} (hl : c.length = e.length)
    (hc : ∀ v ∈ c, v < F.size) (he : ∀ v ∈ e, v < F.size) (hcm : rsCodeMember F r c) (hem : rsCodeMember F r e) :
    rsCodeMember F r (List.zipWith (fun u v => u ^^^ v) c e) := by
  rw [rsCodeMember_iff_horner] at hcm hem ⊢
  intro j hj
  rw [rsHorner_xor h (alpha_lt h _) hl hc he, hcm j hj, hem j hj, Nat.xor_self]

/-! ## Words of bytes -/

theorem symbols_map_symbolByte (hm : F.m ≤ 8) {l : List Nat} (hl : ∀ v ∈ l, v < F.size) :
    symbols (l.map symbolByte) = l := by
  have hsize : F.size ≤ 2 ^ 8 := Nat.pow_le_pow_right Nat.two_pos hm
  rw [symbols, List.map_map]
  refine (List.map_congr_left fun v hv => ?_).trans (List.map_id l)
  exact (BitVec.toNat_ofNat v 8).trans (Nat.mod_eq_of_lt ((hl v hv).trans_le hsize))

/-- The bytes of the payload portion of a word. -/
theorem map_symbolByte_take_symbols (k : Nat) (D : List Byte) : ((symbols D).take k).map symbolByte = D.take k := by
  rw [List.map_take, Machine.map_symbolByte_symbols]

theorem distance_self {α : Type} [DecidableEq α] (a : List α) : distance a a = 0 := by simp [distance]

/-! ## The decode of the located errors -/

section
variable {S lam pos c e : List Nat} {Ns t n len r : Nat}

theorem locateErrors_eq_failed (hbm : bm F S Ns = .ok (lam, len)) (hbad : t < polyDegree lam ∨ polyDegree lam ≠ len ∨
      ∃ pos, rootPositions F lam (polyDegree lam) n (List.range n) = .ok pos ∧ pos.length ≠ polyDegree lam) :
    locateErrors F S Ns t n = .ok .failed := by
  simp only [locateErrors, hbm]
  split
  · rfl
  · next hdeg =>
    obtain ⟨pos, hpos, hcount⟩ := (or_assoc.2 hbad).resolve_left hdeg
    simp only [hpos, if_pos hcount]

theorem locateErrors_eq_found (hbm : bm F S Ns = .ok (lam, len)) (ht : polyDegree lam ≤ t) (hlen : polyDegree lam = len)
    (hpos : rootPositions F lam (polyDegree lam) n (List.range n) = .ok pos) (hcount : pos.length = polyDegree lam) :
    locateErrors F S Ns t n = .ok (.found lam (polyDegree lam) pos) := by
  simp only [locateErrors, hbm, hpos, if_neg (not_or.2 ⟨ht.not_gt, not_not.2 hlen⟩), if_neg (not_not.2 hcount)]

theorem rsDecode_of_member (hm : rsCodeMember F r c) :
    rsDecode F r c = .ok (.clean ((c.take (c.length - r)).map symbolByte)) := by
  simp only [rsDecode]
  exact if_pos (by simpa [rsCodeMember] using hm)

theorem rsDecode_of_failed (hm : ¬ rsCodeMember F r c)
    (hloc : locateErrors F (rsSyndromes F r c) r (r / 2) c.length = .ok .failed) : rsDecode F r c = .ok .uncorrectable := by
  simp only [rsDecode, hloc]
  exact if_neg (by simpa [rsCodeMember] using hm)

theorem rsDecode_of_found {d : Nat} (hm : ¬ rsCodeMember F r c)
    (hloc : locateErrors F (rsSyndromes F r c) r (r / 2) c.length = .ok (.found lam d pos))
    (hcorr : rsCorrect F r c.length (rsSyndromes F r c) lam d pos c = .ok e) :
    rsDecode F r c = .ok (.corrected ((e.take (c.length - r)).map symbolByte)) := by
  simp only [rsDecode, hloc, hcorr]
  exact if_neg (by simpa [rsCodeMember] using hm)

end

/-! ## A decode always answers (R207, R249) -/

theorem rsDecode_ok (h : Built F.m P F.tables) {r : Nat} {c : List Nat} (hr : 1 ≤ r) (hn : c.length ≤ F.order)
    (hc : ∀ v ∈ c, v < F.size) : ∃ o, rsDecode F r c = .ok o := by
  rcases rsDecode_answers h hr hn hc with hfail | ⟨w, hl, hw, hm, hd⟩
  · exact ⟨_, hfail⟩
  · rcases rsDecode_near h hr hl.symm hn hc hw hm hd with ⟨-, ho⟩ | ⟨-, ho⟩ <;> exact ⟨_, ho⟩

theorem bchDecode_ok (h : Built F.m P F.tables) (t p k : Nat) (D : List Byte) : ∃ o, bchDecode F t p k D = .ok o := by
  obtain ⟨loc, hloc⟩ := locateErrors_ok h (bchSyndromes_lt h t (Machine.codeBits D (8 * k + p))) (Ns := 2 * t) (t := t)
    (n := 8 * k + p)
  simp only [bchDecode, hloc]
  split
  · exact ⟨_, rfl⟩
  · cases loc with
    | failed => exact ⟨_, rfl⟩
    | found lam d pos => exact ⟨_, rfl⟩

/-! ## What the RS decoder answers for a word of bytes (R206) -/

section
variable {r : Nat} {D W V : List Byte}

/-- Two code words differ in at least `r + 1` positions. -/
theorem rsCode_distance (h : Built F.m P F.tables) (hl : W.length = V.length) (hn : W.length ≤ F.order)
    (hW : rsCode F r W) (hV : rsCode F r V) (hne : W ≠ V) : r + 1 ≤ distance W V := by
  by_contra hd
  obtain ⟨hWlt, hWm⟩ := hW
  obtain ⟨hVlt, hVm⟩ := hV
  refine hne (symbols_inj (rsCode_unique h ?_ ?_ (symbols_lt hWlt) (symbols_lt hVlt) hWm hVm ?_))
  · rw [Machine.symbols_length, Machine.symbols_length, hl]
  · rwa [Machine.symbols_length]
  · rw [symbols_distance]; omega

/-- A code word of the length of `D` within the capacity `r div 2` of it (R206). -/
def WithinCapacity (F : Machine.Field) (r : Nat) (D W : List Byte) : Prop :=
  W.length = D.length ∧ rsCode F r W ∧ distance D W ≤ r / 2

/-- A code word is within its own capacity. -/
theorem withinCapacity_self (h : rsCode F r D) : WithinCapacity F r D D :=
  ⟨rfl, h, (distance_self D).trans_le (Nat.zero_le _)⟩

/-- A code word within the capacity is found, and told apart from the received word. -/
theorem rsDecode_symbols_near (h : Built F.m P F.tables) (hr : 1 ≤ r) (hn : D.length ≤ F.order)
    (hD : ∀ b ∈ D, b.toNat < F.size) (hnear : WithinCapacity F r D W) :
    (rsCode F r D ∧ rsDecode F r (symbols D) = .ok (.clean (W.take (D.length - r)))) ∨
    (¬ rsCode F r D ∧ rsDecode F r (symbols D) = .ok (.corrected (W.take (D.length - r)))) := by
  obtain ⟨hl, ⟨hWlt, hWm⟩, hd⟩ := hnear
  have hcode : rsCode F r D ↔ rsCodeMember F r (symbols D) := and_iff_right hD
  have hdec := rsDecode_near h hr (c := symbols D) (w := symbols W) (by simp [hl]) (by simpa using hn) (symbols_lt hD)
    (symbols_lt hWlt) hWm (by rwa [symbols_distance])
  rwa [Machine.symbols_length, hl, map_symbolByte_take_symbols, ← hcode] at hdec

/-- With no code word within the capacity the decoder gives up. -/
theorem rsDecode_symbols_far (h : Built F.m P F.tables) (hm : F.m ≤ 8) (hr : 1 ≤ r) (hn : D.length ≤ F.order)
    (hD : ∀ b ∈ D, b.toNat < F.size) (hfar : ¬ ∃ W, WithinCapacity F r D W) :
    rsDecode F r (symbols D) = .ok .uncorrectable := by
  refine (rsDecode_answers h hr (by simpa using hn) (symbols_lt hD)).resolve_right ?_
  rintro ⟨w, hl, hw, hwm, hd⟩
  have hsym := symbols_map_symbolByte hm hw
  refine hfar ⟨w.map symbolByte, by simpa using hl, ⟨fun b hb => hw _ ?_, by rwa [hsym]⟩, ?_⟩
  · rw [← hsym]; exact List.mem_map_of_mem hb
  · rwa [← symbols_distance, hsym]

end
end
end Sys2Proof.Algebra
end

section
/-! PROOFS. The RS unit (42_rs.md, R192 to R209): the outcome of each command, the code its encoder writes, and its decoder as
a bounded-distance decoder; division by zero in all commands (R207). -/

namespace Sys2Proof.Machine

open Sys2Proof.Algebra (WithinCapacity withinCapacity_self rsCode_distance rsDecode_ok rsDecode_symbols_near
  rsDecode_symbols_far bchDecode_ok rsCodeword_member rsCode_iff_codeword parity_facts symbols_lt rsCodeMember_xor)

section RsCommands
variable {s t : State} {F : Field} {g : List Nat} {D : List Byte}

/-! ## A valid unit -/

/-- What a valid RS unit holds (R26, R34). -/
theorem State.Inv.rs_unit (hi : s.Inv) (hF : s.field = some F) (hg : s.rsGen = some g) :
    F.m ≤ 8 ∧ 1 ≤ s.rsR.toNat ∧ g = rsGenerator F s.rsR.toNat := by
  obtain ⟨F', hF', hm, hpos, -, hgen⟩ := hi.rsBuilt g hg
  obtain rfl : F' = F := Option.some.inj (hF'.symm.trans hF)
  exact ⟨hm, hpos, hgen⟩

/-! ## The checks and the outcomes of the commands -/

theorem withRs_invalid (h : s.rsValid = false) (k : Field → List Nat → Effect) :
    withRs s k = .next { s with code := .errNotConfigured, result := Result.zero } :=
  withRs_none (by simpa [State.rsValid] using h) k

theorem not_allSymbols (h : ∃ b ∈ D, F.size ≤ b.toNat) : ¬ allSymbols F D = true := by
  obtain ⟨b, hb, hbig⟩ := h
  exact fun hall => (allSymbols_iff.1 hall b hb).not_ge hbig

theorem exec_rsCfg_field (hF : s.field = some F) : exec .rsCfg s =
    if 8 < F.m then .next (s.clearRs.raise .errConfig)
    else if s.rsR.toNat < 1 ∨ F.order - 1 < s.rsR.toNat then .next (s.clearRs.raise .errConfig)
    else .next { s.clearRs with rsGen := some (rsGenerator F s.rsR.toNat) }.complete :=
  withField_some (s := s.clearRs) hF _

section Valid
variable (hF : s.field = some F) (hg : s.rsGen = some g)
include hF hg

theorem exec_rsEnc_valid : exec .rsEnc s =
    if s.ilen.toNat = 0 then .next (s.raise .errEmpty)
    else if F.order < s.ilen.toNat + s.rsR.toNat then .next (s.raise .errLength)
    else withInput s fun D =>
      if allSymbols F D then .next (s.setOutput (rsCodeword F g s.rsR.toNat D)).complete
      else .next (s.raise .errOperand) :=
  withRs_some hF hg _

theorem exec_rsEnc_written (hpos : s.ilen.toNat ≠ 0) (hfits : s.ilen.toNat + s.rsR.toNat ≤ F.order)
    (hD : s.ibuf.readRange 0 s.ilen.toNat = some D) : exec .rsEnc s =
    if allSymbols F D then .next (s.setOutput (rsCodeword F g s.rsR.toNat D)).complete
    else .next (s.raise .errOperand) := by
  rw [exec_rsEnc_valid hF hg, if_neg hpos, if_neg hfits.not_gt, withInput_some hD]

theorem exec_rsDec_empty (h : s.ilen.toNat = 0) : exec .rsDec s = .next (s.raise .errEmpty) := by
  rw [exec, execRsDec, withRs_some hF hg, if_pos h]

theorem exec_rsDec_length (hpos : s.ilen.toNat ≠ 0) (h : s.ilen.toNat ≤ s.rsR.toNat ∨ F.order < s.ilen.toNat) :
    exec .rsDec s = .next (s.raise .errLength) := by
  rw [exec, execRsDec, withRs_some hF hg, if_neg hpos, if_pos h]

variable (hlong : s.rsR.toNat < s.ilen.toNat) (hfits : s.ilen.toNat ≤ F.order)
  (hD : s.ibuf.readRange 0 s.ilen.toNat = some D)
include hlong hfits hD

theorem exec_rsDec_noSymbol (h : ∃ b ∈ D, F.size ≤ b.toNat) : exec .rsDec s = .next (s.raise .errOperand) := by
  rw [exec, execRsDec, withRs_some hF hg, if_neg (by omega), if_neg (by omega), withInput_some hD,
    if_neg (not_allSymbols h)]

/-- `RS.DEC` of symbols past its checks reports what the decode answers (R198). -/
theorem exec_rsDec_symbols (hsym : ∀ b ∈ D, b.toNat < F.size) {o : Decoded}
    (ho : rsDecode F s.rsR.toNat (symbols D) = .ok o) : exec .rsDec s = .next (s.reportDecode o) := by
  rw [exec, execRsDec, withRs_some hF hg, if_neg (by omega), if_neg (by omega), withInput_some hD,
    if_pos (allSymbols_iff.2 hsym), ho]

end Valid

theorem State.reportDecode_code (o : Decoded) (s : State) : (s.reportDecode o).code = .ok := by
  obtain ⟨r, out, olen, e⟩ := s.reportDecode_frame o
  rw [e]

/-- The state after a decode by its zero-syndrome exit, its output of known length (R199). -/
theorem State.reportDecode_clean {p : List Byte} {k : Nat} (hk : p.length = k) : s.reportDecode (.clean p) =
    { s with code := .ok, result := Result.clean, obuf := Memory.ofBytes p, olen := BitVec.ofNat 32 k } := by
  subst hk; rfl

/-- The state after a decode that repaired errors, its output of known length (R204). -/
theorem State.reportDecode_corrected {p : List Byte} {k : Nat} (hk : p.length = k) : s.reportDecode (.corrected p) =
    { s with code := .ok, result := Result.repaired, obuf := Memory.ofBytes p, olen := BitVec.ofNat 32 k } := by
  subst hk; rfl

/-- `RS.DEC` is a bounded-distance decoder: what it reports when a code word is within the capacity, and that otherwise it
gives up (R206). -/
theorem exec_rsDec_answers (hi : s.Inv) (hF : s.field = some F) (hg : s.rsGen = some g)
    (hlong : s.rsR.toNat < s.ilen.toNat) (hfits : s.ilen.toNat ≤ F.order)
    (hD : s.ibuf.readRange 0 s.ilen.toNat = some D) (hsym : ∀ b ∈ D, b.toNat < F.size) :
    ∃ o, exec .rsDec s = .next (s.reportDecode o) ∧
      (∀ W, WithinCapacity F s.rsR.toNat D W →
        (rsCode F s.rsR.toNat D ∧ o = .clean (W.take (s.ilen.toNat - s.rsR.toNat))) ∨
        (¬ rsCode F s.rsR.toNat D ∧ o = .corrected (W.take (s.ilen.toNat - s.rsR.toNat)))) ∧
      ((¬ ∃ W, WithinCapacity F s.rsR.toNat D W) → o = .uncorrectable) := by
  obtain ⟨hm, hr, -⟩ := hi.rs_unit hF hg
  have hbuilt := hi.built hF
  have hlen : D.length = s.ilen.toNat := readRange_length hD
  have hn : D.length ≤ F.order := hlen.trans_le hfits
  obtain ⟨o, ho⟩ := rsDecode_ok hbuilt hr (by rwa [symbols_length]) (symbols_lt hsym)
  refine ⟨o, exec_rsDec_symbols hF hg hlong hfits hD hsym ho, fun W hW => ?_, fun hfar => ?_⟩
  · have hdec := rsDecode_symbols_near hbuilt hr hn hsym hW
    rwa [ho, Except.ok.injEq, Except.ok.injEq, hlen] at hdec
  · have hdec := rsDecode_symbols_far hbuilt hm hr hn hsym hfar
    rwa [ho, Except.ok.injEq] at hdec

/-! ## Decoding what the encoder wrote -/

theorem ofNat_length_of_readRange {m : Memory} {w : Word} (h : m.readRange 0 w.toNat = some D) :
    BitVec.ofNat 32 D.length = w := by
  rw [readRange_length h, BitVec.ofNat_toNat, BitVec.setWidth_eq]

/-- The state after the host has moved a received word to `IBUF` and `OLEN` to `ILEN` (R208). -/
def State.receive (t : State) (E : List Byte) : State := { t with ibuf := Memory.ofBytes E, ilen := t.olen }

theorem State.Inv.receive (hi : t.Inv) {E : List Byte} (hlen : E.length ≤ 8192) : (t.receive E).Inv :=
  { hi with
    ibufWf := Memory.ofBytes_wf E
    ibufInside := fun c hc => by
      have hkey := Memory.cellsFrom_key_lt 0 E c hc
      simp only [Config.bufBytes]
      omega }

/-- An `RS.ENC` that completes with `OK` read symbols and wrote their codeword, which is no longer than the code (R195). -/
theorem exec_rsEnc_ok (h : exec .rsEnc s = .next t) (hok : t.code = .ok)
    (hD : s.ibuf.readRange 0 s.ilen.toNat = some D) :
    ∃ F g, s.field = some F ∧ s.rsGen = some g ∧ s.ilen.toNat ≠ 0 ∧ s.ilen.toNat + s.rsR.toNat ≤ F.order ∧
      (∀ b ∈ D, b.toNat < F.size) ∧ t = (s.setOutput (rsCodeword F g s.rsR.toNat D)).complete := by
  rcases execRsEnc_shape s with
    ⟨c, hc, e⟩ | ⟨-, -, e⟩ | ⟨-, -, e⟩ | ⟨F, g, D', hF, hg, hpos, hfits, hD', hsym, e⟩ <;> rw [exec, e] at h
  · obtain rfl := next_inj h
    have hraised : c ≠ .ok := by rcases hc with (rfl | rfl | rfl) | rfl <;> decide
    exact absurd hok hraised
  · cases h
  · cases h
  · obtain rfl : D' = D := Option.some.inj (hD'.symm.trans hD)
    exact ⟨F, g, hF, hg, hpos, hfits, allSymbols_iff.1 hsym, next_inj h⟩

/-- After an `RS.ENC` that completes with `OK`, its output is a code word `W`, and `RS.DEC` of a word of symbols within the
capacity of `W` reports the payload (R205, R208). -/
theorem exec_rsDec_after_rsEnc (hi : s.Inv) (h : exec .rsEnc s = .next t) (hok : t.code = .ok)
    (hD : s.ibuf.readRange 0 s.ilen.toNat = some D) :
    ∃ F W, F.m = s.gfM.toNat ∧ rsCode F s.rsR.toNat W ∧ t.obuf = Memory.ofBytes W ∧ t.olen.toNat = W.length ∧
      ∀ E, (∀ b ∈ E, b.toNat < F.size) → WithinCapacity F s.rsR.toNat E W →
        (rsCode F s.rsR.toNat E ∧ exec .rsDec (t.receive E) = .next ((t.receive E).reportDecode (.clean D))) ∨
        (¬ rsCode F s.rsR.toNat E ∧ exec .rsDec (t.receive E) = .next ((t.receive E).reportDecode (.corrected D))) := by
  have ht : t.Inv := hi.exec h
  obtain ⟨F, g, hF, hg, hpos, hfits, hsym, rfl⟩ := exec_rsEnc_ok h hok hD
  obtain ⟨hm, hr, rfl⟩ := hi.rs_unit hF hg
  have hlen : D.length = s.ilen.toNat := readRange_length hD
  have horder : F.order ≤ 2 ^ 8 - 1 := Field.order_le hm
  have hWlen := rsCodeword_length (F := F) (rsGenerator_length F s.rsR.toNat) hr D
  have hW := rsCodeword_member (hi.built hF) hm hr hsym
  have htake : (rsCodeword F (rsGenerator F s.rsR.toNat) s.rsR.toNat D).take D.length = D := List.take_left
  generalize rsCodeword F (rsGenerator F s.rsR.toNat) s.rsR.toNat D = W at ht hWlen hW htake ⊢
  have holen : (BitVec.ofNat 32 W.length).toNat = W.length := by rw [BitVec.toNat_ofNat, Nat.mod_eq_of_lt (by omega)]
  refine ⟨F, W, (State.field_eq_some.1 hF).1, hW, rfl, holen, fun E hEsym hnear => ?_⟩
  have hread : (Memory.ofBytes E).readRange 0 (BitVec.ofNat 32 W.length).toNat = some E := by
    rw [holen, hnear.1]
    exact Memory.readRange_ofBytes E
  have hElen : E.length ≤ 8192 := by rw [← hnear.1]; omega
  obtain ⟨o, hexec, hdec, -⟩ := exec_rsDec_answers (ht.receive hElen) hF hg
    (show s.rsR.toNat < (BitVec.ofNat 32 W.length).toNat by omega)
    (show (BitVec.ofNat 32 W.length).toNat ≤ F.order by omega) hread hEsym
  have hpayload : W.take ((BitVec.ofNat 32 W.length).toNat - s.rsR.toNat) = D := by
    rw [holen, hWlen, Nat.add_sub_cancel, htake]
  rcases hdec W hnear with ⟨hcode, rfl⟩ | ⟨hcode, rfl⟩
  · exact .inl ⟨hcode, hpayload ▸ hexec⟩
  · exact .inr ⟨hcode, hpayload ▸ hexec⟩

end RsCommands

/-! ## Division by zero (R207) -/

/-- The commands that could raise `ERR_DIV0` by their form (R293). -/
theorem exec_errDiv0_cases {i : Instr} {s t : State} (h : exec i s = .next t) (hc : t.code = .errDiv0) :
    i = .gfInv ∨ i = .gfLog ∨ i = .rsDec ∨ i = .bchDec := by
  cases exec_effect h with
  | raised _ code =>
    rw [State.raise_code] at hc
    subst hc
    simpa [raises] using code
  | fieldRejected code | rsRejected code | bchRejected code =>
    rw [State.raise_code] at hc
    subst hc
    simp at code
  | rsDecoded | bchDecoded =>
    rw [State.reportDecode_code] at hc
    cases hc
  | _ => cases hc

/-- Without a field a command of the GF unit raises another code (R294). -/
theorem exists_field_of_errDiv0 {s t : State} {k : Field → Effect} (h : withField s k = .next t) (hc : t.code = .errDiv0) :
    ∃ F, s.field = some F := by
  rcases withField_cases s k with ⟨-, e⟩ | ⟨F, hF, -⟩
  · rw [e] at h
    rw [next_inj h] at hc
    cases hc
  · exact ⟨F, hF⟩

theorem opa_eq_zero_of_gfInv_errDiv0 {s t : State} (h : exec .gfInv s = .next t) (hc : t.code = .errDiv0) :
    s.opa.toNat = 0 := by
  obtain ⟨F, hF⟩ := exists_field_of_errDiv0 h hc
  by_contra h0
  rw [exec_gfInv_field hF, if_neg h0] at h
  split at h <;> rw [next_inj h] at hc <;> cases hc

theorem opa_eq_zero_of_gfLog_errDiv0 {s t : State} (h : exec .gfLog s = .next t) (hc : t.code = .errDiv0) :
    s.opa.toNat = 0 := by
  obtain ⟨F, hF⟩ := exists_field_of_errDiv0 h hc
  by_contra h0
  rw [exec_gfLog_field hF, if_neg h0] at h
  split at h <;> rw [next_inj h] at hc <;> cases hc

/-- On a valid unit the decode of `RS.DEC` answers (R207). -/
theorem exec_rsDec_ne_errDiv0 {s t : State} (hi : s.Inv) (h : exec .rsDec s = .next t) : t.code ≠ .errDiv0 := by
  rcases execRsDec_shape s with
    ⟨c, hc, e⟩ | ⟨-, -, e⟩ | ⟨-, -, e⟩ | ⟨F, g, D, hF, hg, -, hfits, hD, hsym, ⟨hdec, -⟩ | ⟨o, -, e⟩⟩
  · rw [exec, e] at h
    obtain rfl := next_inj h
    rcases hc with (rfl | rfl | rfl) | rfl <;> simp
  · rw [exec, e] at h; cases h
  · rw [exec, e] at h; cases h
  · obtain ⟨-, hr, -⟩ := hi.rs_unit hF hg
    obtain ⟨o, ho⟩ := rsDecode_ok (hi.built hF) hr (by rwa [symbols_length, readRange_length hD])
      (symbols_lt (allSymbols_iff.1 hsym))
    rw [ho] at hdec
    cases hdec
  · rw [exec, e] at h
    rw [next_inj h, State.reportDecode_code]
    decide

/-- On a valid unit the decode of `BCH.DEC` answers (R249). -/
theorem exec_bchDec_ne_errDiv0 {s t : State} (hi : s.Inv) (h : exec .bchDec s = .next t) : t.code ≠ .errDiv0 := by
  rcases execBchDec_shape s with
    ⟨c, hc, e⟩ | ⟨-, -, e⟩ | ⟨-, -, e⟩ | ⟨F, g, p, D, hF, -, -, -, -, -, ⟨hdec, -⟩ | ⟨o, -, e⟩⟩
  · rw [exec, e] at h
    obtain rfl := next_inj h
    rcases hc with rfl | rfl | rfl <;> simp
  · rw [exec, e] at h; cases h
  · rw [exec, e] at h; cases h
  · obtain ⟨o, ho⟩ := bchDecode_ok (hi.built hF) s.bchT.toNat p.toNat (s.ilen.toNat - bytesFor p.toNat) D
    rw [ho] at hdec
    cases hdec
  · rw [exec, e] at h
    rw [next_inj h, State.reportDecode_code]
    decide

/-! ## The obligations -/

/-- Settles O34: the parity is the division register, and a codeword is a multiple of the generator (`rsCodeword_member`, an
induction over the division). -/
theorem rsCodewordsHaveZeroSyndromes : Obligations.RsCodewordsHaveZeroSyndromes := by
  intro s F g D hi hF hg hD
  obtain ⟨hm, hr, rfl⟩ := hi.rs_unit hF hg
  have hbuilt := hi.built hF
  obtain ⟨K, _, ⟨M⟩⟩ := Algebra.exists_model hbuilt
  obtain ⟨-, hmember⟩ := rsCodeword_member hbuilt hm hr hD
  exact ⟨rsParity_length (rsGenerator_length F _) hr _, (parity_facts hbuilt M hr (symbols_lt hD)).1, hmember⟩

/-- Settles O38: the code is `rsCode_iff_codeword`, the distance `rsCode_distance`, the decoder `exec_rsDec_answers`. -/
theorem rsDecIsABoundedDistanceDecoder : Obligations.RsDecIsABoundedDistanceDecoder := by
  intro s F g D hi hF hg hlong hfits hD hsym
  obtain ⟨hm, hr, hgen⟩ := hi.rs_unit hF hg
  have hbuilt := hi.built hF
  have hlen : D.length = s.ilen.toNat := readRange_length hD
  have hn : D.length ≤ F.order := hlen.trans_le hfits
  refine ⟨fun W hW => ?_, fun W V hW hV hWc hVc hne => ?_, ?_⟩
  · have hiff := rsCode_iff_codeword hbuilt hm hr (W := W) (by omega) (hW.trans_le hn)
    rwa [hW, ← hgen] at hiff
  · exact rsCode_distance hbuilt (hW.trans hV.symm) (hW.trans_le hn) hWc hVc hne
  · obtain ⟨o, hexec, hnear, hfar⟩ := exec_rsDec_answers hi hF hg hlong hfits hD hsym
    refine ⟨_, hexec, ?_⟩
    have hout : ∀ W, WithinCapacity F s.rsR.toNat D W →
        (s.reportDecode o).olen = BitVec.ofNat 32 (s.ilen.toNat - s.rsR.toNat) ∧
        (s.reportDecode o).obuf = Memory.ofBytes (W.take (s.ilen.toNat - s.rsR.toNat)) := by
      intro W hW
      have htake : (W.take (s.ilen.toNat - s.rsR.toNat)).length = s.ilen.toNat - s.rsR.toNat := by
        rw [List.length_take, hW.1]; omega
      rcases hnear W hW with ⟨-, rfl⟩ | ⟨-, rfl⟩
      · rw [State.reportDecode_clean htake]; exact ⟨rfl, rfl⟩
      · rw [State.reportDecode_corrected htake]; exact ⟨rfl, rfl⟩
    by_cases hex : ∃ W, WithinCapacity F s.rsR.toNat D W
    · obtain ⟨W, hW⟩ := hex
      rcases hnear W hW with ⟨hcode, rfl⟩ | ⟨hcode, rfl⟩
      · exact ⟨rfl, iff_of_true rfl ⟨W, hW⟩, fun V hl hV hd => hout V ⟨hl, hV, hd⟩, iff_of_true rfl hcode,
          fun htag => absurd rfl htag⟩
      · exact ⟨rfl, iff_of_true rfl ⟨W, hW⟩, fun V hl hV hd => hout V ⟨hl, hV, hd⟩, iff_of_false nofun hcode,
          fun htag => absurd rfl htag⟩
    · obtain rfl := hfar hex
      exact ⟨rfl, iff_of_false nofun hex, fun V hl hV hd => absurd ⟨V, hl, hV, hd⟩ hex,
        iff_of_false nofun fun hcode => hex ⟨D, withinCapacity_self hcode⟩, fun _ => rfl⟩

/-- Settles O39: the output is a code word within the capacity of the received word, so `RS.DEC` reports its payload
(`exec_rsDec_after_rsEnc`). -/
theorem rsDecCorrectsUpToCapacity : Obligations.RsDecCorrectsUpToCapacity := by
  intro s t D W E hi h hok hD hW hE hsym hd
  obtain ⟨F, W', hgfM, hW', hobuf, holen, hdec⟩ := exec_rsDec_after_rsEnc hi h hok hD
  obtain rfl : W' = W := by
    rw [hobuf, holen, Memory.readRange_ofBytes] at hW
    exact Option.some.inj hW
  rw [← hgfM] at hsym
  rcases hdec E hsym ⟨hE.symm, hW', hd⟩ with ⟨-, hexec⟩ | ⟨-, hexec⟩ <;>
    exact ⟨_, hexec, rfl, rfl, rfl, ofNat_length_of_readRange hD⟩

/-- Settles O40: the output is a code word at distance 0 from itself, so `RS.DEC` takes its zero-syndrome exit. -/
theorem rsRoundTripReturnsThePayload : Obligations.RsRoundTripReturnsThePayload := by
  intro s t D hi h hok hD
  obtain ⟨F, W, -, hW, hobuf, -, hdec⟩ := exec_rsDec_after_rsEnc hi h hok hD
  obtain ⟨-, hexec⟩ := (hdec W hW.1 (withinCapacity_self hW)).resolve_right fun hbad => hbad.1 hW
  rw [State.reportDecode_clean rfl, ofNat_length_of_readRange hD, State.receive, ← hobuf] at hexec
  exact hexec

/-- Settles O41: of the four commands that could raise the code, the two decoders never do, and the other two check `OPA`. -/
theorem divisionByZeroOnlyFromGfInvAndGfLog : Obligations.DivisionByZeroOnlyFromGfInvAndGfLog := by
  intro s t i hi h hc
  rcases exec_errDiv0_cases h hc with rfl | rfl | rfl | rfl
  · exact ⟨.inl rfl, opa_eq_zero_of_gfInv_errDiv0 h hc⟩
  · exact ⟨.inr rfl, opa_eq_zero_of_gfLog_errDiv0 h hc⟩
  · exact absurd hc (exec_rsDec_ne_errDiv0 hi h)
  · exact absurd hc (exec_bchDec_ne_errDiv0 hi h)

/-- Settles O32: the generator is a product of `r` monic factors with elements for coefficients (`rsGen_facts`). -/
theorem rsGeneratorIsMonicOfDegreeR : Obligations.RsGeneratorIsMonicOfDegreeR := by
  intro s F g hi hF hg
  obtain ⟨-, -, rfl⟩ := hi.rs_unit hF hg
  exact Algebra.rsGen_facts (hi.built hF) _

/-- Settles O35: each syndrome is additive. -/
theorem rsCodeIsClosedUnderXor : Obligations.RsCodeIsClosedUnderXor := by
  intro s F c e hi hF hl hc he hcm hem
  exact rsCodeMember_xor (hi.built hF) hl hc he hcm hem

/-- Settles O37: the locator and root searches decide between `locateErrors_eq_failed` and `locateErrors_eq_found`. -/
theorem rsDecCorrectsOrGivesUp : Obligations.RsDecCorrectsOrGivesUp := by
  intro s F g D S lam len hF hg hlong hfits hD hsym hS hne hbm
  subst hS
  have hlen : (symbols D).length = s.ilen.toNat := (symbols_length D).trans (readRange_length hD)
  refine ⟨fun hbad => ?_, fun pos e ht hdeg hpos hcount hcorr => ?_⟩
  · refine exec_rsDec_symbols hF hg hlong hfits hD hsym (Algebra.rsDecode_of_failed hne ?_)
    rw [hlen]
    exact Algebra.locateErrors_eq_failed hbm hbad
  · have hloc := Algebra.locateErrors_eq_found hbm ht hdeg hpos hcount
    rw [← hlen] at hloc hcorr
    rw [exec_rsDec_symbols hF hg hlong hfits hD hsym (Algebra.rsDecode_of_found hne hloc hcorr),
      State.reportDecode_corrected (k := s.ilen.toNat - s.rsR.toNat)]
    · rw [hlen]; rfl
    · rw [List.length_map, List.length_take, rsCorrect_length hcorr, ← symbols, hlen]; omega

/-- Settles O31: the checks in their order, by `exec_rsCfg_field`. -/
theorem rsCfgOutcome : Obligations.RsCfgOutcome := by
  refine fun s => ⟨fun h => withField_invalid (s := s.clearRs) h _, fun F hF => ⟨fun hbad => ?_, fun hm hpos hr => ?_⟩⟩ <;>
    rw [exec_rsCfg_field hF]
  · by_cases hm : 8 < F.m
    · exact if_pos hm
    · exact (if_neg hm).trans (if_pos (hbad.resolve_left hm))
  · exact (if_neg hm.not_gt).trans (if_neg (not_or.2 ⟨hpos.not_gt, hr.not_gt⟩))

/-- Settles O33: the checks in their order, then the codeword. -/
theorem rsEncResult : Obligations.RsEncResult := by
  refine fun s => ⟨fun h => withRs_invalid h _, fun F g hF hg => ⟨fun h => ?_, fun hpos hlong => ?_,
    fun D hpos hfits hD => ⟨fun hbad => ?_, fun hsym => ?_⟩⟩⟩
  · exact (exec_rsEnc_valid hF hg).trans (if_pos h)
  · exact (exec_rsEnc_valid hF hg).trans ((if_neg hpos).trans (if_pos hlong))
  · exact (exec_rsEnc_written hF hg hpos hfits hD).trans (if_neg (not_allSymbols hbad))
  · rw [exec_rsEnc_written hF hg hpos hfits hD, if_pos (allSymbols_iff.2 hsym), State.setOutput, rsCodeword,
      List.length_append, List.length_map]
    rfl

/-- Settles O36: the checks in their order, then the zero-syndrome exit. -/
theorem rsDecReturnsCleanWordsUnchanged : Obligations.RsDecReturnsCleanWordsUnchanged := by
  refine fun s => ⟨fun h => withRs_invalid h _, fun F g hF hg => ⟨exec_rsDec_empty hF hg, exec_rsDec_length hF hg,
    fun D hlong hfits hD => ⟨exec_rsDec_noSymbol hF hg hlong hfits hD, fun hsym hzero => ?_⟩⟩⟩
  have hdec := Algebra.rsDecode_of_member hzero
  rw [← symbols, symbols_length, readRange_length hD, Algebra.map_symbolByte_take_symbols] at hdec
  rw [exec_rsDec_symbols hF hg hlong hfits hD hsym hdec, State.reportDecode_clean]
  · rfl
  · rw [List.length_take, readRange_length hD]; omega

end Sys2Proof.Machine
end

section
/-! PROOFS. The BCH code and its decoder over a built field (43_bch.md, R244 to R251): the code bits and the pad bits of a
word, what the decode answers in each of its cases, and the least distance of the code. -/

namespace Sys2Proof.Algebra

open Machine (Built bm polyDegree rootPositions locateErrors bchSyndromes bchGenerator bchCode bchDecode bchCodeword
  bchRemainder codeBits bitStream flipBit bitAt bytesFor distance)

/-! ## Code bits and pad bits -/

theorem le_bits_of_bytesFor (p : Nat) : p ≤ 8 * bytesFor p := by
  rw [bytesFor]; omega

theorem codeBits_length {D : List Byte} {N : Nat} (h : N ≤ 8 * D.length) : (codeBits D N).length = N := by
  rw [codeBits, List.length_take, Machine.bitStream_length, min_eq_left h]

/-- The payload's bits are the first code bits (R245). -/
theorem bitStream_take_of_codeBits (D : List Byte) (k p : Nat) :
    bitStream (D.take k) = (codeBits D (8 * k + p)).take (8 * k) := by
  rw [bitStream_take, codeBits, List.take_take, min_eq_left (Nat.le_add_right _ _)]

/-- The code bits determine the payload portion. -/
theorem take_eq_of_codeBits_eq {D E : List Byte} {k p : Nat} (hD : k ≤ D.length) (hE : k ≤ E.length)
    (h : codeBits D (8 * k + p) = codeBits E (8 * k + p)) : D.take k = E.take k := by
  refine bitStream_inj ?_ ?_
  · rw [List.length_take_of_le hD, List.length_take_of_le hE]
  · rw [bitStream_take_of_codeBits D k p, bitStream_take_of_codeBits E k p, h]

theorem foldl_flipBit_length (pos : List Nat) (D : List Byte) : (pos.foldl flipBit D).length = D.length := by
  induction pos generalizing D with
  | nil => rfl
  | cons i pos ih => exact (ih _).trans (List.length_modify ..)

theorem bitAt_append_right {D : List Byte} (E : List Byte) {i : Nat} (hi : 8 * D.length ≤ i) :
    bitAt (D ++ E) i = bitAt E (i - 8 * D.length) := by
  rw [bitAt, bitAt, List.getD_append_right _ _ _ _ (by omega), Nat.sub_mul_div, Nat.sub_mul_mod hi]

theorem bitAt_of_length_le {D : List Byte} {i : Nat} (hi : 8 * D.length ≤ i) : bitAt D i = false := by
  rw [bitAt, List.getD_eq_default _ _ (by omega)]
  exact BitVec.getLsbD_zero

/-- The encoder writes every bit after the code bits as 0 (R247). -/
theorem bitAt_bchCodeword_pad (g p : Nat) (D : List Byte) {i : Nat} (hi : 8 * D.length + p ≤ i) :
    bitAt (bchCodeword g p D) i = false := by
  have hp := le_bits_of_bytesFor p
  rw [bchCodeword, bitAt_append_right _ (by omega)]
  by_cases hin : i - 8 * D.length < 8 * bytesFor p
  · have hpad : ¬ 8 * bytesFor p - 1 - (i - 8 * D.length) ≥ 8 * bytesFor p - p := by omega
    rw [bitAt_bytes _ _ _ hin, Nat.testBit_shiftLeft, decide_eq_false hpad, Bool.false_and]
  · exact bitAt_of_length_le (by rw [Machine.bytesMsbFirst_length]; omega)

/-! ## The decode, case by case (R249) -/

section
variable {F : Machine.Field} {P t p k d : Nat} {D E : List Byte} {lam pos : List Nat}

/-- Pad bits are not read: the decode is a function of the code bits (R247). -/
theorem bchDecode_of_codeBits_eq (hD : k ≤ D.length) (hE : k ≤ E.length)
    (h : codeBits D (8 * k + p) = codeBits E (8 * k + p)) : bchDecode F t p k D = bchDecode F t p k E := by
  have hflip (pos : List Nat) : (pos.foldl flipBit D).take k = (pos.foldl flipBit E).take k := by
    refine take_eq_of_codeBits_eq (p := p) ?_ ?_ ?_
    · rwa [foldl_flipBit_length]
    · rwa [foldl_flipBit_length]
    · rw [codeBits_flip, codeBits_flip, h]
  simp only [bchDecode, h, take_eq_of_codeBits_eq hD hE h, hflip]

theorem bchDecode_of_zero (hz : ∀ v ∈ bchSyndromes F t (codeBits D (8 * k + p)), v = 0) :
    bchDecode F t p k D = .ok (.clean (D.take k)) := by
  simp only [bchDecode]
  exact if_pos (by simpa using hz)

theorem bchDecode_of_failed (hz : ¬ ∀ v ∈ bchSyndromes F t (codeBits D (8 * k + p)), v = 0)
    (hloc : locateErrors F (bchSyndromes F t (codeBits D (8 * k + p))) (2 * t) t (8 * k + p) = .ok .failed) :
    bchDecode F t p k D = .ok .uncorrectable := by
  simp only [bchDecode, hloc]
  exact if_neg (by simpa using hz)

theorem bchDecode_of_found (hz : ¬ ∀ v ∈ bchSyndromes F t (codeBits D (8 * k + p)), v = 0)
    (hloc : locateErrors F (bchSyndromes F t (codeBits D (8 * k + p))) (2 * t) t (8 * k + p) = .ok (.found lam d pos)) :
    bchDecode F t p k D = .ok (.corrected ((pos.foldl flipBit D).take k)) := by
  simp only [bchDecode, hloc]
  exact if_neg (by simpa using hz)

/-! ## The code (R251) -/

/-- Two code words differ in at least `2t + 1` bits. -/
theorem bchCode_distance (h : Built F.m P F.tables) (ht : 2 * t ≤ F.order - 1) {w v : List Bool}
    (hl : w.length = v.length) (hn : w.length ≤ F.order) (hw : bchCode (bchGenerator F t) w)
    (hv : bchCode (bchGenerator F t) v) (hne : w ≠ v) : 2 * t + 1 ≤ distance w v := by
  by_contra hd
  exact hne (bchCode_unique h ht hl hn hw hv (by omega))

end

/-- A word of `BCode(N)` at most `t` bits from the code bits `c` (R251). -/
def BchWithinCapacity (g t N : Nat) (c w : List Bool) : Prop := w.length = N ∧ bchCode g w ∧ distance c w ≤ t

/-- A code word is within its own capacity. -/
theorem bchWithinCapacity_self {g N : Nat} (t : Nat) {c : List Bool} (hl : c.length = N) (hc : bchCode g c) :
    BchWithinCapacity g t N c c := ⟨hl, hc, (distance_self c).trans_le (Nat.zero_le t)⟩

end Sys2Proof.Algebra
end

section
/-! PROOFS. The BCH unit (43_bch.md, R243 to R253): the outcome of each command, the code words its encoder writes, and its
decoder as a bounded-distance decoder on the code bits. -/

namespace Sys2Proof.Machine

open Sys2Proof.Algebra (BchWithinCapacity bchWithinCapacity_self bchCode_distance bchDecode_ok bchDecode_near
  bchDecode_answers bchDecode_of_zero bchDecode_of_failed bchDecode_of_found bchCodeword_member codeBits_length
  le_bits_of_bytesFor)

section BchCommands
variable {s t : State} {F : Field} {g k : Nat} {p : Word} {D : List Byte}

/-! ## A valid unit -/

/-- What a valid BCH unit holds (R26, R35). -/
theorem State.Inv.bch_unit (hi : s.Inv) (hF : s.field = some F) (hg : s.bchGen = some g) (hp : s.bchP = some p) :
    1 ≤ s.bchT.toNat ∧ 2 * s.bchT.toNat ≤ F.order - 1 ∧ g = bchGenerator F s.bchT.toNat ∧ p.toNat = intDegree g := by
  obtain ⟨F', hF', hpos, hfits, hgen, hroom, hp'⟩ := hi.bchBuilt g hg
  obtain rfl : F' = F := Option.some.inj (hF'.symm.trans hF)
  obtain rfl : p = BitVec.ofNat 32 (intDegree g) := Option.some.inj (hp.symm.trans hp')
  have horder := Field.order_le (hi.field_bounds hF).2
  exact ⟨hpos, hfits, hgen, by rw [BitVec.toNat_ofNat, Nat.mod_eq_of_lt (by omega)]⟩

/-! ## The checks and the outcomes of the commands -/

theorem exec_bchEnc_invalid (h : s.bchValid = false) : exec .bchEnc s = .next (s.raise .errNotConfigured) := by
  rw [exec, execBchEnc, withBch_none (by simpa [State.bchValid] using h)]

theorem exec_bchDec_invalid (h : s.bchValid = false) : exec .bchDec s = .next (s.raise .errNotConfigured) := by
  rw [exec, execBchDec, withBch_none (by simpa [State.bchValid] using h)]

theorem exec_bchCfg_noField (h : s.field = none) :
    exec .bchCfg s = .next (s.clearBch.forgetBchP.raise .errNotConfigured) := by
  simp only [exec, execBchCfg, h]

theorem exec_bchCfg_field (hF : s.field = some F) : exec .bchCfg s =
    if s.bchT.toNat < 1 ∨ F.order - 1 < 2 * s.bchT.toNat then .next (s.clearBch.forgetBchP.raise .errConfig)
    else if F.order < intDegree (bchGenerator F s.bchT.toNat) + 8 then .next (s.clearBch.forgetBchP.raise .errConfig)
    else .next { s.clearBch with
      bchGen := some (bchGenerator F s.bchT.toNat)
      bchP := some (BitVec.ofNat 32 (intDegree (bchGenerator F s.bchT.toNat))) }.complete := by
  simp only [exec, execBchCfg, hF]

section Valid
variable (hF : s.field = some F) (hg : s.bchGen = some g) (hp : s.bchP = some p)
include hF hg hp

theorem exec_bchEnc_valid : exec .bchEnc s =
    if s.ilen.toNat = 0 then .next (s.raise .errEmpty)
    else if F.order < 8 * s.ilen.toNat + p.toNat then .next (s.raise .errLength)
    else withInput s fun D => .next (s.setOutput (bchCodeword g p.toNat D)).complete := by
  rw [exec, execBchEnc, withBch_some hF hg hp]

theorem exec_bchEnc_written (hpos : s.ilen.toNat ≠ 0) (hfits : 8 * s.ilen.toNat + p.toNat ≤ F.order)
    (hD : s.ibuf.readRange 0 s.ilen.toNat = some D) :
    exec .bchEnc s = .next (s.setOutput (bchCodeword g p.toNat D)).complete := by
  rw [exec_bchEnc_valid hF hg hp, if_neg hpos, if_neg hfits.not_gt, withInput_some hD]

theorem exec_bchDec_empty (h : s.ilen.toNat = 0) : exec .bchDec s = .next (s.raise .errEmpty) := by
  rw [exec, execBchDec, withBch_some hF hg hp, if_pos h]

theorem exec_bchDec_length (hpos : s.ilen.toNat ≠ 0) (h : s.ilen.toNat ≤ bytesFor p.toNat ∨
      F.order < 8 * (s.ilen.toNat - bytesFor p.toNat) + p.toNat) : exec .bchDec s = .next (s.raise .errLength) := by
  rw [exec, execBchDec, withBch_some hF hg hp, if_neg hpos]
  by_cases hshort : s.ilen.toNat ≤ bytesFor p.toNat
  · rw [if_pos hshort]
  · rw [if_neg hshort, if_pos (h.resolve_left hshort)]

variable (hk : s.ilen.toNat = k + bytesFor p.toNat) (hpos : 1 ≤ k) (hfits : 8 * k + p.toNat ≤ F.order)
  (hD : s.ibuf.readRange 0 s.ilen.toNat = some D)
include hk hpos hfits hD

/-- `BCH.DEC` of `k` payload bytes past its checks reports what the decode answers (R249). -/
theorem exec_bchDec_written {o : Decoded} (ho : bchDecode F s.bchT.toNat p.toNat k D = .ok o) :
    exec .bchDec s = .next (s.reportDecode o) := by
  have hpayload : s.ilen.toNat - bytesFor p.toNat = k := by omega
  rw [exec, execBchDec, withBch_some hF hg hp, hpayload, if_neg (by omega), if_neg (by omega), if_neg (by omega),
    withInput_some hD, ho]

/-- `BCH.DEC` is a bounded-distance decoder: what it reports when a code word is within the capacity, and that otherwise it
gives up (R251). -/
theorem exec_bchDec_answers (hi : s.Inv) :
    ∃ o, exec .bchDec s = .next (s.reportDecode o) ∧
      (∀ w, BchWithinCapacity g s.bchT.toNat (8 * k + p.toNat) (codeBits D (8 * k + p.toNat)) w →
        ∃ out : List Byte, out.length = k ∧ bitStream out = w.take (8 * k) ∧
          ((bchCode g (codeBits D (8 * k + p.toNat)) ∧ o = .clean out) ∨
          (¬ bchCode g (codeBits D (8 * k + p.toNat)) ∧ o = .corrected out))) ∧
      ((¬ ∃ w, BchWithinCapacity g s.bchT.toNat (8 * k + p.toNat) (codeBits D (8 * k + p.toNat)) w) →
        o = .uncorrectable) := by
  obtain ⟨-, ht, rfl, -⟩ := hi.bch_unit hF hg hp
  have hbuilt := hi.built hF
  have hbits := le_bits_of_bytesFor p.toNat
  have hlen : 8 * k + p.toNat ≤ 8 * D.length := by rw [readRange_length hD, hk]; omega
  obtain ⟨o, ho⟩ := bchDecode_ok hbuilt s.bchT.toNat p.toNat k D
  refine ⟨o, exec_bchDec_written hF hg hp hk hpos hfits hD ho, fun w ⟨hl, hw, hd⟩ => ?_, fun hfar => ?_⟩
  · have hdec := bchDecode_near hbuilt ht hlen hl hfits hw hd
    simpa only [ho, Except.ok.injEq] using hdec
  · have hdec := (bchDecode_answers hbuilt ht hlen hfits).resolve_right hfar
    rwa [ho, Except.ok.injEq] at hdec

end Valid

/-! ## Decoding what the encoder wrote -/

/-- A `BCH.ENC` that completes with `OK` wrote the codeword of its input, which is no longer than the code (R246). -/
theorem exec_bchEnc_ok (h : exec .bchEnc s = .next t) (hok : t.code = .ok)
    (hD : s.ibuf.readRange 0 s.ilen.toNat = some D) :
    ∃ F g p, s.field = some F ∧ s.bchGen = some g ∧ s.bchP = some p ∧ s.ilen.toNat ≠ 0 ∧
      8 * s.ilen.toNat + p.toNat ≤ F.order ∧ t = (s.setOutput (bchCodeword g p.toNat D)).complete := by
  rcases execBchEnc_shape s with
    ⟨c, hc, e⟩ | ⟨-, -, e⟩ | ⟨-, -, e⟩ | ⟨F, g, p, D', hF, hg, hp, hpos, hfits, hD', e⟩ <;> rw [exec, e] at h
  · obtain rfl := next_inj h
    exact absurd hok (raises_ne_ok (raises_inputCode (i := .bchEnc) rfl hc))
  · cases h
  · cases h
  · obtain rfl : D' = D := Option.some.inj (hD'.symm.trans hD)
    exact ⟨F, g, p, hF, hg, hp, hpos, hfits, next_inj h⟩

/-- The payload portion of a codeword, read off its code bits. -/
theorem eq_of_bitStream_eq_codeBits_bchCodeword {out : List Byte} (n : Nat) (hlen : out.length = D.length)
    (h : bitStream out = (codeBits (bchCodeword g n D) (8 * D.length + n)).take (8 * D.length)) : out = D := by
  have htake : (bchCodeword g n D).take D.length = D := List.take_left
  rw [← Algebra.bitStream_take_of_codeBits, htake] at h
  exact Algebra.bitStream_inj hlen h

/-- After a `BCH.ENC` that completes with `OK`, the code bits of its output `W` are a code word, and `BCH.DEC` of a word whose
code bits are within the capacity of those of `W` reports the payload (R250, R253). -/
theorem exec_bchDec_after_bchEnc (hi : s.Inv) (h : exec .bchEnc s = .next t) (hok : t.code = .ok)
    (hD : s.ibuf.readRange 0 s.ilen.toNat = some D) :
    ∃ g p N W, s.bchP = some p ∧ N = 8 * s.ilen.toNat + p.toNat ∧ N ≤ 8 * W.length ∧ bchCode g (codeBits W N) ∧
      t.obuf = Memory.ofBytes W ∧ t.olen.toNat = W.length ∧
      ∀ E, E.length = W.length → distance (codeBits E N) (codeBits W N) ≤ s.bchT.toNat →
        (bchCode g (codeBits E N) ∧ exec .bchDec (t.receive E) = .next ((t.receive E).reportDecode (.clean D))) ∨
        (¬ bchCode g (codeBits E N) ∧ exec .bchDec (t.receive E) = .next ((t.receive E).reportDecode (.corrected D))) := by
  have ht : t.Inv := hi.exec h
  obtain ⟨F, g, p, hF, hg, hp, hpos, hfits, rfl⟩ := exec_bchEnc_ok h hok hD
  have hlen : D.length = s.ilen.toNat := readRange_length hD
  have hbits := le_bits_of_bytesFor p.toNat
  have hroom := hi.output_fits.2 hF hg hfits hlen
  have hWlen := bchCodeword_length g p.toNat D
  have hW : bchCode g (codeBits (bchCodeword g p.toNat D) (8 * s.ilen.toNat + p.toNat)) := by
    obtain ⟨ht1, ht2, hgen, hdeg⟩ := hi.bch_unit hF hg hp
    have hmember := bchCodeword_member (hi.built hF) ht1 ht2 D
    rwa [← hgen, ← hdeg, hlen] at hmember
  have hpayload : ∀ out : List Byte, out.length = s.ilen.toNat →
      bitStream out = (codeBits (bchCodeword g p.toNat D) (8 * s.ilen.toNat + p.toNat)).take (8 * s.ilen.toNat) →
      out = D := by
    rw [← hlen]
    exact fun out => eq_of_bitStream_eq_codeBits_bchCodeword p.toNat
  generalize bchCodeword g p.toNat D = W at ht hroom hWlen hW hpayload ⊢
  have hN : 8 * s.ilen.toNat + p.toNat ≤ 8 * W.length := by omega
  have holen : (BitVec.ofNat 32 W.length).toNat = W.length := by rw [BitVec.toNat_ofNat, Nat.mod_eq_of_lt (by omega)]
  refine ⟨g, p, _, W, hp, rfl, hN, hW, rfl, holen, fun E hE hd => ?_⟩
  have hread : (Memory.ofBytes E).readRange 0 (BitVec.ofNat 32 W.length).toNat = some E := by
    rw [holen, ← hE]
    exact Memory.readRange_ofBytes E
  obtain ⟨o, hexec, hdec, -⟩ := exec_bchDec_answers (s := (s.setOutput W).complete.receive E) (k := s.ilen.toNat) hF hg hp
    (show (BitVec.ofNat 32 W.length).toNat = s.ilen.toNat + bytesFor p.toNat by omega)
    (Nat.one_le_iff_ne_zero.2 hpos) hfits hread (ht.receive (by omega))
  obtain ⟨out, hout, hstream, hcase⟩ := hdec _ ⟨codeBits_length hN, hW, hd⟩
  obtain rfl := hpayload out hout hstream
  rcases hcase with ⟨hcode, rfl⟩ | ⟨hcode, rfl⟩
  · exact .inl ⟨hcode, hexec⟩
  · exact .inr ⟨hcode, hexec⟩

end BchCommands

/-! ## The obligations -/

/-- Settles O47: the distance is `bchCode_distance`, the decoder `exec_bchDec_answers`. -/
theorem bchDecIsABoundedDistanceDecoder : Obligations.BchDecIsABoundedDistanceDecoder := by
  intro s F g p D k N hi hF hg hp hk hN hpos hfits hD
  subst hN
  obtain ⟨-, ht, hgen, -⟩ := hi.bch_unit hF hg hp
  refine ⟨fun w v hw hv hwc hvc hne => ?_, ?_⟩
  · subst hgen
    exact bchCode_distance (hi.built hF) ht (hw.trans hv.symm) (hw.trans_le hfits) hwc hvc hne
  · obtain ⟨o, hexec, hnear, hfar⟩ := exec_bchDec_answers hF hg hp hk hpos hfits hD hi
    refine ⟨_, hexec, ?_⟩
    have hout : ∀ w, BchWithinCapacity g s.bchT.toNat (8 * k + p.toNat) (codeBits D (8 * k + p.toNat)) w →
        (s.reportDecode o).olen = BitVec.ofNat 32 k ∧
        ∃ out : List Byte, out.length = k ∧ bitStream out = w.take (8 * k) ∧
          (s.reportDecode o).obuf = Memory.ofBytes out := by
      intro w hw
      obtain ⟨out, hlen, hstream, ⟨-, rfl⟩ | ⟨-, rfl⟩⟩ := hnear w hw
      · rw [State.reportDecode_clean hlen]; exact ⟨rfl, out, hlen, hstream, rfl⟩
      · rw [State.reportDecode_corrected hlen]; exact ⟨rfl, out, hlen, hstream, rfl⟩
    by_cases hex : ∃ w, BchWithinCapacity g s.bchT.toNat (8 * k + p.toNat) (codeBits D (8 * k + p.toNat)) w
    · obtain ⟨w, hw⟩ := hex
      obtain ⟨out, -, -, ⟨hcode, rfl⟩ | ⟨hcode, rfl⟩⟩ := hnear w hw
      · exact ⟨rfl, iff_of_true rfl ⟨w, hw⟩, fun v hl hv hd => hout v ⟨hl, hv, hd⟩, iff_of_true rfl hcode,
          fun htag => absurd rfl htag⟩
      · exact ⟨rfl, iff_of_true rfl ⟨w, hw⟩, fun v hl hv hd => hout v ⟨hl, hv, hd⟩, iff_of_false nofun hcode,
          fun htag => absurd rfl htag⟩
    · obtain rfl := hfar hex
      have hlen : 8 * k + p.toNat ≤ 8 * D.length := by
        have hbits := le_bits_of_bytesFor p.toNat
        rw [readRange_length hD, hk, ← bytesFor]; omega
      exact ⟨rfl, iff_of_false nofun hex, fun v hl hv hd => absurd ⟨v, hl, hv, hd⟩ hex,
        iff_of_false nofun fun hcode => hex ⟨_, bchWithinCapacity_self _ (codeBits_length hlen) hcode⟩, fun _ => rfl⟩

/-- Settles O48: the code bits of the output are a code word within the capacity of those received, so `BCH.DEC` reports its
payload (`exec_bchDec_after_bchEnc`). -/
theorem bchDecCorrectsUpToCapacity : Obligations.BchDecCorrectsUpToCapacity := by
  intro s t p D W E N hi hp h hok hD hW hE hN hd
  obtain ⟨g, p', N', W', hp', hN', -, -, hobuf, holen, hdec⟩ := exec_bchDec_after_bchEnc hi h hok hD
  obtain rfl : p' = p := Option.some.inj (hp'.symm.trans hp)
  obtain rfl : N' = N := hN'.trans hN.symm
  obtain rfl : W' = W := by
    rw [hobuf, holen, Memory.readRange_ofBytes] at hW
    exact Option.some.inj hW
  rcases hdec E hE hd with ⟨-, hexec⟩ | ⟨-, hexec⟩ <;>
    exact ⟨_, hexec, rfl, rfl, rfl, ofNat_length_of_readRange hD⟩

/-- Settles O49: the code bits of the output are a code word at distance 0 from themselves, so `BCH.DEC` takes its
zero-syndrome exit. -/
theorem bchRoundTripReturnsThePayload : Obligations.BchRoundTripReturnsThePayload := by
  intro s t D hi h hok hD
  obtain ⟨g, p, N, W, -, -, -, hW, hobuf, -, hdec⟩ := exec_bchDec_after_bchEnc hi h hok hD
  have hself : distance (codeBits W N) (codeBits W N) ≤ s.bchT.toNat :=
    (Algebra.distance_self _).trans_le (Nat.zero_le _)
  obtain ⟨-, hexec⟩ := (hdec W rfl hself).resolve_right fun hbad => hbad.1 hW
  rw [State.reportDecode_clean rfl, ofNat_length_of_readRange hD, State.receive, ← hobuf] at hexec
  exact hexec

/-- Settles O45: the locator and root searches decide between `locateErrors_eq_failed` and `locateErrors_eq_found`. -/
theorem bchDecLocatesOrGivesUp : Obligations.BchDecLocatesOrGivesUp := by
  intro s F g p D S lam k N len hF hg hp hk hN hpos hfits hD hS hne hbm
  subst hS hN
  have hk' : s.ilen.toNat = k + bytesFor p.toNat := by rw [bytesFor]; omega
  refine ⟨fun hbad => ?_, fun pos ht hdeg hroots hcount => ?_⟩
  · exact exec_bchDec_written hF hg hp hk' hpos hfits hD
      (bchDecode_of_failed hne (Algebra.locateErrors_eq_failed hbm hbad))
  · have hout : ((pos.foldl flipBit D).take k).length = k := by
      rw [List.length_take, Algebra.foldl_flipBit_length, readRange_length hD]; omega
    rw [exec_bchDec_written hF hg hp hk' hpos hfits hD
      (bchDecode_of_found hne (Algebra.locateErrors_eq_found hbm ht hdeg hroots hcount)),
      State.reportDecode_corrected hout]
    rfl

/-- Settles O46: the parity fills the code bits of its bytes, and the decode is a function of the code bits. -/
theorem bchPadBitsAreZeroAndIgnored : Obligations.BchPadBitsAreZeroAndIgnored :=
  ⟨fun _ _ g p D _ _ _ _ _ hi => Algebra.bitAt_bchCodeword_pad g p.toNat D hi,
    fun _ _ _ _ _ _ hD hE h => Algebra.bchDecode_of_codeBits_eq (by omega) (by omega) h⟩

/-- Settles O42: the checks in their order, by `exec_bchCfg_field`. -/
theorem bchCfgOutcome : Obligations.BchCfgOutcome := by
  refine fun s => ⟨fun h => exec_bchCfg_noField ?_, fun F hF => ⟨fun hbad => ?_, fun hpos ht hroom => ?_⟩⟩
  · simpa [State.gfValid, State.field] using h
  · rw [exec_bchCfg_field hF]
    by_cases ht : s.bchT.toNat < 1 ∨ F.order - 1 < 2 * s.bchT.toNat
    · exact if_pos ht
    · exact (if_neg ht).trans (if_pos ((or_assoc.2 hbad).resolve_left ht))
  · rw [exec_bchCfg_field hF]
    exact (if_neg (not_or.2 ⟨hpos.not_gt, ht.not_gt⟩)).trans (if_neg hroom.not_gt)

/-- Settles O43: the checks in their order, then the codeword by the parity register step by step. -/
theorem bchEncResult : Obligations.BchEncResult := by
  refine fun s => ⟨exec_bchEnc_invalid, fun F g p hF hg hp => ⟨fun h => ?_, fun hpos hlong => ?_,
    fun D rem hpos hfits hD hrem => ?_⟩⟩
  · exact (exec_bchEnc_valid hF hg hp).trans (if_pos h)
  · exact (exec_bchEnc_valid hF hg hp).trans ((if_neg hpos).trans (if_pos hlong))
  · simp only [← divisionStep_eq_ite] at hrem
    subst hrem
    rw [exec_bchEnc_written hF hg hp hpos hfits hD, State.setOutput, bchCodeword_length, readRange_length hD]
    rfl

/-- Settles O44: the checks in their order, then the zero-syndrome exit. -/
theorem bchDecReturnsCleanWordsUnchanged : Obligations.BchDecReturnsCleanWordsUnchanged := by
  refine fun s => ⟨exec_bchDec_invalid, fun F g p hF hg hp => ⟨exec_bchDec_empty hF hg hp,
    exec_bchDec_length hF hg hp, fun D hlong hfits hD hzero => ?_⟩⟩
  have hout : (D.take (s.ilen.toNat - bytesFor p.toNat)).length = s.ilen.toNat - bytesFor p.toNat := by
    rw [List.length_take, readRange_length hD]; omega
  rw [exec_bchDec_written (k := s.ilen.toNat - bytesFor p.toNat) hF hg hp (by rw [bytesFor]; omega)
    (by rw [bytesFor]; omega) hfits hD (bchDecode_of_zero hzero), State.reportDecode_clean hout]
  rfl

end Sys2Proof.Machine
end

section
/-! PROOFS. Which command raises which code, and the state after a command that raises (60_exceptions.md, R293 to R297). -/

namespace Sys2Proof.Machine

/-! ## How a command raises -/

/-- The state a command raises from: a construction command first clears its flag and those that rest on it, with the tables
and generators behind them, and a failed `BCH.CFG` leaves `BCH_P` without a value (R28, R35, R297). -/
def State.clearedBy (s : State) : Instr → State
  | .gfBuild => s.clearField
  | .crcCfg => s.clearCrc
  | .rsCfg => s.clearRs
  | .bchCfg => s.clearBch.forgetBchP
  | .gfMul | .gfInv | .gfPow | .gfLog | .gfAlog | .crcEnc | .crcDec | .rsEnc | .rsDec | .bchEnc | .bchDec => s

@[simp] theorem State.clearedBy_gfBuild (s : State) : s.clearedBy .gfBuild = s.clearField := rfl
@[simp] theorem State.clearedBy_crcCfg (s : State) : s.clearedBy .crcCfg = s.clearCrc := rfl
@[simp] theorem State.clearedBy_rsCfg (s : State) : s.clearedBy .rsCfg = s.clearRs := rfl
@[simp] theorem State.clearedBy_bchCfg (s : State) : s.clearedBy .bchCfg = s.clearBch.forgetBchP := rfl

/-- A command that is no construction clears nothing. -/
theorem State.clearedBy_eq_self (s : State) {i : Instr}
    (hi : i ≠ .gfBuild ∧ i ≠ .crcCfg ∧ i ≠ .rsCfg ∧ i ≠ .bchCfg) : s.clearedBy i = s := by
  obtain ⟨hgf, hcrc, hrs, hbch⟩ := hi
  cases i with
  | gfBuild => exact absurd rfl hgf
  | crcCfg => exact absurd rfl hcrc
  | rsCfg => exact absurd rfl hrs
  | bchCfg => exact absurd rfl hbch
  | _ => rfl

/-- The codes a construction command can raise: the counterpart of `raises` (R293). -/
def constructionRaises (i : Instr) (c : Code) : Prop :=
  (c = .errConfig ∧ (i = .gfBuild ∨ i = .crcCfg ∨ i = .rsCfg ∨ i = .bchCfg)) ∨
  (c = .errInvalidPoly ∧ i = .gfBuild) ∨
  (c = .errNotConfigured ∧ (i = .rsCfg ∨ i = .bchCfg))

/-- A command completes with `OK`, or it raises one of its codes and has changed nothing but what it cleared (R293, R297). -/
theorem exec_ok_or_raised {i : Instr} {s t : State} (h : exec i s = .next t) :
    t.code = .ok ∨ ∃ c, t = (s.clearedBy i).raise c ∧
      (constructionRaises i c ∨
        (raises i c ∧ i ≠ .gfBuild ∧ i ≠ .crcCfg ∧ i ≠ .rsCfg ∧ i ≠ .bchCfg)) := by
  cases exec_effect h with
  | raised notBuild code => exact .inr ⟨_, by rw [s.clearedBy_eq_self notBuild], .inr ⟨code, notBuild⟩⟩
  | fieldRejected code => exact .inr ⟨_, rfl, .inl (by simpa [constructionRaises] using code)⟩
  | crcRejected => exact .inr ⟨_, rfl, .inl (by simp [constructionRaises])⟩
  | rsRejected code | bchRejected code => exact .inr ⟨_, rfl, .inl (by simpa [constructionRaises] using code.symm)⟩
  | rsDecoded | bchDecoded => exact .inl (State.reportDecode_code _ s)
  | _ => exact .inl rfl

/-! ## The obligations -/

/-- Settles O52: `exec_ok_or_raised` gives the whole next state, and each part of it is read off per command. -/
theorem raisedCommandsChangeNothingElse : Obligations.RaisedCommandsChangeNothingElse := by
  refine ⟨fun s w e hw => ?_, fun i s t h hraised => ?_⟩
  · rw [runCommand, hw]
    rfl
  · obtain ⟨c, rfl, -⟩ := (exec_ok_or_raised h).resolve_left hraised
    cases i with
    | gfBuild => simp [State.gfValid, State.rsValid, State.bchValid]
    | crcCfg => simp
    | rsCfg => simp [State.rsValid]
    | bchCfg => simp [State.bchValid]
    | _ =>
      rw [s.clearedBy_eq_self (by simp)]
      simp

/-- Settles O54: each code of `exec_ok_or_raised` names the commands it comes from. -/
theorem commandsRaiseOnlyTheirCodes : Obligations.CommandsRaiseOnlyTheirCodes := by
  intro i s t h
  rcases exec_ok_or_raised h with hok | ⟨c, rfl, hconstruction | ⟨hcode, hgf, hcrc, -, -⟩⟩
  · simp [hok]
  · rcases hconstruction with ⟨rfl, hi⟩ | ⟨rfl, hi⟩ | ⟨rfl, hi⟩
    · simpa using hi
    · simpa using hi
    · rcases hi with rfl | rfl <;> simp
  · rcases hcode with rfl | ⟨rfl | rfl, hi⟩ | ⟨rfl, hi⟩ | ⟨rfl, hi⟩
    · simp [hgf, hcrc]
    all_goals simpa using hi

end Sys2Proof.Machine
end

section
/-! PROOFS. Every command completes: in the reset state, and wherever the invariant holds and the input is written
(70_reset_and_hazards.md, R332, R339, R340). -/

namespace Sys2Proof.Machine

/-! ## The reset state (R332) -/

/-- With no unit valid, a command that needs one raises `ERR_NOT_CONFIGURED`, whatever it clears first. -/
theorem exec_noUnit {s : State} {i : Instr} (hgf : s.gfValid = false) (hcrc : s.crcValid = false) (hrs : s.rsValid = false)
    (hbch : s.bchValid = false) (hi : i ≠ .gfBuild ∧ i ≠ .crcCfg) :
    exec i s = .next ((s.clearedBy i).raise .errNotConfigured) := by
  have hfield : s.field = none := by simpa [State.field, State.gfValid] using hgf
  cases i with
  | gfBuild => exact absurd rfl hi.1
  | crcCfg => exact absurd rfl hi.2
  | gfMul | gfInv | gfPow | gfLog | gfAlog => exact withField_invalid hgf _
  | crcEnc | crcDec => exact withCrcInput_invalid hcrc _
  | rsCfg => exact withField_invalid (s := s.clearRs) hgf _
  | rsEnc | rsDec => exact withRs_invalid hrs _
  | bchCfg => exact exec_bchCfg_noField hfield
  | bchEnc => exact exec_bchEnc_invalid hbch
  | bchDec => exact exec_bchDec_invalid hbch

theorem exec_gfBuild_reset : exec .gfBuild State.reset = .next (State.reset.clearField.raise .errConfig) :=
  exec_gfBuild_error (buildTables_outOfRange (.inl (by decide)))

theorem exec_crcCfg_reset : exec .crcCfg State.reset = .next (State.reset.clearCrc.raise .errConfig) := by
  obtain ⟨hlegal, -⟩ | ⟨-, e⟩ := execCrcCfg_cases State.reset
  · exact absurd (State.crcConfigLegal_iff.1 hlegal).1 (by decide)
  · exact e

/-! ## States that keep the invariant (R339, R340) -/

/-- A command reads its input inside the buffer only, so a written input leaves it no reason to stop (R73). -/
theorem exec_not_fault {s : State} (hi : s.Inv) {i : Instr} (hin : readsInput i = true → s.inputWritten)
    (f : Fault) : exec i s ≠ .fault f := by
  intro h
  obtain ⟨-, hreads, hunwritten, hfits⟩ := hi.exec_fault h
  obtain ⟨j, hj, hnone⟩ := Memory.readRange_eq_none.1 hunwritten
  have hheld := hin hreads (hi.inputFits_buffer hfits) j hj
  rw [Nat.zero_add] at hnone
  simp [hnone] at hheld

/-! ## The obligations -/

/-- Settles O13: the two commands that need no unit reject the zero configuration, and no unit is valid for the others. -/
theorem everyCommandIsDefinedAtReset : Obligations.EveryCommandIsDefinedAtReset := by
  refine ⟨fun i => ?_, fun b _ => by cases b <;> rfl⟩
  by_cases hi : i = .gfBuild ∨ i = .crcCfg
  · rw [if_pos hi]
    rcases hi with rfl | rfl
    · exact ⟨_, exec_gfBuild_reset, rfl, rfl⟩
    · exact ⟨_, exec_crcCfg_reset, rfl, rfl⟩
  · rw [if_neg hi]
    exact ⟨_, exec_noUnit rfl rfl rfl rfl (not_or.1 hi), rfl, rfl⟩

/-- Settles O56: of the three outcomes of a command, it is never refused, and its written input rules out the stop. -/
theorem everyCommandCompletes : Obligations.EveryCommandCompletes := by
  intro i s hinv hin
  cases h : exec i s with
  | next t => exact ⟨t, rfl⟩
  | fault f => exact absurd h (exec_not_fault hinv hin f)
  | refused r => exact absurd h (exec_not_refused i s r)

end Sys2Proof.Machine
end
